-- ==== Sys2Proof/Word.lean ====
section
/-! DEFINITION. The words the spec gives the machine (00_scope.md R7): bytes, 16-bit plane words, 24-bit colours,
32-bit registers. -/

namespace Sys2Proof

/-- `u8`, `i8`: one byte of system memory (R7, R63). -/
abbrev Byte := BitVec 8

/-- `u16`: a plane word of a group of 16 pixels (R144). -/
abbrev Half := BitVec 16

/-- A packed 24-bit colour, red 23:16, green 15:8, blue 7:0 (R46, R94). -/
abbrev Colour := BitVec 24

/-- `u32`: a register as the host reads and writes it (R22). -/
abbrev Word := BitVec 32

end Sys2Proof
end

