-- ==== Sys2Proof/Syntax.lean ====
section
/-! DEFINITION. The instructions: one constructor per row of spec/opcode_table.json (30_encoding.md R81, R85, R90). -/

namespace Sys2Proof

/-- The command words a host writes to `CMD` (R81, R85) and the packets that a control byte of a PackBits stream selects
(R90). A command word carries no operand (R84); the illegal row carries the word itself, which `CMD` reads back (R28). -/
inductive Instr
  /-- `NOP`, 0x00000000 (R180). -/
  | nop
  /-- `COPY`, 0x00000010 (R120). -/
  | copy
  /-- `RLE_DECODE`, 0x00000011 (R121). -/
  | rleDecode
  /-- `SKIP`, 0x00000012 (R122). -/
  | skip
  /-- `RLE_SKIP`, 0x00000013 (R123). -/
  | rleSkip
  /-- `TRANSPOSE_ROW`, 0x00000020 (R147). -/
  | transposeRow
  /-- `ANIMATE`, 0x00000030 (R168). -/
  | animate
  /-- `ANIMATE_BLEND`, 0x00000031 (R169). -/
  | animateBlend
  /-- `ILLEGAL`: any other word (R85, R181). -/
  | illegal (w : Word)
  /-- `LITERAL`, control byte 0x00 to 0x7F with count `c` in 0..127 (R114). -/
  | literal (c : Nat)
  /-- `NOOP`, control byte 0x80 (R116). -/
  | noop
  /-- `REPEAT`, control byte 0x81 to 0xFF with count `c` in -127..-1 (R115). -/
  | repeatRun (c : Int)
deriving DecidableEq, Repr

end Sys2Proof
end

