-- ==== Sys2Proof/WellFormed.lean ====
section
/-! DEFINITION. Which terms of `Instr` stand for words of the spec. -/

namespace Sys2Proof

/-- The eight legal command words (30_encoding.md R81). -/
def legalWords : List Word := [0x00, 0x10, 0x11, 0x12, 0x13, 0x20, 0x30, 0x31]

/-- An illegal row's word is none of the eight (R85); a literal count is 0..127 and a repeat count -127..-1 (R90). -/
def Instr.wellFormed : Instr → Bool
  | .nop => true
  | .copy => true
  | .rleDecode => true
  | .skip => true
  | .rleSkip => true
  | .transposeRow => true
  | .animate => true
  | .animateBlend => true
  | .illegal w => !legalWords.contains w
  | .literal c => decide (c ≤ 127)
  | .noop => true
  | .repeatRun c => decide (-127 ≤ c) && decide (c ≤ -1)

end Sys2Proof
end

