-- ==== Sys2Proof/Decode.lean ====
section
/-! DEFINITION. The decoder, total on every 32-bit word and every control byte (30_encoding.md R83, R92), and after it the
encoder, written from the tables of R81 and R90. -/

namespace Sys2Proof

/-- `RSVD`, bits 31:8 (R80). -/
def rsvdField (w : Word) : BitVec 24 := w.extractLsb' 8 24

/-- `UNIT`, bits 7:4 (R80). -/
def unitField (w : Word) : BitVec 4 := w.extractLsb' 4 4

/-- `FUNC`, bits 3:0 (R80). -/
def funcField (w : Word) : BitVec 4 := w.extractLsb' 0 4

/-- The command a word written to `CMD` selects (R81, R83, R85). -/
def decodeCommand (w : Word) : Instr :=
  if rsvdField w = 0 then
    match (unitField w).toNat, (funcField w).toNat with
    | 0, 0 => .nop
    | 1, 0 => .copy
    | 1, 1 => .rleDecode
    | 1, 2 => .skip
    | 1, 3 => .rleSkip
    | 2, 0 => .transposeRow
    | 3, 0 => .animate
    | 3, 1 => .animateBlend
    | _, _ => .illegal w
  else .illegal w

/-- The packet a control byte selects: `c = sext8(b)` (R90). Every byte is in exactly one class (R92). -/
def decodeControl (b : Byte) : Instr :=
  if 0 ≤ b.toInt then .literal b.toInt.toNat
  else if -127 ≤ b.toInt then .repeatRun b.toInt
  else .noop

/-- Why a row of the table cannot be read. -/
inductive DecodeReject
  /-- There are 32-bit command words and 8-bit control bytes and nothing else (R80, R90). -/
  | noSuchWidth (nbits : Nat)
deriving DecidableEq, Repr

/-- The instruction in `nbits` bits of `w`: a command word (R80) or a control byte (R90). -/
def decodeBits (nbits w : Nat) : Except DecodeReject Instr :=
  if nbits = 32 then .ok (decodeCommand (BitVec.ofNat 32 w))
  else if nbits = 8 then .ok (decodeControl (BitVec.ofNat 8 w))
  else .error (.noSuchWidth nbits)

/-- The host's entry to the decoder: the instruction whose bits, as spec/opcode_table.json numbers them, are `w`. -/
def decodeTableWord (nbits w : Nat) : Option Instr :=
  (decodeBits nbits w).toOption

/-! ## The encoder -/

/-- How many bits an instruction has: a command word 32 (R80), a control byte 8 (R90). -/
def Instr.bits : Instr → Nat
  | .nop => 32
  | .copy => 32
  | .rleDecode => 32
  | .skip => 32
  | .rleSkip => 32
  | .transposeRow => 32
  | .animate => 32
  | .animateBlend => 32
  | .illegal _ => 32
  | .literal _ => 8
  | .noop => 8
  | .repeatRun _ => 8

/-- The word of a well-formed instruction (R81; R90 and R98 for the control bytes: `c` and `(1 - n) mod 256`). -/
def encode : Instr → Nat
  | .nop => 0x00000000
  | .copy => 0x00000010
  | .rleDecode => 0x00000011
  | .skip => 0x00000012
  | .rleSkip => 0x00000013
  | .transposeRow => 0x00000020
  | .animate => 0x00000030
  | .animateBlend => 0x00000031
  | .illegal w => w.toNat
  | .literal c => c
  | .noop => 0x80
  | .repeatRun c => (256 + c).toNat

/-- The 32-bit word that a host writes to `CMD` to issue a command (R81). -/
def commandWord (i : Instr) : Word := BitVec.ofNat 32 (encode i)

end Sys2Proof
end

