-- ==== Sys2Proof/Config.lean ====
section
/-! DEFINITION. What an implementation fixes (00_scope.md R5), what the platform fixes (R6), and the free values: constants
without a body, of which no proof can see anything. -/

namespace Sys2Proof

/-- `MAX_DEPTH` (R5). -/
def Config.maxDepth : Nat := 8

/-- `MAX_COLORS` (R5). -/
def Config.maxColors : Nat := 256

/-- `MAX_RANGES` (R5). -/
def Config.maxRanges : Nat := 16

/-- `GROUP`, in pixels (R5). -/
def Config.groupPixels : Nat := 16

/-- `WINDOW`, in bytes (R5). -/
def Config.windowBytes : Nat := 0x1000

/-- The two kinds of engine access to system memory (R8). -/
inductive Access
  | read
  | write
deriving DecidableEq, Repr

/-- Addresses at which the platform answers engine accesses of the marked kinds with a bus error. A list of regions can say
every predicate `BusError : addr -> access -> Bool` on 2^32 addresses (R6, D31). -/
structure BusErrorRegion where
  first   : Nat
  size    : Nat
  onRead  : Bool
  onWrite : Bool
deriving DecidableEq, Repr

/-- The open parameters of R6 that the platform fixes: plain data that no step changes (log 5). -/
structure Platform where
  /-- `BLOCK_BASE`: the system address of register offset 0 (D4). -/
  blockBase : Word
  /-- `IRQ_LINE`: the processor input that the interrupt output is wired to (D30). -/
  irqLine   : Nat
  /-- `BusError` (D31). -/
  busErrors : List BusErrorRegion
deriving DecidableEq, Repr

/-- FREE VALUE (log 4): the colour that a never written palette entry shows, for the number of the draw and the entry
(10_state.md R46, R47; 70_reset_and_hazards.md R245). -/
opaque Config.freeColour : Nat → Nat → Colour

/-- FREE VALUE (log 4): the draw between an old and a new value, for the number of the draw and the byte address or table entry
(R49, R231, R241). -/
opaque Config.freeBit : Nat → Nat → Bool

end Sys2Proof
end

