-- ==== Sys2Proof/Machine/State.lean ====
section
/-! DEFINITION. The state of the block (10_state.md R21, R22, R51), of the system memory it reaches (20_memory.md R60), of the
platform (00_scope.md R6) and of what the outside world does next; the reasons a step can stop; the state after reset. -/

namespace Sys2Proof.Machine

/-- System memory: pairs of an address and a byte, addresses strictly rising, no byte equal to what an unlisted address reads
as (R60, log 2). -/
abbrev Memory := List Host.Cell

/-- `STATUS` without `BUSY`, which is a view of the engine (R26). -/
structure Status where
  done : Bool
  err  : Bool
  drop : Bool
deriving DecidableEq, Repr

/-- One colour range: `RANGE_BOUNDS[k]` (R44) and `RANGE_RATE[k]` (R45). -/
structure ColourRange where
  low  : Byte
  high : Byte
  rev  : Bool
  rate : Half
deriving DecidableEq, Repr

/-- The parameter registers a host writes (R32 to R45). A field is as wide as the fields of R22; reserved bits are not held. -/
structure Params where
  srcAddr   : Word
  srcLen    : Word
  dstAddr   : Word
  dstLen    : Word
  tpSrc     : Word
  tpWidth   : Half
  tpDepth   : BitVec 4
  tpDst     : Word
  tpPstride : Word
  nColors   : BitVec 9
  nRanges   : BitVec 5
  elapsed   : Word
  ranges    : Vector ColourRange 16
deriving DecidableEq, Repr

/-- A palette table (R46, R47): its colours, and which of its entries have been written since power-on (R245, log 3). -/
structure Palette where
  colours : Vector Colour 256
  written : Vector Bool 256
deriving DecidableEq, Repr

/-- The operands a command latches at issue (R51): the parameter registers, and for the animator `BASE_PAL[0..N-1]` (R160). -/
structure Operands where
  params  : Params
  basePal : List Colour
deriving DecidableEq, Repr

/-- What a codec command is in the middle of, between two of its accesses (20_memory.md R64; 40_codec.md R114, R115, R120). `more`
counts the bytes of the run after the one being moved. -/
inductive Run
  /-- Between two packets, or nothing left to move. -/
  | none
  /-- Copying bytes: `held` is a byte that has been read and not yet written. -/
  | copying (more : Nat) (held : Option Byte)
  /-- A `REPEAT` whose data byte is still to be read. -/
  | fetching (more : Nat)
  /-- A `REPEAT` that is writing its data byte. -/
  | filling (more : Nat) (v : Byte)
deriving DecidableEq, Repr

/-- The hidden cursors of a running command (R51). -/
structure Cursor where
  /-- The checks that precede every access (R202 (1) to (6)) have passed. -/
  started  : Bool
  /-- `s` of the codec (R110), the bytes read by the transpose (R147). -/
  consumed : Nat
  /-- `d` of the codec (R110), the bytes written by the transpose (R147), the colours produced by the animator (R168). -/
  produced : Nat
  /-- Where in a run of the codec it is (R114, R115, R120). -/
  run      : Run
  /-- `g` of the transpose. -/
  group    : Nat
  /-- `px[0..i-1]` of the group (R147). -/
  pixels   : List Byte
  /-- The plane bytes of the group that are still to be written, in order (R146, R147). -/
  stores   : List Host.Cell
  /-- `k` of the animator. -/
  rangeIx  : Nat
  /-- `i` of the animator. -/
  entryIx  : Nat
  /-- `T` of the animator (R168). -/
  table    : List Colour
deriving DecidableEq, Repr

/-- The running command: the latched word and operands, the cursors (R51), and what `CTRL` shows meanwhile (R49). The last three
fields are the model's own: what it takes to give each raced byte its draw (70_reset_and_hazards.md R241, R231, log 6). -/
structure Running where
  word     : Word
  ops      : Operands
  cur      : Cursor
  /-- `CTRL.IE` from before the command: what a read of `CTRL` shows while it runs (R49). -/
  ieBefore : Bool
  /-- What a byte of a write window holds if the engine's write of it does not show: system memory at issue, and after it the
  host's own writes. -/
  before   : Memory
  /-- Bytes of the read windows that the engine still sees with an older value. -/
  stale    : List Host.Cell
  /-- Addresses whose later engine write is lost to a host write. -/
  shielded : List Nat
deriving DecidableEq, Repr

/-- `phase`, with what a Busy engine holds (R50, R51). -/
inductive Engine
  | idle
  | busy (r : Running)
deriving DecidableEq, Repr

/-- How far the engine moves in one step (`LATENCY`, R6, R247, log 1). -/
inductive Grant
  /-- At most one memory access (20_memory.md R64): the checks, one byte read or written, one table entry, or the completion. -/
  | access
  /-- One packet, where a walk is about to read a control byte; elsewhere as `access`. -/
  | packet
  /-- All that is left of the command, completion included. -/
  | all
deriving DecidableEq, Repr

/-- What happens in one step (R20). Addresses are system addresses, widths are in bytes. -/
inductive Event
  /-- The engine moves. -/
  | engine (g : Grant)
  /-- A host write on the register bus (R23). -/
  | hostWrite (addr : Word) (width : Nat) (v : Word)
  /-- A host read on the register bus (R23). -/
  | hostRead (addr : Word) (width : Nat)
  /-- A host write on the register bus in the same step as an engine move (R26, R208). -/
  | sameStep (addr : Word) (width : Nat) (v : Word) (g : Grant)
  /-- A host write of one byte of system memory (R60), whatever the address (log 27). -/
  | memWrite (addr : Word) (v : Byte)
  /-- A host read of one byte of system memory (R60), whatever the address (log 27). -/
  | memRead (addr : Word)
  /-- Power-on reset (R230). -/
  | powerOn
deriving DecidableEq, Repr

/-- The machine. `ID` is hard-wired (R24) and `BUSY` and the interrupt output are views (R26, R52). -/
structure State where
  /-- `CTRL.IE` (R25). -/
  ie        : Bool
  /-- `STATUS.DONE`, `STATUS.ERR`, `STATUS.DROP` (R26). -/
  status    : Status
  /-- `ERRCODE.CODE` (R27). -/
  errCode   : BitVec 8
  /-- `CMD` (R28). -/
  cmd       : Word
  /-- `RESULT` (R29). -/
  result    : Word
  /-- `OUTCOUNT` (R30). -/
  outCount  : Word
  /-- `FAULT_ADDR` (R31). -/
  faultAddr : Word
  /-- The parameter registers (R32 to R45). -/
  params    : Params
  /-- `BASE_PAL` (R46). -/
  basePal   : Palette
  /-- `OUT_PAL` (R47). -/
  outPal    : Palette
  /-- `phase` and the hidden state of the running command (R50, R51). -/
  engine    : Engine
  /-- System memory (R60). -/
  mem       : Memory
  /-- The open parameters the platform fixes (R6). -/
  platform  : Platform
  /-- MODEL's own: what happens next, oldest first (log 1). -/
  inputs    : List Event
  /-- MODEL's own: what the last host read was answered (log 15). -/
  lastRead  : Option Word
  /-- MODEL's own: the number of the next free value (log 4). -/
  draws     : Nat
deriving DecidableEq, Repr

/-- The machine stops with a fault. -/
inductive Fault
  /-- Raised by the meanings of `LITERAL`, `REPEAT` and `NOOP` in a state in which no byte-run walk is about to read a control
  byte: R117 gives a packet a meaning only there. No step raises it. Safe (log 11). -/
  | packetOutsideWalk
  /-- Raised by the meanings of `ANIMATE` and `ANIMATE_BLEND`, and by an engine move of one, where the engine reads an entry of `BASE_PAL`
  that nothing has written since power-on: "A model treats such a read as reading an unwritten register (a fault)"
  (70_reset_and_hazards.md R245, 93_implementation_defined.md). Safe (log 3). -/
  | unwrittenBasePal
deriving DecidableEq, Repr

/-- The model does not accept what it is given. -/
inductive Refusal
  /-- Raised by the dispatcher for an instruction that has no meaning yet. Safe. -/
  | notModelled (mnemonic : String)
  /-- Raised by a host access to the register window that is not 32 bits wide or not at a multiple of 4: "a model refuses it"
  (R23). Safe. -/
  | unsupportedAccess
deriving DecidableEq, Repr

/-- Every parameter register at the reset value of R22. -/
def Params.reset : Params where
  srcAddr   := 0
  srcLen    := 0
  dstAddr   := 0
  dstLen    := 0
  tpSrc     := 0
  tpWidth   := 0
  tpDepth   := 0
  tpDst     := 0
  tpPstride := 0
  nColors   := 0
  nRanges   := 0
  elapsed   := 0
  ranges    := Vector.replicate 16 ⟨0, 0, false, 0⟩

/-- A palette after power-on: no entry written (R46, R47). DESIGN CHOICE, unsafe (log 3): the field holds 0, which no read of an
unwritten entry shows: a host read gives a free value, an engine read is a fault. -/
def Palette.reset : Palette where
  colours := Vector.replicate 256 0
  written := Vector.replicate 256 false

/-- The cursors at issue (R110, R147, R168). -/
def Cursor.fresh : Cursor where
  started  := false
  consumed := 0
  produced := 0
  run      := .none
  group    := 0
  pixels   := []
  stores   := []
  rangeIx  := 0
  entryIx  := 0
  table    := []

/-- The platform's parameters of the state after reset. DESIGN CHOICE, unsafe (log 5): the spec leaves them open. -/
def Platform.reset : Platform where
  blockBase := 0
  irqLine   := 0
  busErrors := []

/-- Power-on reset (R230). The model's own fields, the platform and the empty memory are DESIGN CHOICE (logs 1, 2, 4, 5, 15). -/
def State.reset : State where
  ie        := false
  status    := ⟨false, false, false⟩
  errCode   := 0
  cmd       := 0
  result    := 0
  outCount  := 0
  faultAddr := 0
  params    := Params.reset
  basePal   := Palette.reset
  outPal    := Palette.reset
  engine    := .idle
  mem       := []
  platform  := Platform.reset
  inputs    := []
  lastRead  := none
  draws     := 0

end Sys2Proof.Machine
end

