-- ==== Sys2Proof/Machine/Flags.lean ====
section
/-! DEFINITION. The error codes and every flag computation: `ERRCODE` (60_exceptions.md R200), the bits of `STATUS`
(10_state.md R26), `CTRL` (R25) and the interrupt output (R52). -/

namespace Sys2Proof.Machine

/-- The errors that a command's checks find (R200), in the order of their codes. -/
inductive CheckError
  | illegal
  | arg
  | addr
  | overlap
  | srcOverrun
  | overshoot
  | range
deriving DecidableEq, Repr

/-- How a command ends (R203): with success, with an error a check found, or with a bus error at an address (R125, R151). -/
inductive Ending
  | success
  | failure (e : CheckError)
  | busError (addr : Nat)
deriving DecidableEq, Repr

/-- The error codes of R200. -/
def CheckError.code : CheckError → BitVec 8
  | .illegal    => 0x01
  | .arg        => 0x02
  | .addr       => 0x03
  | .overlap    => 0x04
  | .srcOverrun => 0x05
  | .overshoot  => 0x06
  | .range      => 0x07

/-- The value `ERRCODE.CODE` gets (R200). -/
def Ending.code : Ending → BitVec 8
  | .success    => 0x00
  | .failure e  => e.code
  | .busError _ => 0x08

/-- `FAULT_ADDR` after an ending: only a bus error writes it (R31). -/
def Ending.faultAddr (e : Ending) (old : Word) : Word :=
  match e with
  | .success    => old
  | .failure _  => old
  | .busError a => BitVec.ofNat 32 a

/-- `STATUS` after a completion: `DONE` set, `ERR` set by a code that is not 0 and otherwise kept (R26, R203). -/
def Status.completed (st : Status) (e : Ending) : Status :=
  { st with done := true, err := st.err || e.code != 0 }

/-- `STATUS` after a command is accepted: `DONE` cleared, nothing else (R201). -/
def Status.accepted (st : Status) : Status :=
  { st with done := false }

/-- `STATUS` after a write is dropped (R48). -/
def Status.dropped (st : Status) : Status :=
  { st with drop := true }

/-- `STATUS` after a host write of `v`: a 1 clears `DONE`, `ERR` or `DROP`, a 0 leaves it (R26). -/
def Status.cleared (st : Status) (v : Word) : Status where
  done := st.done && !v.getLsbD 1
  err  := st.err && !v.getLsbD 2
  drop := st.drop && !v.getLsbD 3

/-- `phase = Busy` (R50). -/
def State.isBusy (s : State) : Bool :=
  match s.engine with
  | .idle   => false
  | .busy _ => true

/-- `STATUS` as the host reads it: BUSY, DONE, ERR, DROP in bits 0 to 3 (R26). -/
def statusWord (s : State) : Word :=
  (BitVec.ofBool s.status.drop ++ BitVec.ofBool s.status.err ++ BitVec.ofBool s.status.done ++
    BitVec.ofBool s.isBusy).setWidth 32

/-- `CTRL.IE` as the host reads it: while a command runs, its value from before the command (R49). -/
def State.ieShown (s : State) : Bool :=
  match s.engine with
  | .idle   => s.ie
  | .busy r => r.ieBefore

/-- `CTRL` as the host reads it: IE in bit 0, SRST reads 0 (R25). -/
def ctrlWord (s : State) : Word :=
  (BitVec.ofBool s.ieShown).setWidth 32

/-- The level of the interrupt output: `CTRL.IE & (STATUS.DONE | STATUS.ERR)` (R52, R207). -/
def irqLevel (s : State) : Bool :=
  s.ie && (s.status.done || s.status.err)

/-- The level on a processor's interrupt input `n`: the platform wires the output to `IRQ_LINE` (R6, R207). -/
def irqInput (s : State) (n : Nat) : Bool :=
  decide (n = s.platform.irqLine) && irqLevel s

end Sys2Proof.Machine
end

