-- ==== Sys2Proof/Machine/Operands.lean ====
section
/-! DEFINITION. Every operand form: the latched operands as numbers (40_codec.md R110, 41_transpose.md R140, R141,
42_animator.md R160), the windows they name, and the checks that precede every access (60_exceptions.md R202). -/

namespace Sys2Proof.Machine

/-- A table of `n` values, one for each index. -/
def tabulate {α : Type} (n : Nat) (f : Nat → α) : Vector α n :=
  ⟨((List.range n).map f).toArray, by simp⟩

/-! ## The codec (R110) -/

/-- `SA`. -/
def Operands.srcBase (o : Operands) : Nat := o.params.srcAddr.toNat

/-- `SL`. -/
def Operands.srcLen (o : Operands) : Nat := o.params.srcLen.toNat

/-- `DA`. -/
def Operands.dstBase (o : Operands) : Nat := o.params.dstAddr.toNat

/-- `DL`. -/
def Operands.dstLen (o : Operands) : Nat := o.params.dstLen.toNat

/-! ## The transpose (R140, R141) -/

/-- `S`. -/
def Operands.pixelBase (o : Operands) : Nat := o.params.tpSrc.toNat

/-- `W`. -/
def Operands.width (o : Operands) : Nat := o.params.tpWidth.toNat

/-- `D`. -/
def Operands.depth (o : Operands) : Nat := o.params.tpDepth.toNat

/-- `P0`. -/
def Operands.planeBase (o : Operands) : Nat := o.params.tpDst.toNat

/-- `PS`. -/
def Operands.planeStride (o : Operands) : Nat := o.params.tpPstride.toNat

/-- `G = ceil(W / 16)`. -/
def Operands.groups (o : Operands) : Nat := (o.width + 15) / 16

/-- `B = 2 * G`, the source's `bytesPerRow` (R11, R141). -/
def Operands.rowBytes (o : Operands) : Nat := 2 * o.groups

/-- The first byte of plane `p`'s row (R141). -/
def Operands.planeRow (o : Operands) (p : Nat) : Nat := o.planeBase + p * o.planeStride

/-! ## The animator (R160) -/

/-- `N`. -/
def Operands.nColors (o : Operands) : Nat := o.params.nColors.toNat

/-- `R`. -/
def Operands.nRanges (o : Operands) : Nat := o.params.nRanges.toNat

/-- Entry `k` of the range table. -/
def Operands.range (o : Operands) (k : Nat) : ColourRange :=
  o.params.ranges[k]?.getD ⟨0, 0, false, 0⟩

/-- `n_k = hi_k - lo_k + 1`, at least 1 after the check of R162 (R164). -/
def ColourRange.count (r : ColourRange) : Nat := r.high.toNat + 1 - r.low.toNat

/-! ## Windows and checks -/

/-- The windows `[a, a + n)` and `[b, b + m)` share a byte (R112, R145). -/
def windowsShare (a n b m : Nat) : Bool :=
  decide (0 < n) && decide (0 < m) && decide (a < b + m) && decide (b < a + n)

/-- `[a, a + n)` crosses the top of the 32-bit address space (20_memory.md R67). -/
def windowWraps (a n : Nat) : Bool :=
  decide (2 ^ 32 < a + n)

/-- The pre-checks of a codec command that has a destination window (R112). -/
def moveCheck (o : Operands) : Option CheckError :=
  if windowWraps o.srcBase o.srcLen || windowWraps o.dstBase o.dstLen then some .addr
  else if windowsShare o.srcBase o.srcLen o.dstBase o.dstLen then some .overlap
  else none

/-- The pre-check of a codec command that has none (R112). -/
def skipCheck (o : Operands) : Option CheckError :=
  if windowWraps o.srcBase o.srcLen then some .addr else none

/-- The up-front length check of `COPY` and `SKIP` (R120, R122). -/
def lengthCheck (o : Operands) : Option CheckError :=
  if o.srcLen < o.dstLen then some .srcOverrun else none

/-- The checks of `TRANSPOSE_ROW` (R142, R145). -/
def transposeCheck (o : Operands) : Option CheckError :=
  if o.depth < 1 || Config.maxDepth < o.depth then some .arg
  else if windowWraps o.pixelBase o.width ||
      (List.range o.depth).any (fun p => windowWraps (o.planeRow p) o.rowBytes) then some .addr
  else if (List.range o.depth).any
      (fun p => windowsShare o.pixelBase o.width (o.planeRow p) o.rowBytes) then some .overlap
  else if 1 < o.depth && 0 < o.rowBytes && o.planeStride < o.rowBytes then some .overlap
  else none

/-- `lo_k ≤ hi_k < N` (R162). -/
def rangeFits (o : Operands) (r : ColourRange) : Bool :=
  decide (r.low.toNat ≤ r.high.toNat) && decide (r.high.toNat < o.nColors)

/-- The checks of `ANIMATE` and `ANIMATE_BLEND` (R161, R162). -/
def animateCheck (o : Operands) : Option CheckError :=
  if Config.maxColors < o.nColors || Config.maxRanges < o.nRanges then some .arg
  else if (List.range o.nRanges).all (fun k => rangeFits o (o.range k)) then none
  else some .range

end Sys2Proof.Machine
end

