-- ==== Sys2Proof/Machine/Ops.lean ====
section
/-! DEFINITION. The named operations over memory, tables and registers that every meaning is written with: system memory
(20_memory.md), the engine's view of it, issue (60_exceptions.md R201), completion (R203), the host's acknowledgement (R209),
and the one loop that runs a command unit by unit. -/

namespace Sys2Proof.Machine

/-! ## System memory -/

/-- What an address that nothing has written reads as. DESIGN CHOICE, unsafe (log 2). -/
def Memory.blank : Byte := 0

/-- One byte of system memory (R60). -/
def Memory.read : Memory → Nat → Byte
  | [], _ => Memory.blank
  | (b, w) :: m, a => if a = b then w else Memory.read m a

/-- Memory after a write of one byte, in canonical form again. -/
def Memory.write : Memory → Nat → Byte → Memory
  | [], a, v => if v = Memory.blank then [] else [(a, v)]
  | (b, w) :: m, a, v =>
    if a < b then (if v = Memory.blank then (b, w) :: m else (a, v) :: (b, w) :: m)
    else if a = b then (if v = Memory.blank then m else (a, v) :: m)
    else (b, w) :: Memory.write m a v

/-- Canonical form from address `lo` on. -/
def Memory.wfFrom : Nat → Memory → Bool
  | _, [] => true
  | lo, (a, v) :: m => decide (lo ≤ a) && decide (a < 2 ^ 32) && (v != Memory.blank) && Memory.wfFrom (a + 1) m

/-- Canonical form: addresses strictly rising and below 2^32, no byte equal to `blank`. -/
def Memory.wf (m : Memory) : Bool := Memory.wfFrom 0 m

/-! ## Palettes -/

/-- Entry `i` of a palette: an entry that nothing has written since power-on shows a free value (R46, R47, R245, log 3). -/
def Palette.get (p : Palette) (draw i : Nat) : Colour :=
  if p.written[i]?.getD false then p.colours[i]?.getD 0 else Config.freeColour draw i

/-- Write entry `i` of a palette. -/
def Palette.set (p : Palette) (i : Nat) (c : Colour) : Palette where
  colours := p.colours.setIfInBounds i c
  written := p.written.setIfInBounds i true

/-- Entry `i` of palette `q` for every `i` that `pick` marks, entry `i` of `p` for the others. -/
def Palette.merge (p q : Palette) (pick : Nat → Bool) : Palette where
  colours := tabulate 256 fun i => if pick i then q.colours[i]?.getD 0 else p.colours[i]?.getD 0
  written := tabulate 256 fun i => if pick i then q.written[i]?.getD false else p.written[i]?.getD false

/-- A palette with its first entries replaced by a table (R168: `OUT_PAL[0..N-1] <- T[0..N-1]`). -/
def Palette.overlay (p : Palette) (t : List Colour) : Palette where
  colours := tabulate 256 fun i => if i < t.length then t.getD i 0 else p.colours[i]?.getD 0
  written := tabulate 256 fun i => if i < t.length then true else p.written[i]?.getD false

/-! ## The engine's accesses -/

/-- The platform answers the engine's access with a bus error (00_scope.md R6, D31). -/
def busError (p : Platform) (k : Access) (a : Nat) : Bool :=
  p.busErrors.any fun r =>
    (match k with
      | .read => r.onRead
      | .write => r.onWrite) && decide (r.first ≤ a) && decide (a < r.first + r.size)

/-- What the engine's accesses meet besides memory itself: the platform, and the raced bytes of R241 (log 6). -/
structure BusView where
  platform : Platform
  stale    : List Host.Cell
  shielded : List Nat
deriving DecidableEq, Repr

/-- The byte the engine sees at an address, apart from a bus error. -/
def BusView.seen (v : BusView) (m : Memory) (a : Nat) : Byte :=
  match v.stale.lookup a with
  | some b => b
  | none   => Memory.read m a

/-- `MemRead(a, 1)` (R8): `none` is a bus error. -/
def BusView.read (v : BusView) (m : Memory) (a : Nat) : Option Byte :=
  if busError v.platform .read a then none else some (v.seen m a)

/-- `MemWrite(a, 1, b)` (R8): `none` is a bus error. -/
def BusView.write (v : BusView) (m : Memory) (a : Nat) (b : Byte) : Option Memory :=
  if busError v.platform .write a then none
  else some (if v.shielded.contains a then m else Memory.write m a b)

/-- What a command computes from: its latched operands (R51) and its view of the bus. -/
structure Ctx where
  ops  : Operands
  view : BusView
deriving DecidableEq, Repr

/-- What a command changes while it runs: memory and its cursors. -/
structure Prog where
  mem : Memory
  cur : Cursor
deriving DecidableEq, Repr

/-- One source byte more has been read. -/
def Prog.took (p : Prog) : Prog :=
  { p with cur := { p.cur with consumed := p.cur.consumed + 1 } }

/-- One byte more has been written, and memory is now `m`. -/
def Prog.stored (p : Prog) (m : Memory) : Prog where
  mem := m
  cur := { p.cur with produced := p.cur.produced + 1 }

/-- A part of a command either leaves more to do or ends the command. -/
inductive UnitResult
  | more (p : Prog)
  | done (p : Prog) (e : Ending)
deriving DecidableEq, Repr

/-- At most `n` parts of a command, one after another, until one ends it (R66: in the order written). -/
def iterate (f : Prog → UnitResult) : Nat → Prog → UnitResult
  | 0, p => .more p
  | n + 1, p =>
    match f p with
    | .more q   => iterate f n q
    | .done q e => .done q e

/-- Read the next source byte, at `a` (R125: a read that fails is not counted). -/
def takeByte (v : BusView) (a : Nat) (p : Prog) (k : Byte → Prog → UnitResult) : UnitResult :=
  match v.read p.mem a with
  | none   => .done p (.busError a)
  | some b => k b p.took

/-- Write the next output byte, at `a` (R125: a write that fails is not counted). -/
def putByte (v : BusView) (a : Nat) (b : Byte) (p : Prog) : UnitResult :=
  match v.write p.mem a b with
  | none   => .done p (.busError a)
  | some m => .more (p.stored m)

/-! ## Issue, completion, acknowledgement -/

/-- A word that selects the animator, which alone reads `BASE_PAL` (R46). -/
def isAnimator (w : Word) : Bool :=
  decide (decodeCommand w = .animate) || decide (decodeCommand w = .animateBlend)

/-- The operands latched at issue (R51, R110, R140, R160). An entry of `BASE_PAL` that nothing has written latches an unspecified value
(R245); the engine's read of it is a fault, once its checks have passed (log 3). -/
def latch (w : Word) (s : State) : Operands where
  params  := s.params
  basePal :=
    if isAnimator w then
      (List.range (min s.params.nColors.toNat Config.maxColors)).map (s.basePal.get s.draws)
    else []

/-- A command at the moment it is accepted (R51). -/
def Running.fresh (w : Word) (s : State) : Running where
  word     := w
  ops      := latch w s
  cur      := Cursor.fresh
  ieBefore := s.ie
  before   := s.mem
  stale    := []
  shielded := []

/-- Command issue (R201): `CMD <- w`, `STATUS.DONE <- 0`, `phase <- Busy`, operands latched, nothing else. -/
def issue (w : Word) (s : State) : State :=
  { s with
    cmd    := w
    status := s.status.accepted
    engine := .busy (Running.fresh w s)
    draws  := s.draws + 1 }

/-- The state a command word runs from: an Idle engine accepts it (R201), a Busy one has a command (log 13). -/
def accept (w : Word) (s : State) : State :=
  match s.engine with
  | .idle   => issue w s
  | .busy _ => s

/-- Completion, `finish(code)` (R203): all registers in one step. `RESULT` and `OUTCOUNT` are the cursors where the command ended
(R124, R151, R168). -/
def finish (e : Ending) (c : Cursor) (s : State) : State :=
  { s with
    result    := BitVec.ofNat 32 c.consumed
    outCount  := BitVec.ofNat 32 c.produced
    faultAddr := e.faultAddr s.faultAddr
    errCode   := e.code
    status    := s.status.completed e
    engine    := .idle }

/-- The host acknowledges a completion by a write of `v` to `STATUS` (R26, R209). -/
def acknowledge (v : Word) (s : State) : State :=
  { s with status := s.status.cleared v }

/-! ## Running a command -/

/-- What the rule of a command gives. -/
structure Command where
  /-- The checks before every access (R202 (1) to (6)), first failing check first. -/
  check     : Operands → Option CheckError
  /-- The cursors once the checks have passed. -/
  enter     : Operands → Cursor → Cursor
  /-- One unit of the command's pseudocode: at most one memory access (20_memory.md R64). -/
  work      : Ctx → Prog → UnitResult
  /-- A bound on the units left (70_reset_and_hazards.md R248). -/
  bound     : Operands → Cursor → Nat
  /-- The registers that a success writes besides those of R203. -/
  onSuccess : Operands → Cursor → State → State

/-- One unit of a command: first its checks, then its work. -/
def Command.unit (c : Command) (x : Ctx) (p : Prog) : UnitResult :=
  if p.cur.started then c.work x p
  else
    match c.check x.ops with
    | some e => .done p (.failure e)
    | none   => .more { p with cur := { c.enter x.ops p.cur with started := true } }

/-- What the running command computes from. -/
def Running.ctx (r : Running) (s : State) : Ctx where
  ops  := r.ops
  view := ⟨s.platform, r.stale, r.shielded⟩

/-- The state after a part of the running command: more to do keeps the engine Busy, an ending completes it (R203). -/
def settle (onSuccess : Operands → Cursor → State → State) (r : Running) (s : State) : UnitResult → State
  | .more p   => { s with mem := p.mem, engine := .busy { r with cur := p.cur } }
  | .done p e =>
    finish e p.cur
      (match e with
        | .success    => onSuccess r.ops p.cur { s with mem := p.mem }
        | .failure _  => { s with mem := p.mem }
        | .busError _ => { s with mem := p.mem })

/-- The running command moves by at most `n` units. -/
def Command.move (c : Command) (n : Nat) (r : Running) (s : State) : State :=
  settle c.onSuccess r s (iterate (c.unit (r.ctx s)) n ⟨s.mem, r.cur⟩)

/-- The running command moves to its completion (R248: the bound, and one unit each for the checks and the completion). -/
def Command.complete (c : Command) (r : Running) (s : State) : State :=
  c.move (c.bound r.ops r.cur + 2) r s

/-- The meaning of a command word: an Idle engine accepts it (R201), and the engine runs it to its completion, from where it is
(log 13). -/
def Command.run (c : Command) (w : Word) (s : State) : State :=
  match s.engine with
  | .idle   => c.complete (Running.fresh w s) (issue w s)
  | .busy r => c.complete r s

/-- A success that writes no register besides those of R203. -/
def keepRegisters (_ : Operands) (_ : Cursor) (s : State) : State := s

/-- Cursors that a command's checks leave as they are. -/
def keepCursor (_ : Operands) (c : Cursor) : Cursor := c

end Sys2Proof.Machine
end

