-- ==== Sys2Proof/Machine/Animator.lean ====
section
/-! DEFINITION. The palette-cycle animation table generator (42_animator.md). -/

namespace Sys2Proof.Machine

/-! ## The arithmetic -/

/-- `scaled_k`, every value u32 with wrap-around (R163). -/
def scaledTicks (e : Word) (rate : Half) : Word :=
  (e >>> 16) * (rate.setWidth 32 <<< 2) + (((e &&& 0xFFFF) * rate.setWidth 32) >>> 14)

/-- `offset_k` (R164): inverted when `rev` is 0. -/
def cycleOffset (scaled : Word) (n : Nat) (rev : Bool) : Nat :=
  if rev then (scaled >>> 16).toNat % n else (n - (scaled >>> 16).toNat % n) % n

/-- `w_k = (scaled_k >> 8) & 0xFF` (R166). -/
def blendWeight (scaled : Word) : Nat :=
  ((scaled >>> 8) &&& 0xFF).toNat

/-- One channel: `(c0 * w0 + c1 * w1) >> 8` with `w0 = 0x100 - w`, `w1 = w` (R166, R167). -/
def blendChannel (c0 c1 : Byte) (w : Nat) : Byte :=
  BitVec.ofNat 8 ((c0.toNat * (0x100 - w) + c1.toNat * w) >>> 8)

/-- Red, bits 23:16 (R46). -/
def red (c : Colour) : Byte := c.extractLsb' 16 8

/-- Green, bits 15:8 (R46). -/
def green (c : Colour) : Byte := c.extractLsb' 8 8

/-- Blue, bits 7:0 (R46). -/
def blue (c : Colour) : Byte := c.extractLsb' 0 8

/-- The blend of two colours, channel by channel (R167). -/
def blend (c0 c1 : Colour) (w : Nat) : Colour :=
  blendChannel (red c0) (red c1) w ++ blendChannel (green c0) (green c1) w ++ blendChannel (blue c0) (blue c1) w

/-- The source's packed form: red and blue together, then green (R167). -/
def blendPacked (c0 c1 : Colour) (w : Nat) : Nat :=
  let rb := (((c0 &&& 0xFF00FF).toNat * (0x100 - w) + (c1 &&& 0xFF00FF).toNat * w) >>> 8) &&& 0xFF00FF
  let g := (((c0 &&& 0x00FF00).toNat * (0x100 - w) + (c1 &&& 0x00FF00).toNat * w) >>> 8) &&& 0x00FF00
  rb ||| g

/-! ## The table -/

/-- The base colour that entry `i` of a range takes without blending, as an index (R165). -/
def cycleIndex (r : ColourRange) (off i : Nat) : Nat :=
  r.low.toNat + (i + off) % r.count

/-- Its immediate predecessor in the range, as an index (R167). -/
def predecessorIndex (r : ColourRange) (off i : Nat) : Nat :=
  r.low.toNat + ((i + off) % r.count + r.count - 1) % r.count

/-- The colour of entry `low + i` by range `r` (R165, R167). -/
def rangeEntry (blended : Bool) (o : Operands) (r : ColourRange) (i : Nat) : Colour :=
  let scaled := scaledTicks o.params.elapsed r.rate
  let off := cycleOffset scaled r.count r.rev
  if blended then
    blend (o.basePal.getD (cycleIndex r off i) 0) (o.basePal.getD (predecessorIndex r off i) 0) (blendWeight scaled)
  else o.basePal.getD (cycleIndex r off i) 0

/-- `T[0..N-1] <- BASE_PAL[0..N-1]` (R168). -/
def startTable (o : Operands) (c : Cursor) : Cursor :=
  { c with table := o.basePal }

/-- One table entry, the step to the next range, or the end (R168, R169, R171). -/
def tableTurn (blended : Bool) (x : Ctx) (p : Prog) : UnitResult :=
  if p.cur.rangeIx < x.ops.nRanges then
    let r := x.ops.range p.cur.rangeIx
    if p.cur.entryIx < r.count then
      .more { p with
        cur :=
          { p.cur with
            entryIx := p.cur.entryIx + 1
            table   := p.cur.table.set (r.low.toNat + p.cur.entryIx) (rangeEntry blended x.ops r p.cur.entryIx) } }
    else .more { p with cur := { p.cur with rangeIx := p.cur.rangeIx + 1, entryIx := 0 } }
  else .done { p with cur := { p.cur with produced := x.ops.nColors } } .success

/-- `OUT_PAL[0..N-1] <- T[0..N-1]` (R168, R170, log 16). -/
def publishTable (_ : Operands) (c : Cursor) (s : State) : State :=
  { s with outPal := s.outPal.overlay c.table }

/-- The units left: at most 256 entries and one step for each range left (R248). -/
def tableBound (o : Operands) (c : Cursor) : Nat :=
  257 * (o.nRanges - c.rangeIx)

/-- `ANIMATE` (R168). -/
def animateCommand : Command where
  check     := animateCheck
  enter     := startTable
  work      := tableTurn false
  bound     := tableBound
  onSuccess := publishTable

/-- `ANIMATE_BLEND` (R169). -/
def animateBlendCommand : Command where
  check     := animateCheck
  enter     := startTable
  work      := tableTurn true
  bound     := tableBound
  onSuccess := publishTable

/-! ## Entries never written (R245) -/

/-- The running command is an animator that reads an entry of `BASE_PAL` which nothing has written since power-on: its checks pass, so it
reads `BASE_PAL[0..N-1]` (R168), and one of them is not written. `BASE_PAL` does not change while it runs (R48). -/
def State.readsUnwritten (s : State) : Bool :=
  match s.engine with
  | .idle   => false
  | .busy r =>
    isAnimator r.word && (animateCheck r.ops).isNone &&
      (List.range r.ops.nColors).any fun j => !(s.basePal.written[j]?.getD false)

/-- The engine moves from `s` to `t`, unless it reads an entry never written, which is a fault (R245, 93_implementation_defined.md). -/
def unlessUnwritten (s t : State) : Host.Outcome State Fault Refusal :=
  if s.readsUnwritten then .fault .unwrittenBasePal else .next t

/-- `ANIMATE` (R168). -/
def execAnimate (s : State) : Host.Outcome State Fault Refusal :=
  unlessUnwritten (accept (commandWord .animate) s) (animateCommand.run (commandWord .animate) s)

/-- `ANIMATE_BLEND` (R169). -/
def execAnimateBlend (s : State) : Host.Outcome State Fault Refusal :=
  unlessUnwritten (accept (commandWord .animateBlend) s) (animateBlendCommand.run (commandWord .animateBlend) s)

end Sys2Proof.Machine
end

