-- ==== Sys2Proof/Machine/Codec.lean ====
section
/-! DEFINITION. The PackBits run-length decompressor (40_codec.md): the packet classes, the walk of R117, and the four codec
commands. -/

namespace Sys2Proof.Machine

/-! ## Runs -/

/-- The run with `n` bytes still to come: nothing is left after the last. -/
def Run.next (run : Nat → Run) : Nat → Run
  | 0 => .none
  | n + 1 => run n

/-- How many accesses a run still makes. -/
def Run.accesses : Run → Nat
  | .none                  => 0
  | .copying more .none    => 2 * more + 2
  | .copying more (some _) => 2 * more + 1
  | .fetching more         => more + 2
  | .filling more _        => more + 1

/-- A command in the middle of another run. -/
def Prog.withRun (p : Prog) (r : Run) : Prog :=
  { p with cur := { p.cur with run := r } }

/-- One access of the run in progress: each data byte is read before the write it feeds, in ascending order (20_memory.md R66; R114,
R115, R120). -/
def runAccess (x : Ctx) (p : Prog) : UnitResult :=
  match p.cur.run with
  | .none                  => .more p
  | .copying more .none    =>
    takeByte x.view (x.ops.srcBase + p.cur.consumed) p fun b q => .more (q.withRun (.copying more (some b)))
  | .copying more (some b) =>
    putByte x.view (x.ops.dstBase + p.cur.produced) b (p.withRun (Run.next (fun n => .copying n none) more))
  | .fetching more         =>
    takeByte x.view (x.ops.srcBase + p.cur.consumed) p fun b q => .more (q.withRun (.filling more b))
  | .filling more b        =>
    putByte x.view (x.ops.dstBase + p.cur.produced) b (p.withRun (Run.next (fun n => .filling n b) more))

/-- All that is left of the run in progress. -/
def finishRun (x : Ctx) : UnitResult → UnitResult
  | .more p   => iterate (runAccess x) p.cur.run.accesses p
  | .done p e => .done p e

/-- Pass over `s` source bytes and count `d` output bytes, without an access (R114, R115, R122). -/
def passOver (s d : Nat) (p : Prog) : Prog :=
  { p with cur := { p.cur with consumed := p.cur.consumed + s, produced := p.cur.produced + d } }

/-! ## Packets (R114 to R119), each after its control byte has been consumed -/

/-- A run of `n` output bytes that needs `need` data bytes: overshoot first, then exhaustion (R118, R119). -/
def runCheck (o : Operands) (n need : Nat) (c : Cursor) : Option CheckError :=
  if o.dstLen - c.produced < n then some .overshoot
  else if o.srcLen - c.consumed < need then some .srcOverrun
  else none

/-- `LITERAL` with count `c`: `c + 1` bytes (R114). Decode begins to copy them, skip has passed over them. -/
def startLiteral (c : Nat) (write : Bool) (o : Operands) (p : Prog) : UnitResult :=
  match runCheck o (c + 1) (c + 1) p.cur with
  | some e => .done p (.failure e)
  | none   => if write then .more (p.withRun (.copying c none)) else .more (passOver (c + 1) (c + 1) p)

/-- `REPEAT` with count `c`: one byte, `1 - c` times (R115). Decode begins with the data byte, skip has passed over it. -/
def startRepeat (c : Int) (write : Bool) (o : Operands) (p : Prog) : UnitResult :=
  match runCheck o (1 - c).toNat 1 p.cur with
  | some e => .done p (.failure e)
  | none   => if write then .more (p.withRun (.fetching (-c).toNat)) else .more (passOver 1 (1 - c).toNat p)

/-- `NOOP`: nothing beyond its control byte (R116). -/
def startNoop (_write : Bool) (_ : Operands) (p : Prog) : UnitResult :=
  .more p

/-- The packet that a control byte selects. No control byte decodes to a command (R92). -/
def startPacket (i : Instr) (write : Bool) (o : Operands) (p : Prog) : UnitResult :=
  match i with
  | .literal c    => startLiteral c write o p
  | .repeatRun c  => startRepeat c write o p
  | .noop         => startNoop write o p
  | .nop          => .more p
  | .copy         => .more p
  | .rleDecode    => .more p
  | .skip         => .more p
  | .rleSkip      => .more p
  | .transposeRow => .more p
  | .animate      => .more p
  | .animateBlend => .more p
  | .illegal _    => .more p

/-! ## The walk (R117) -/

/-- One access of the walk. Between two packets `d = DL` ends it (R113), a missing control byte is `SRC_OVERRUN` (R119), else the
control byte is read. -/
def walkTurn (write : Bool) (x : Ctx) (p : Prog) : UnitResult :=
  if p.cur.run = .none then
    if p.cur.produced < x.ops.dstLen then
      if p.cur.consumed < x.ops.srcLen then
        takeByte x.view (x.ops.srcBase + p.cur.consumed) p fun b q => startPacket (decodeControl b) write x.ops q
      else .done p (.failure .srcOverrun)
    else .done p .success
  else runAccess x p

/-! ## What a success writes (R124) -/

/-- `SRC_ADDR <- SA + s`, `SRC_LEN <- SL - s` (R124). -/
def advanceSource (o : Operands) (c : Cursor) (s : State) : State :=
  { s with
    params :=
      { s.params with
        srcAddr := o.params.srcAddr + BitVec.ofNat 32 c.consumed
        srcLen  := o.params.srcLen - BitVec.ofNat 32 c.consumed } }

/-- The same, and `DST_ADDR <- DA + DL` (R124). -/
def advanceBoth (o : Operands) (c : Cursor) (s : State) : State :=
  { s with
    params :=
      { s.params with
        srcAddr := o.params.srcAddr + BitVec.ofNat 32 c.consumed
        srcLen  := o.params.srcLen - BitVec.ofNat 32 c.consumed
        dstAddr := o.params.dstAddr + o.params.dstLen } }

/-! ## The commands -/

/-- `COPY` is one run of `DL` bytes (R120). -/
def startCopy (o : Operands) (c : Cursor) : Cursor :=
  { c with run := Run.next (fun n => .copying n none) o.dstLen }

/-- One access of `COPY`, or its end (R120). -/
def copyTurn (x : Ctx) (p : Prog) : UnitResult :=
  if p.cur.run = .none then .done p .success else runAccess x p

/-- The units left of a walk: at most one control byte and 256 accesses for each source byte left, and the run in progress (R91,
70_reset_and_hazards.md R248). -/
def walkBound (o : Operands) (c : Cursor) : Nat :=
  258 * (o.srcLen - c.consumed) + c.run.accesses

/-- `s <- DL; d <- DL` (R122). -/
def skipTurn (x : Ctx) (p : Prog) : UnitResult :=
  .done { p with cur := { p.cur with consumed := x.ops.dstLen, produced := x.ops.dstLen } } .success

/-- `COPY` (R120). -/
def copyCommand : Command where
  check     := fun o => (moveCheck o).or (lengthCheck o)
  enter     := startCopy
  work      := copyTurn
  bound     := fun o c => 2 * o.dstLen + c.run.accesses
  onSuccess := advanceBoth

/-- `RLE_DECODE` (R121). -/
def rleDecodeCommand : Command where
  check     := moveCheck
  enter     := keepCursor
  work      := walkTurn true
  bound     := walkBound
  onSuccess := advanceBoth

/-- `SKIP` (R122). -/
def skipCommand : Command where
  check     := fun o => (skipCheck o).or (lengthCheck o)
  enter     := keepCursor
  work      := skipTurn
  bound     := fun _ _ => 0
  onSuccess := advanceSource

/-- `RLE_SKIP` (R123). -/
def rleSkipCommand : Command where
  check     := skipCheck
  enter     := keepCursor
  work      := walkTurn false
  bound     := walkBound
  onSuccess := advanceSource

/-- `COPY` (R120). -/
def execCopy (s : State) : Host.Outcome State Fault Refusal :=
  .next (copyCommand.run (commandWord .copy) s)

/-- `RLE_DECODE` (R121). -/
def execRleDecode (s : State) : Host.Outcome State Fault Refusal :=
  .next (rleDecodeCommand.run (commandWord .rleDecode) s)

/-- `SKIP` (R122). -/
def execSkip (s : State) : Host.Outcome State Fault Refusal :=
  .next (skipCommand.run (commandWord .skip) s)

/-- `RLE_SKIP` (R123). -/
def execRleSkip (s : State) : Host.Outcome State Fault Refusal :=
  .next (rleSkipCommand.run (commandWord .rleSkip) s)

/-! ## The packets as instructions -/

/-- The walk that a running command performs, if it is one: `some true` writes, `some false` skips (R117). -/
def walkOf (r : Running) : Option Bool :=
  if decodeCommand r.word = .rleDecode then some true
  else if decodeCommand r.word = .rleSkip then some false
  else none

/-- The running walk that is about to read a control byte: its checks have passed, no run is in progress, `d < DL` and `s < SL`
(R113, R117). -/
def walking (s : State) : Option (Running × Bool) :=
  match s.engine with
  | .idle   => none
  | .busy r =>
    match walkOf r with
    | none       => none
    | some write =>
      if r.cur.started && decide (r.cur.run = .none) && decide (r.cur.produced < r.ops.dstLen) &&
          decide (r.cur.consumed < r.ops.srcLen)
      then some (r, write)
      else none

/-- The control byte has been read and is consumed (R116), then the whole packet runs. A packet has no meaning outside a walk
(R117, log 11). -/
def execPacket (start : Bool → Operands → Prog → UnitResult) (s : State) : Host.Outcome State Fault Refusal :=
  match walking s with
  | none            => .fault .packetOutsideWalk
  | some (r, write) =>
    .next (settle keepRegisters r s (finishRun (r.ctx s) (start write r.ops (Prog.took ⟨s.mem, r.cur⟩))))

/-- `LITERAL` (R114). -/
def execLiteral (c : Nat) (s : State) : Host.Outcome State Fault Refusal :=
  execPacket (startLiteral c) s

/-- `REPEAT` (R115). -/
def execRepeat (c : Int) (s : State) : Host.Outcome State Fault Refusal :=
  execPacket (startRepeat c) s

/-- `NOOP` (R116). -/
def execNoop (s : State) : Host.Outcome State Fault Refusal :=
  execPacket startNoop s

end Sys2Proof.Machine
end

