-- ==== Sys2Proof/Machine/Control.lean ====
section
/-! DEFINITION. The control commands (43_control.md). -/

namespace Sys2Proof.Machine

/-- `NOP`: completes, `RESULT` and `OUTCOUNT` 0 (R180). -/
def nopCommand : Command where
  check     := fun _ => none
  enter     := keepCursor
  work      := fun _ p => .done p .success
  bound     := fun _ _ => 0
  onSuccess := keepRegisters

/-- An illegal word: completes with `ILLEGAL` (R181). -/
def illegalCommand : Command where
  check     := fun _ => some .illegal
  enter     := keepCursor
  work      := fun _ p => .done p (.failure .illegal)
  bound     := fun _ _ => 0
  onSuccess := keepRegisters

/-- `NOP` (R180). -/
def execNop (s : State) : Host.Outcome State Fault Refusal :=
  .next (nopCommand.run (commandWord .nop) s)

/-- `ILLEGAL` (R181); `CMD` keeps the illegal word (R28). -/
def execIllegal (w : Word) (s : State) : Host.Outcome State Fault Refusal :=
  .next (illegalCommand.run w s)

end Sys2Proof.Machine
end

