-- ==== Sys2Proof/Machine/Transpose.lean ====
section
/-! DEFINITION. The bit-plane transpose engine (41_transpose.md). -/

namespace Sys2Proof.Machine

/-! ## The group function -/

/-- Plane word `p` of a group: `P[p][15 - i] = px[i][p]` (R144, normative). -/
def planeWord (px : List Byte) (p : Nat) : Half :=
  BitVec.ofFnLE fun b : Fin 16 => (px.getD (15 - b.val) 0).getLsbD p

/-- The load of the merge-exchange network: `w[j] = {px[2j], px[2j+1]}` (R148). -/
def networkLoad (px : List Byte) : List Half :=
  (List.range 8).map fun j => px.getD (2 * j) 0 ++ px.getD (2 * j + 1) 0

/-- `t <- ((w[j+δ] >> s) ^ w[j]) & m` (R148). -/
def exchangeBits (s : Nat) (m : Half) (lower upper : Half) : Half :=
  ((upper >>> s) ^^^ lower) &&& m

/-- One pass over the four pairs `(j, j + δ)` with `j & δ = 0` (R148). -/
def networkPass (s : Nat) (m : Half) (δ : Nat) (w : List Half) : List Half :=
  (List.range 8).map fun j =>
    if j &&& δ = 0 then
      w.getD j 0 ^^^ exchangeBits s m (w.getD j 0) (w.getD (j + δ) 0)
    else
      w.getD j 0 ^^^ (exchangeBits s m (w.getD (j - δ) 0) (w.getD j 0) <<< s)

/-- The four passes, in their order (R148). -/
def networkPasses (w : List Half) : List Half :=
  networkPass 1 0x5555 4 (networkPass 2 0x3333 1 (networkPass 4 0x0F0F 2 (networkPass 8 0x00FF 4 w)))

/-- The final permutation: which network word plane `p` gets (R149). -/
def planeSource : List Nat := [7, 3, 6, 2, 5, 1, 4, 0]

/-- The source's computation of a group: load, four passes, permutation (R148, R149). -/
def networkPlanes (px : List Byte) : List Half :=
  planeSource.map fun k => (networkPasses (networkLoad px)).getD k 0

/-! ## The row -/

/-- The bytes a group writes, in order: plane 0 first, bits 15:8 at the lower address (20_memory.md R62, R66; R146). -/
def groupStores (o : Operands) (g : Nat) (px : List Byte) : List Host.Cell :=
  (List.range o.depth).flatMap fun p =>
    [(o.planeRow p + 2 * g, (planeWord px p).extractLsb' 8 8),
     (o.planeRow p + 2 * g + 1, (planeWord px p).extractLsb' 0 8)]

/-- One pixel more of the group is known. -/
def Prog.withPixel (p : Prog) (b : Byte) : Prog :=
  { p with cur := { p.cur with pixels := p.cur.pixels ++ [b] } }

/-- The plane bytes `cs` of the group are still to be written; when there are none, the next group follows. -/
def Prog.withStores (p : Prog) (cs : List Host.Cell) : Prog :=
  match cs with
  | []      => { p with cur := { p.cur with group := p.cur.group + 1, pixels := [], stores := [] } }
  | c :: cs => { p with cur := { p.cur with stores := c :: cs } }

/-- One access of a group of 16 pixels, or the end of the row (R147): the pixels below `W` in order, those from `W` on without an
access (R143), then the plane bytes (R146). -/
def groupTurn (x : Ctx) (p : Prog) : UnitResult :=
  if p.cur.group < x.ops.groups then
    match p.cur.stores with
    | (a, b) :: cs => putByte x.view a b (p.withStores cs)
    | []           =>
      if p.cur.pixels.length < Config.groupPixels then
        if 16 * p.cur.group + p.cur.pixels.length < x.ops.width then
          takeByte x.view (x.ops.pixelBase + (16 * p.cur.group + p.cur.pixels.length)) p fun b q => .more (q.withPixel b)
        else .more (p.withPixel 0)
      else .more (p.withStores (groupStores x.ops p.cur.group p.cur.pixels))
  else .done p .success

/-- The units left of a row: for each group its 16 pixels, its `2 * D` plane bytes and two more, and what is left to write
(70_reset_and_hazards.md R248). -/
def rowBound (o : Operands) (c : Cursor) : Nat :=
  (2 * o.depth + 18) * (o.groups - c.group) + c.stores.length

/-- `TP_DST <- P0 + B` (R147). -/
def advancePlanes (o : Operands) (_ : Cursor) (s : State) : State :=
  { s with params := { s.params with tpDst := o.params.tpDst + BitVec.ofNat 32 o.rowBytes } }

/-- `TRANSPOSE_ROW` (R147). -/
def transposeCommand : Command where
  check     := transposeCheck
  enter     := keepCursor
  work      := groupTurn
  bound     := rowBound
  onSuccess := advancePlanes

/-- `TRANSPOSE_ROW` (R147). -/
def execTransposeRow (s : State) : Host.Outcome State Fault Refusal :=
  .next (transposeCommand.run (commandWord .transposeRow) s)

end Sys2Proof.Machine
end

