-- ==== Sys2Proof/Machine/Commands.lean ====
section
/-! DEFINITION. The rule behind each command word, and what the running command comes to. -/

namespace Sys2Proof.Machine

/-- The rule of a command word. A packet is no command word; it is listed as the walk that fetches it. -/
def commandOf : Instr → Command
  | .nop          => nopCommand
  | .copy         => copyCommand
  | .rleDecode    => rleDecodeCommand
  | .skip         => skipCommand
  | .rleSkip      => rleSkipCommand
  | .transposeRow => transposeCommand
  | .animate      => animateCommand
  | .animateBlend => animateBlendCommand
  | .illegal _    => illegalCommand
  | .literal _    => rleDecodeCommand
  | .noop         => rleDecodeCommand
  | .repeatRun _  => rleDecodeCommand

/-- The state that the running command comes to if nothing else happens (with the unspecified values of R245 where the engine would read
entries never written): what it has not yet written has its new value there (10_state.md
R49, 70_reset_and_hazards.md R231, R241). -/
def outcome (s : State) : State :=
  match s.engine with
  | .idle   => s
  | .busy r => (commandOf (decodeCommand r.word)).complete r s

end Sys2Proof.Machine
end

