-- ==== Sys2Proof/Machine/Dispatch.lean ====
section
/-! DEFINITION. One arm per instruction. -/

namespace Sys2Proof.Machine

/-- What an instruction does. -/
def exec (i : Instr) (s : State) : Host.Outcome State Fault Refusal :=
  match i with
  | .nop => Sys2Proof.Machine.execNop s
  | .copy => Sys2Proof.Machine.execCopy s
  | .rleDecode => Sys2Proof.Machine.execRleDecode s
  | .skip => Sys2Proof.Machine.execSkip s
  | .rleSkip => Sys2Proof.Machine.execRleSkip s
  | .transposeRow => Sys2Proof.Machine.execTransposeRow s
  | .animate => Sys2Proof.Machine.execAnimate s
  | .animateBlend => Sys2Proof.Machine.execAnimateBlend s
  | .illegal w => Sys2Proof.Machine.execIllegal w s
  | .literal c => Sys2Proof.Machine.execLiteral c s
  | .noop => Sys2Proof.Machine.execNoop s
  | .repeatRun c => Sys2Proof.Machine.execRepeat c s

end Sys2Proof.Machine
end

