-- ==== Sys2Proof/Machine/Races.lean ====
section
/-! DEFINITION. What the host meets while a command runs: the windows of the running command (70_reset_and_hazards.md R240), the
draws of raced bytes (R241), of `OUT_PAL` entries (R244) and of an abandoned command (R231). -/

namespace Sys2Proof.Machine

/-- `[first, first + size)` holds `a`. -/
def inWindow (first size a : Nat) : Bool :=
  decide (first ≤ a) && decide (a < first + size)

/-- The bytes of system memory that the running command reads (R240). -/
def Running.readWindow (r : Running) (a : Nat) : Bool :=
  match decodeCommand r.word with
  | .copy         => inWindow r.ops.srcBase r.ops.srcLen a
  | .rleDecode    => inWindow r.ops.srcBase r.ops.srcLen a
  | .skip         => inWindow r.ops.srcBase r.ops.srcLen a
  | .rleSkip      => inWindow r.ops.srcBase r.ops.srcLen a
  | .transposeRow => inWindow r.ops.pixelBase r.ops.width a
  | _             => false

/-- The bytes of system memory that the running command writes (R240). -/
def Running.writeWindow (r : Running) (a : Nat) : Bool :=
  match decodeCommand r.word with
  | .copy         => inWindow r.ops.dstBase r.ops.dstLen a
  | .rleDecode    => inWindow r.ops.dstBase r.ops.dstLen a
  | .transposeRow => (List.range r.ops.depth).any fun p => inWindow (r.ops.planeRow p) r.ops.rowBytes a
  | _             => false

/-- The bytes of the write windows that the engine has passed (R51: told by its cursors). -/
def Running.passed (r : Running) (a : Nat) : Bool :=
  match decodeCommand r.word with
  | .copy         => inWindow r.ops.dstBase r.cur.produced a
  | .rleDecode    => inWindow r.ops.dstBase r.cur.produced a
  | .transposeRow =>
    ((List.range r.ops.depth).any fun p => inWindow (r.ops.planeRow p) (2 * r.cur.group) a) ||
      (!r.cur.stores.isEmpty && !(r.cur.stores.map Prod.fst).contains a &&
        (List.range r.ops.depth).any fun p => inWindow (r.ops.planeRow p + 2 * r.cur.group) 2 a)
  | _             => false

/-- A host read of one byte of system memory. In a write window of the running command it is a draw of the old and the new value
(R241), whether or not the engine has passed the byte (log 6). -/
def hostSees (s : State) (a : Nat) : Byte :=
  match s.engine with
  | .idle   => Memory.read s.mem a
  | .busy r =>
    if r.writeWindow a then
      if Config.freeBit s.draws a then Memory.read r.before a else Memory.read (outcome s).mem a
    else Memory.read s.mem a

/-- A host write of a byte that the engine reads: the engine sees the old or the new value, a draw (R241). DESIGN CHOICE (log 6): a byte
that is in a write window too, which can be only until a check ends the command (`OVERLAP`, or one before it), is written like any byte of a read window, and the
written value is from then on its old value. -/
def writeReadWindow (r : Running) (a : Nat) (v : Byte) (s : State) : State :=
  let others := r.stale.filter fun c => c.1 != a
  let old := BusView.seen ⟨s.platform, r.stale, r.shielded⟩ s.mem a
  { s with
    mem    := Memory.write s.mem a v
    engine := .busy { r with
      before := Memory.write r.before a v
      stale  := if Config.freeBit s.draws a then (a, old) :: others else others }
    draws  := s.draws + 1 }

/-- A host write of a byte that the engine writes: it may be overwritten by the engine or not, a draw (R241). -/
def writeWriteWindow (r : Running) (a : Nat) (v : Byte) (s : State) : State :=
  if r.passed a then
    { s with
      mem    := if Config.freeBit s.draws a then Memory.write s.mem a v else s.mem
      engine := .busy { r with before := Memory.write r.before a v }
      draws  := s.draws + 1 }
  else
    { s with
      mem    := Memory.write s.mem a v
      engine := .busy { r with
        before   := Memory.write r.before a v
        shielded := if Config.freeBit s.draws a then a :: r.shielded else r.shielded }
      draws  := s.draws + 1 }

/-- A host write of one byte of system memory, whatever the address (20_memory.md R60, R69, log 27; R240, R241 while a command runs). -/
def hostStores (a : Nat) (v : Byte) (s : State) : State :=
  match s.engine with
  | .idle   => { s with mem := Memory.write s.mem a v }
  | .busy r =>
    if r.readWindow a then writeReadWindow r a v s
    else if r.writeWindow a then writeWriteWindow r a v s
    else { s with mem := Memory.write s.mem a v }

/-- Memory `m` with the byte at each address of `as` that `pick` marks taken from `n`. -/
def Memory.mix (m n : Memory) (pick : Nat → Bool) (as : List Nat) : Memory :=
  as.foldl (fun k a => if pick a then Memory.write k a (Memory.read n a) else k) m

/-- System memory when the running command is abandoned by a soft reset: each byte of its write windows is old or what the command
would have written, a draw, and every other byte is as it was (R231, log 7). -/
def abandonedMem (s : State) : Memory :=
  match s.engine with
  | .idle   => s.mem
  | .busy r =>
    let new := (outcome s).mem
    let listed := (r.before ++ s.mem ++ new).map Prod.fst
    Memory.mix
      (Memory.mix s.mem new (fun a => r.writeWindow a && !Config.freeBit s.draws a) listed)
      r.before (fun a => r.writeWindow a && Config.freeBit s.draws a) listed

/-- `OUT_PAL` when the running command is abandoned: each entry is what it was or what the command would have given it, a draw (R231,
log 7). -/
def abandonedOutPal (s : State) : Palette :=
  s.outPal.merge (outcome s).outPal (Config.freeBit s.draws)

/-- A host read of `OUT_PAL[i]`: while an animator runs, the value before the command or after it, a draw (10_state.md R49, R244,
log 16). -/
def outPalSees (s : State) (i : Nat) : Colour :=
  if Config.freeBit s.draws i then (outcome s).outPal.get s.draws i else s.outPal.get s.draws i

end Sys2Proof.Machine
end

