-- ==== Sys2Proof/Machine/HostPort.lean ====
section
/-! DEFINITION. The register window as the host reads and writes it (10_state.md R22, R23), the drop rule of a Busy engine
(R48), soft reset (70_reset_and_hazards.md R231) and power-on reset (R230). -/

namespace Sys2Proof.Machine

/-- The registers and table entries of the register map (R22). -/
inductive Reg
  | id
  | ctrl
  | status
  | errCode
  | cmd
  | result
  | outCount
  | faultAddr
  | srcAddr
  | srcLen
  | dstAddr
  | dstLen
  | tpSrc
  | tpWidth
  | tpDepth
  | tpDst
  | tpPstride
  | nColors
  | nRanges
  | elapsed
  | rangeBounds (k : Fin 16)
  | rangeRate (k : Fin 16)
  | basePal (i : Fin 256)
  | outPal (i : Fin 256)
deriving DecidableEq, Repr

/-- The byte offset of a register in the window (R22). -/
def Reg.offset : Reg → Nat
  | .id            => 0x000
  | .ctrl          => 0x004
  | .status        => 0x008
  | .errCode       => 0x00C
  | .cmd           => 0x010
  | .result        => 0x014
  | .outCount      => 0x018
  | .faultAddr     => 0x01C
  | .srcAddr       => 0x020
  | .srcLen        => 0x024
  | .dstAddr       => 0x028
  | .dstLen        => 0x02C
  | .tpSrc         => 0x030
  | .tpWidth       => 0x034
  | .tpDepth       => 0x038
  | .tpDst         => 0x03C
  | .tpPstride     => 0x040
  | .nColors       => 0x050
  | .nRanges       => 0x054
  | .elapsed       => 0x058
  | .rangeBounds k => 0x100 + 8 * k.val
  | .rangeRate k   => 0x104 + 8 * k.val
  | .basePal i     => 0x400 + 4 * i.val
  | .outPal i      => 0x800 + 4 * i.val

/-- The registers below the tables, in the order of their offsets (R22). -/
def Reg.scalars : List Reg :=
  [.id, .ctrl, .status, .errCode, .cmd, .result, .outCount, .faultAddr, .srcAddr, .srcLen, .dstAddr, .dstLen, .tpSrc,
    .tpWidth, .tpDepth, .tpDst, .tpPstride, .nColors, .nRanges, .elapsed]

/-- The register at a byte offset; the offsets of 20_memory.md R68 hold none (R22, R23). -/
def Reg.ofOffset (off : Nat) : Option Reg :=
  if off < 0x100 then Reg.scalars.find? fun r => r.offset == off
  else if off < 0x180 then
    if off % 8 = 0 then some (.rangeBounds (Fin.ofNat 16 ((off - 0x100) / 8)))
    else if off % 8 = 4 then some (.rangeRate (Fin.ofNat 16 ((off - 0x100) / 8)))
    else none
  else if off % 4 ≠ 0 then none
  else if 0x400 ≤ off && off < 0x800 then some (.basePal (Fin.ofNat 256 ((off - 0x400) / 4)))
  else if 0x800 ≤ off && off < 0xC00 then some (.outPal (Fin.ofNat 256 ((off - 0x800) / 4)))
  else none

/-! ## Reading -/

/-- `RANGE_BOUNDS[k]` as a word: LOW 7:0, HIGH 15:8, REV 16 (R44). -/
def boundsWord (r : ColourRange) : Word :=
  (BitVec.ofBool r.rev ++ r.high ++ r.low).setWidth 32

/-- What a host read of a register is answered (R22, R23: reserved bits read 0). While Busy it is the value from before the command
(R49): nothing writes a register meanwhile but `STATUS` and `CTRL`, and `CTRL` shows the `IE` from before. `CMD` shows the word last
accepted (R28, log 26). -/
def readReg (s : State) : Reg → Word
  | .id            => 0x53435831
  | .ctrl          => ctrlWord s
  | .status        => statusWord s
  | .errCode       => s.errCode.setWidth 32
  | .cmd           => s.cmd
  | .result        => s.result
  | .outCount      => s.outCount
  | .faultAddr     => s.faultAddr
  | .srcAddr       => s.params.srcAddr
  | .srcLen        => s.params.srcLen
  | .dstAddr       => s.params.dstAddr
  | .dstLen        => s.params.dstLen
  | .tpSrc         => s.params.tpSrc
  | .tpWidth       => s.params.tpWidth.setWidth 32
  | .tpDepth       => s.params.tpDepth.setWidth 32
  | .tpDst         => s.params.tpDst
  | .tpPstride     => s.params.tpPstride
  | .nColors       => s.params.nColors.setWidth 32
  | .nRanges       => s.params.nRanges.setWidth 32
  | .elapsed       => s.params.elapsed
  | .rangeBounds k => boundsWord s.params.ranges[k]
  | .rangeRate k   => s.params.ranges[k].rate.setWidth 32
  | .basePal i     => (s.basePal.get s.draws i.val).setWidth 32
  | .outPal i      => (outPalSees s i.val).setWidth 32

/-- What a host read of an offset is answered: an offset that holds no register reads 0 (R23). -/
def readOffset (s : State) (off : Nat) : Word :=
  match Reg.ofOffset off with
  | some r => readReg s r
  | none   => 0

/-! ## Writing -/

/-- Soft reset (R231): a running command is abandoned without completion, every register takes its reset value, the palettes
are kept, the engine is Idle. The platform and the model's own fields are not the block's. -/
def softReset (s : State) : State :=
  { State.reset with
    basePal  := s.basePal
    outPal   := abandonedOutPal s
    mem      := abandonedMem s
    platform := s.platform
    inputs   := s.inputs
    lastRead := s.lastRead
    draws    := s.draws + 1 }

/-- Power-on reset (R230, R232): as `State.reset`, but system memory, the platform and the model's own fields are kept (log 19). -/
def powerOnReset (s : State) : State :=
  { State.reset with
    mem      := s.mem
    platform := s.platform
    inputs   := s.inputs
    lastRead := s.lastRead
    draws    := s.draws + 1 }

/-- A write to `CTRL` (R25): SRST performs the soft reset whatever bit 0 holds, otherwise IE is written, which gates the interrupt output
at once (R52) and is read back when no command runs (R49, log 26). -/
def writeCtrl (v : Word) (s : State) : State :=
  if v.getLsbD 1 then softReset s else { s with ie := v.getLsbD 0 }

/-- The parameter registers with entry `k` of the range table replaced. -/
def Params.setRange (p : Params) (k : Fin 16) (r : ColourRange) : Params :=
  { p with ranges := p.ranges.set k.val r }

/-- `RANGE_BOUNDS[k]` written: LOW, HIGH and REV from the word, the rate kept (R44). -/
def ColourRange.withBounds (r : ColourRange) (v : Word) : ColourRange :=
  { r with low := v.extractLsb' 0 8, high := v.extractLsb' 8 8, rev := v.getLsbD 16 }

/-- A host write of `v` to a register of an Idle block, or to `CTRL` or `STATUS` of any (R22 to R47): read-only registers and
reserved bits ignore it; a write to `CMD` issues a command (R28, R201). -/
def writeReg (v : Word) (s : State) : Reg → State
  | .id            => s
  | .ctrl          => writeCtrl v s
  | .status        => acknowledge v s
  | .errCode       => s
  | .cmd           => issue v s
  | .result        => s
  | .outCount      => s
  | .faultAddr     => s
  | .srcAddr       => { s with params := { s.params with srcAddr := v } }
  | .srcLen        => { s with params := { s.params with srcLen := v } }
  | .dstAddr       => { s with params := { s.params with dstAddr := v } }
  | .dstLen        => { s with params := { s.params with dstLen := v } }
  | .tpSrc         => { s with params := { s.params with tpSrc := v } }
  | .tpWidth       => { s with params := { s.params with tpWidth := v.setWidth 16 } }
  | .tpDepth       => { s with params := { s.params with tpDepth := v.setWidth 4 } }
  | .tpDst         => { s with params := { s.params with tpDst := v } }
  | .tpPstride     => { s with params := { s.params with tpPstride := v } }
  | .nColors       => { s with params := { s.params with nColors := v.setWidth 9 } }
  | .nRanges       => { s with params := { s.params with nRanges := v.setWidth 5 } }
  | .elapsed       => { s with params := { s.params with elapsed := v } }
  | .rangeBounds k => { s with params := s.params.setRange k (s.params.ranges[k].withBounds v) }
  | .rangeRate k   => { s with params := s.params.setRange k { s.params.ranges[k] with rate := v.setWidth 16 } }
  | .basePal i     => { s with basePal := s.basePal.set i.val (v.setWidth 24) }
  | .outPal _      => s

/-- The two offsets that a Busy block still accepts writes at (R48). -/
def acceptsBusyWrite (off : Nat) : Bool :=
  off == Reg.ctrl.offset || off == Reg.status.offset

/-- A host write of `v` at an offset (R23, R48): a Busy block ignores all but `CTRL` and `STATUS` and sets `DROP`; an offset that
holds no register ignores it. -/
def writeOffset (off : Nat) (v : Word) (s : State) : State :=
  if s.isBusy && !acceptsBusyWrite off then { s with status := s.status.dropped }
  else
    match Reg.ofOffset off with
    | some r => writeReg v s r
    | none   => s

/-! ## The register bus -/

/-- The offset of a system address inside the window at `BLOCK_BASE` (R6, 20_memory.md R60); `none` outside it. -/
def windowOffset (p : Platform) (addr : Word) : Option Nat :=
  if p.blockBase.toNat ≤ addr.toNat && addr.toNat < p.blockBase.toNat + Config.windowBytes then
    some (addr.toNat - p.blockBase.toNat)
  else none

/-- The only accesses the block answers: 32 bits wide, at a multiple of 4 (R23). -/
def supportedAccess (off width : Nat) : Bool :=
  width == 4 && off % 4 == 0

/-- A host write on the register bus (R23). An access outside the window is not the block's (log 9). -/
def hostWrite (addr : Word) (width : Nat) (v : Word) (s : State) : Host.Outcome State Fault Refusal :=
  match windowOffset s.platform addr with
  | none     => .next s
  | some off => if supportedAccess off width then .next (writeOffset off v s) else .refused .unsupportedAccess

/-- A host read on the register bus (R23): the answer stands in `lastRead` (log 15). -/
def hostRead (addr : Word) (width : Nat) (s : State) : Host.Outcome State Fault Refusal :=
  match windowOffset s.platform addr with
  | none     => .next s
  | some off =>
    if supportedAccess off width then
      .next { s with lastRead := some (readOffset s off), draws := s.draws + 1 }
    else .refused .unsupportedAccess

/-- A host read of one byte of system memory, whatever the address (R60, log 27): the answer stands in `lastRead` (log 15). -/
def hostMemRead (addr : Word) (s : State) : State :=
  { s with lastRead := some ((hostSees s addr.toNat).setWidth 32), draws := s.draws + 1 }

/-- A write to `STATUS` counts before the engine's move of the same step, so that a bit the engine sets ends set (R26). Every other
write counts after it (R208 for `CMD`; log 8). -/
def hostFirst (p : Platform) (addr : Word) : Bool :=
  windowOffset p addr == some Reg.status.offset

end Sys2Proof.Machine
end

