-- ==== Sys2Proof/Machine/Engine.lean ====
section
/-! DEFINITION. How the engine moves in one step: it fetches what it runs next (the latched command word, or the control byte at
the walk's source cursor), decodes it and runs it; and how a word is laid where it fetches. -/

namespace Sys2Proof.Machine

/-- The packet that the running walk fetches next: the control byte at `SA + s` (R117). `none` where no walk is about to read one,
or where the platform answers the read with a bus error. -/
def fetchPacket (s : State) : Option Instr :=
  match walking s with
  | none        => none
  | some (r, _) =>
    ((r.ctx s).view.read s.mem (r.ops.srcBase + r.cur.consumed)).map decodeControl

/-- One unit of the running command: its checks, one memory access, a table entry, or its completion (20_memory.md R64). -/
def advance (s : State) : State :=
  match s.engine with
  | .idle   => s
  | .busy r => (commandOf (decodeCommand r.word)).move 1 r s

/-- The engine moves by one unit, unless it reads an entry of `BASE_PAL` never written (R245). -/
def accessStep (s : State) : Host.Outcome State Fault Refusal :=
  unlessUnwritten s (advance s)

/-- The engine runs the packet that a walk is about to fetch; elsewhere it moves by one unit. -/
def packetStep (s : State) : Host.Outcome State Fault Refusal :=
  match fetchPacket s with
  | some i => exec i s
  | none   => accessStep s

/-- The engine runs the latched command word to its completion (R51, R247); an Idle engine waits (R230). -/
def runStep (s : State) : Host.Outcome State Fault Refusal :=
  match s.engine with
  | .idle   => .next s
  | .busy r => exec (decodeCommand r.word) s

/-- The engine moves as far as it is granted. -/
def engineStep (g : Grant) (s : State) : Host.Outcome State Fault Refusal :=
  match g with
  | .access => accessStep s
  | .packet => packetStep s
  | .all    => runStep s

/-- One thing after another in the same step. -/
def andThen (o : Host.Outcome State Fault Refusal) (f : State → Host.Outcome State Fault Refusal) :
    Host.Outcome State Fault Refusal :=
  match o with
  | .next s    => f s
  | .fault r   => .fault r
  | .refused r => .refused r

/-- A host write and an engine move in one step (R26, R208). -/
def sameStep (addr : Word) (width : Nat) (v : Word) (g : Grant) (s : State) : Host.Outcome State Fault Refusal :=
  if hostFirst s.platform addr then andThen (hostWrite addr width v s) (engineStep g)
  else andThen (engineStep g s) (hostWrite addr width v)

/-- What one event does. DESIGN CHOICE (log 27): a host access of one byte of system memory meets system memory at every address, those
of the register window at `BLOCK_BASE` among them (R60); the register bus is a space of its own. -/
def handle (e : Event) (s : State) : Host.Outcome State Fault Refusal :=
  match e with
  | .engine g                  => engineStep g s
  | .hostWrite addr width v    => hostWrite addr width v s
  | .hostRead addr width       => hostRead addr width s
  | .sameStep addr width v g   => sameStep addr width v g s
  | .memWrite addr v           => .next (hostStores addr.toNat v s)
  | .memRead addr              => .next (hostMemRead addr s)
  | .powerOn                   => .next (powerOnReset s)

/-! ## Laying a word where it is fetched (log 10) -/

/-- A command word is fetched from where issue latches it. -/
def placeCommand (w : Word) (s : State) : State :=
  { issue w { s with engine := .idle } with inputs := .engine .all :: s.inputs }

/-- Memory with `n` bytes from `a` on set to 0. -/
def clearBytes (a : Nat) : Nat → Memory → Memory
  | 0, m => m
  | n + 1, m => clearBytes a n (Memory.write m (a + n) 0)

/-- A control byte is fetched by a walk: an `RLE_DECODE` whose checks have passed, over 256 source bytes at address 0 and 128
destination bytes at address 512, with the control byte first and zeros after it, on a platform without bus errors. -/
def placeControl (b : Byte) (s : State) : State :=
  let t : State :=
    { s with
      engine   := .idle
      mem      := Memory.write (clearBytes 0 256 s.mem) 0 b
      platform := { s.platform with busErrors := [] }
      params   := { s.params with srcAddr := 0, srcLen := 256, dstAddr := 512, dstLen := 128 } }
  let r := Running.fresh (commandWord .rleDecode) t
  { issue (commandWord .rleDecode) t with
    engine := .busy { r with cur := { r.cur with started := true } }
    inputs := .engine .packet :: s.inputs }

end Sys2Proof.Machine
end

