-- ==== Sys2Proof/Machine/Step.lean ====
section
/-! DEFINITION. One step of the machine, and where a word is laid for the next step to fetch it. -/

namespace Sys2Proof.Machine

/-- One step: the oldest event happens. When nothing more is planned, the engine runs (70_reset_and_hazards.md R247: a Busy engine
eventually completes), and an Idle block waits (R230). -/
def step (s : State) : Host.Outcome State Fault Refusal :=
  match s.inputs with
  | []      => runStep s
  | e :: es => handle e { s with inputs := es }

/-- `s` with the instruction whose bits are `w` laid where the next step fetches it (log 10): a command word of 32 bits is accepted
and latched, a control byte of 8 bits is the next byte of a running walk. -/
def State.withFetchWord (s : State) (nbits w : Nat) : State :=
  if nbits = 32 then placeCommand (BitVec.ofNat 32 w) s
  else if nbits = 8 then placeControl (BitVec.ofNat 8 w) s
  else s

end Sys2Proof.Machine
end

