-- ==== Sys2Proof/Machine/HostProgram.lean ====
section
/-! DEFINITION. The host program syntax of 30_encoding.md R97, as events. -/

namespace Sys2Proof.Machine

/-- One line of a host program (R97). `wait` and what ends with it carry how many polls still see `BUSY`, which depends on
`LATENCY`. -/
inductive HostOp
  | wr (r : Reg) (v : Word)
  | rd (r : Reg)
  | cmd (i : Instr)
  | cmdRaw (w : Word)
  | wait (polls : Nat)
  | run (i : Instr) (polls : Nat)
  | clear
  | codec (i : Instr) (src srcLen dst dstLen : Word) (polls : Nat)
deriving DecidableEq, Repr

/-- A bus write of a register. -/
def busWrite (p : Platform) (r : Reg) (v : Word) : Event :=
  .hostWrite (p.blockBase + BitVec.ofNat 32 r.offset) 4 v

/-- A bus read of a register. -/
def busRead (p : Platform) (r : Reg) : Event :=
  .hostRead (p.blockBase + BitVec.ofNat 32 r.offset) 4

/-- Polls of `STATUS` while the engine is Busy, its completion, and the poll that sees `BUSY = 0`. -/
def waitEvents (p : Platform) (polls : Nat) : List Event :=
  List.replicate polls (busRead p .status) ++ [.engine .all, busRead p .status]

/-- A command word written to `CMD`, then `wait`. -/
def runEvents (p : Platform) (i : Instr) (polls : Nat) : List Event :=
  busWrite p .cmd (commandWord i) :: waitEvents p polls

/-- The bus accesses of a line (R97). -/
def HostOp.events (p : Platform) : HostOp → List Event
  | .wr r v      => [busWrite p r v]
  | .rd r        => [busRead p r]
  | .cmd i       => [busWrite p .cmd (commandWord i)]
  | .cmdRaw w    => [busWrite p .cmd w]
  | .wait polls  => waitEvents p polls
  | .run i polls => runEvents p i polls
  | .clear       => [busWrite p .status 0x0000000E]
  | .codec i src srcLen dst dstLen polls =>
    [busWrite p .srcAddr src, busWrite p .srcLen srcLen, busWrite p .dstAddr dst, busWrite p .dstLen dstLen] ++
      runEvents p i polls

end Sys2Proof.Machine
end

