-- ==== Sys2Proof/Machine/Stream.lean ====
section
/-! DEFINITION. The packets of a compressed stream as data, their bytes and what they stand for (30_encoding.md R90, R91), and the
stream syntax of R98. -/

namespace Sys2Proof.Machine

/-- One packet of a stream with its data bytes (R90, R98). -/
inductive StreamItem
  /-- `LIT b1, ..., bn`. -/
  | lit (bytes : List Byte)
  /-- `REP n, v`. -/
  | rep (n : Nat) (v : Byte)
  /-- `NOOP`. -/
  | noop
deriving DecidableEq, Repr

/-- The lengths that R98 allows: 1 to 128 literal bytes, 2 to 128 repeats. -/
def StreamItem.valid : StreamItem → Bool
  | .lit bytes => decide (1 ≤ bytes.length) && decide (bytes.length ≤ 128)
  | .rep n _   => decide (2 ≤ n) && decide (n ≤ 128)
  | .noop      => true

/-- The instruction a packet's control byte stands for (R90). -/
def StreamItem.instr : StreamItem → Instr
  | .lit bytes => .literal (bytes.length - 1)
  | .rep n _   => .repeatRun (1 - (n : Int))
  | .noop      => .noop

/-- The data bytes after the control byte (R90). -/
def StreamItem.data : StreamItem → List Byte
  | .lit bytes => bytes
  | .rep _ v   => [v]
  | .noop      => []

/-- The bytes of a packet (R90, R98). -/
def StreamItem.bytes (p : StreamItem) : List Byte :=
  BitVec.ofNat 8 (encode p.instr) :: p.data

/-- The logical output of a packet (R90). -/
def StreamItem.output : StreamItem → List Byte
  | .lit bytes => bytes
  | .rep n v   => List.replicate n v
  | .noop      => []

/-- The bytes of a stream. -/
def assemble (ps : List StreamItem) : List Byte := ps.flatMap StreamItem.bytes

/-- What a stream decodes to. -/
def expand (ps : List StreamItem) : List Byte := ps.flatMap StreamItem.output

/-- The pseudo-packet `RUN n, v` (R98). -/
def runItems (n : Nat) (v : Byte) : List StreamItem :=
  List.replicate (n / 128) (.rep 128 v) ++
    (if n % 128 = 0 then [] else if n % 128 = 1 then [.lit [v]] else [.rep (n % 128) v])

end Sys2Proof.Machine
end

