-- ==== Sys2Proof/Safety.lean ====
section
/-! DEFINITION. What every reachable state of the machine satisfies, in the terms the statements use. -/

namespace Sys2Proof.Machine

/-- A `COPY` is at a byte of its one run (R120): `s` and `d` differ only while a byte is held. -/
def copyOk (o : Operands) (c : Cursor) : Prop :=
  match c.run with
  | .none                  => c.consumed = c.produced ∧ (c.started = true → c.produced = o.dstLen)
  | .copying more .none    => c.consumed = c.produced ∧ c.produced + more + 1 = o.dstLen
  | .copying more (some _) => c.consumed = c.produced + 1 ∧ c.produced + more + 1 = o.dstLen
  | .fetching _            => False
  | .filling _ _           => False

/-- A walk is inside its windows, and so is what is left of the run in progress (R117, R118, R119). -/
def walkOk (o : Operands) (c : Cursor) : Prop :=
  c.consumed ≤ o.srcLen ∧ c.produced ≤ o.dstLen ∧
  match c.run with
  | .none                  => True
  | .copying more .none    => c.consumed + more + 1 ≤ o.srcLen ∧ c.produced + more + 1 ≤ o.dstLen
  | .copying more (some _) => c.consumed + more ≤ o.srcLen ∧ c.produced + more + 1 ≤ o.dstLen
  | .fetching more         => c.consumed + 1 ≤ o.srcLen ∧ c.produced + more + 1 ≤ o.dstLen
  | .filling more _        => c.produced + more + 1 ≤ o.dstLen

/-- A row is at a pixel of a group or at one of its plane bytes (R143, R146, R147). -/
def rowOk (o : Operands) (c : Cursor) : Prop :=
  c.group ≤ o.groups ∧ (c.group = o.groups → c.pixels = [] ∧ c.stores = []) ∧ c.pixels.length ≤ 16 ∧
  c.consumed = min o.width (16 * c.group + c.pixels.length) ∧
  if c.stores = [] then c.produced = 2 * o.depth * c.group
  else
    c.pixels.length = 16 ∧
    ∃ k, c.stores = (groupStores o c.group c.pixels).drop k ∧ c.produced = 2 * o.depth * c.group + k

/-- The cursors of a running command are where its pseudocode can leave them between two accesses (R51, R110, R117, R120, R147,
R168). -/
def cursorOk (o : Operands) (c : Cursor) : Instr → Prop
  | .copy         => copyOk o c
  | .rleDecode    => walkOk o c
  | .rleSkip      => walkOk o c ∧ c.run = .none
  | .transposeRow => rowOk o c
  | .animate      => c.rangeIx ≤ o.nRanges ∧ (c.started = true → c.table.length = o.nColors)
  | .animateBlend => c.rangeIx ≤ o.nRanges ∧ (c.started = true → c.table.length = o.nColors)
  | .nop          => c.consumed = 0 ∧ c.produced = 0
  | .skip         => c.consumed = 0 ∧ c.produced = 0
  | .illegal _    => c.consumed = 0 ∧ c.produced = 0
  | .literal _    => False
  | .noop         => False
  | .repeatRun _  => False

/-- What the engine holds while Busy: the latched word and parameters are what the registers show (R51: "the latched and the
register values never differ while a command runs"), the checks have passed once the command has started (R202), and the cursors
are in place. -/
def runningOk (s : State) (r : Running) : Prop :=
  r.word = s.cmd ∧
  r.ops.params = s.params ∧
  Memory.wf r.before = true ∧
  (isAnimator r.word = true → r.ops.basePal.length = min r.ops.nColors 256) ∧
  (r.cur.started = false → r.cur = Cursor.fresh) ∧
  (r.cur.started = true → (commandOf (decodeCommand r.word)).check r.ops = none) ∧
  cursorOk r.ops r.cur (decodeCommand r.word)

/-- The invariant of the machine: memory is in canonical form, `ERRCODE` holds a code of R200, a Busy engine has left `DONE` clear
(R201) and holds what `runningOk` says. -/
def State.Inv (s : State) : Prop :=
  Memory.wf s.mem = true ∧
  s.errCode.toNat ≤ 8 ∧
  match s.engine with
  | .idle   => True
  | .busy r => s.status.done = false ∧ runningOk s r

/-! ## The terms of the statements -/

/-- The platform answers no engine access to `[a, a + n)` with a bus error (R6). -/
abbrev noBusError (p : Platform) (k : Access) (a n : Nat) : Prop :=
  ∀ j, j < n → busError p k (a + j) = false

/-- The windows `[a, a + n)` and `[b, b + m)` share no byte (R112, R145). -/
abbrev disjointWindows (a n b m : Nat) : Prop :=
  n = 0 ∨ m = 0 ∨ a + n ≤ b ∨ b + m ≤ a

/-- What a completion leaves (60_exceptions.md R203) of everything but the parameter registers, `OUT_PAL` and system memory: the
word in `CMD`, the code, `RESULT`, `OUTCOUNT` and `FAULT_ADDR`, `DONE` set, `ERR` sticky, the rest as it was. -/
def completed (word : Word) (code : BitVec 8) (fault : Word) (result out : Nat) (s t : State) : Prop :=
  t.cmd = word ∧ t.engine = .idle ∧ t.errCode = code ∧ t.faultAddr = fault ∧
  t.result = BitVec.ofNat 32 result ∧ t.outCount = BitVec.ofNat 32 out ∧
  t.status.done = true ∧ t.status.err = (s.status.err || code != 0) ∧ t.status.drop = s.status.drop ∧
  t.ie = s.ie ∧ t.basePal = s.basePal ∧ t.platform = s.platform ∧ t.inputs = s.inputs ∧ t.lastRead = s.lastRead

/-- A command that fails before every access: `RESULT = 0`, `OUTCOUNT = 0`, parameter registers, `OUT_PAL` and memory as they were
(R204). -/
def failsAtOnce (word : Word) (code : BitVec 8) (s t : State) : Prop :=
  completed word code s.faultAddr 0 0 s t ∧ t.params = s.params ∧ t.outPal = s.outPal ∧
  ∀ a, Memory.read t.mem a = Memory.read s.mem a

/-- The nine meanings of a word written to `CMD` (R83). -/
abbrev isCommand (i : Instr) : Prop := i.bits = 32

/-- The register values as numbers, as the rules name them: `SA`, `SL`, `DA`, `DL` (R110). -/
abbrev State.srcBase (s : State) : Nat := s.params.srcAddr.toNat
abbrev State.srcLen (s : State) : Nat := s.params.srcLen.toNat
abbrev State.dstBase (s : State) : Nat := s.params.dstAddr.toNat
abbrev State.dstLen (s : State) : Nat := s.params.dstLen.toNat

/-- `S`, `W`, `D`, `P0`, `PS`, `G`, `B` (R140, R141). -/
abbrev State.pixelBase (s : State) : Nat := s.params.tpSrc.toNat
abbrev State.width (s : State) : Nat := s.params.tpWidth.toNat
abbrev State.depth (s : State) : Nat := s.params.tpDepth.toNat
abbrev State.planeBase (s : State) : Nat := s.params.tpDst.toNat
abbrev State.planeStride (s : State) : Nat := s.params.tpPstride.toNat
abbrev State.groups (s : State) : Nat := (s.width + 15) / 16
abbrev State.rowBytes (s : State) : Nat := 2 * s.groups

/-- `N`, `R` (R160). -/
abbrev State.colorCount (s : State) : Nat := s.params.nColors.toNat
abbrev State.rangeCount (s : State) : Nat := s.params.nRanges.toNat

/-- Range `k` as the registers hold it (R44, R45). -/
abbrev State.rangeAt (s : State) (k : Nat) : ColourRange := s.params.ranges[k]?.getD ⟨0, 0, false, 0⟩

/-- The source window does not wrap, and the platform answers reads of its bytes (R67, R112, R125). -/
abbrev sourceReady (s : State) : Prop :=
  s.srcBase + s.srcLen ≤ 2 ^ 32 ∧ noBusError s.platform .read s.srcBase s.srcLen

/-- The destination window does not wrap, the platform answers writes of its bytes, and it shares no byte with the source window
(R67, R112, R125). -/
abbrev destReady (s : State) : Prop :=
  s.dstBase + s.dstLen ≤ 2 ^ 32 ∧ noBusError s.platform .write s.dstBase s.dstLen ∧
  disjointWindows s.srcBase s.srcLen s.dstBase s.dstLen

/-- When `COPY` succeeds (R112, R120). -/
abbrev copyReady (s : State) : Prop :=
  s.engine = .idle ∧ Memory.wf s.mem = true ∧ s.dstLen ≤ s.srcLen ∧ sourceReady s ∧ destReady s

/-- The bytes of memory from `a` on are `bs`. -/
abbrev holdsBytes (m : Memory) (a : Nat) (bs : List Byte) : Prop :=
  ∀ j, j < bs.length → Memory.read m (a + j) = bs.getD j 0

/-- A stream of packets that ends with a run stands in the source window, `k` further bytes of any kind follow it there, and the
destination length is what the stream stands for (R127, R113, R128). -/
abbrev streamReady (s : State) (ps : List StreamItem) (k : Nat) : Prop :=
  s.engine = .idle ∧ Memory.wf s.mem = true ∧ sourceReady s ∧
  (∀ p ∈ ps, p.valid = true) ∧ ps.getLast? ≠ some .noop ∧
  s.srcLen = (assemble ps).length + k ∧ s.dstLen = (expand ps).length ∧
  holdsBytes s.mem s.srcBase (assemble ps)

/-- When `TRANSPOSE_ROW` succeeds (R142, R145). -/
abbrev transposeReady (s : State) : Prop :=
  s.engine = .idle ∧ Memory.wf s.mem = true ∧ 1 ≤ s.depth ∧ s.depth ≤ 8 ∧
  s.pixelBase + s.width ≤ 2 ^ 32 ∧ noBusError s.platform .read s.pixelBase s.width ∧
  (∀ p, p < s.depth →
    s.planeBase + p * s.planeStride + s.rowBytes ≤ 2 ^ 32 ∧
    noBusError s.platform .write (s.planeBase + p * s.planeStride) s.rowBytes ∧
    disjointWindows s.pixelBase s.width (s.planeBase + p * s.planeStride) s.rowBytes) ∧
  (s.depth = 1 ∨ s.rowBytes ≤ s.planeStride)

/-- When the checks of `ANIMATE` and `ANIMATE_BLEND` pass (R161, R162). -/
abbrev animateReady (s : State) : Prop :=
  s.engine = .idle ∧ s.colorCount ≤ 256 ∧ s.rangeCount ≤ 16 ∧
  ∀ k, k < s.rangeCount →
    (s.rangeAt k).low.toNat ≤ (s.rangeAt k).high.toNat ∧ (s.rangeAt k).high.toNat < s.colorCount

/-- Entry `i` lies in range `k` (R170). -/
abbrev inRange (s : State) (k i : Nat) : Prop :=
  k < s.rangeCount ∧ (s.rangeAt k).low.toNat ≤ i ∧ i ≤ (s.rangeAt k).high.toNat

/-- Every entry of `BASE_PAL` that the animator reads has been written since power-on (R168, R233, R245). -/
abbrev baseWritten (s : State) : Prop :=
  ∀ j, j < s.colorCount → s.basePal.written[j]?.getD false = true

/-- `BASE_PAL[j]` as an animator issued in `s` latches it: what was written, or the free value of this draw (R46, R245, log 3). -/
abbrev baseColour (s : State) (j : Nat) : Colour := s.basePal.get s.draws j

/-- `scaled_k`, `n_k` and `offset_k` of range `k` (R163, R164). -/
abbrev scaledAt (s : State) (k : Nat) : Word := scaledTicks s.params.elapsed (s.rangeAt k).rate
abbrev countAt (s : State) (k : Nat) : Nat := (s.rangeAt k).high.toNat - (s.rangeAt k).low.toNat + 1
abbrev offsetAt (s : State) (k : Nat) : Nat := cycleOffset (scaledAt s k) (countAt s k) (s.rangeAt k).rev

/-- A byte-run walk whose next control byte is about to be executed: `write` tells `RLE_DECODE` from `RLE_SKIP`, no byte is raced,
memory is canonical (R117). -/
abbrev walkReady (s : State) (r : Running) (write : Bool) : Prop :=
  s.engine = .busy r ∧ walkOf r = some write ∧ r.cur.started = true ∧ r.cur.run = .none ∧
  r.cur.produced < r.ops.dstLen ∧ r.cur.consumed < r.ops.srcLen ∧
  r.stale = [] ∧ r.shielded = [] ∧ Memory.wf s.mem = true

/-- The walk goes on after a packet: `s` and `d` have moved, memory is `m`, nothing else has changed (R114 to R116). -/
def walksOn (s : State) (r : Running) (consumed produced : Nat) (m : Memory) (t : State) : Prop :=
  t = { s with
    mem := m
    engine := .busy { r with cur := { r.cur with consumed := consumed, produced := produced } } }

/-- The bits of a register that a host write sets and a host read shows (R22): its fields. -/
def fieldMask : Reg → Word
  | .tpWidth       => 0x0000FFFF
  | .tpDepth       => 0x0000000F
  | .nColors       => 0x000001FF
  | .nRanges       => 0x0000001F
  | .rangeBounds _ => 0x0001FFFF
  | .rangeRate _   => 0x0000FFFF
  | .basePal _     => 0x00FFFFFF
  | _              => 0xFFFFFFFF

/-- The registers that hold what a host writes to them (R22: RW, apart from `CTRL` and `CMD`, whose writes act). -/
def isParameter : Reg → Bool
  | .id => false
  | .ctrl => false
  | .status => false
  | .errCode => false
  | .cmd => false
  | .result => false
  | .outCount => false
  | .faultAddr => false
  | .outPal _ => false
  | _ => true

/-- The registers a host cannot write (R22: RO). -/
def isReadOnly : Reg → Bool
  | .id => true
  | .errCode => true
  | .result => true
  | .outCount => true
  | .faultAddr => true
  | .outPal _ => true
  | _ => false

/-- A system address of the register window that a 32-bit access may name, and its offset (R23). -/
abbrev windowAt (s : State) (addr : Word) (off : Nat) : Prop :=
  addr.toNat = s.platform.blockBase.toNat + off ∧ off < 0x1000 ∧ off % 4 = 0

end Sys2Proof.Machine
end

