-- ==== Sys2Proof/Certificates/Slice0/Obligations.lean ====
section
/-! DEFINITION. The statements about the model, from the numbered rules of spec/. Each docstring names the rules it formalises;
where a clause rests on a choice of the model, it names the log entry. -/

open Sys2Proof Sys2Proof.Machine

/-! ## Encodings (30_encoding.md) -/

/-- Words and control bytes written out from the tables of R81 and R90 decode to what they stand for. -/
def Obligations.WrittenOutWordsDecode : Prop :=
  decodeTableWord 32 0b00000000000000000000000000000000 = some .nop ∧
  decodeTableWord 32 0b00000000000000000000000000010000 = some .copy ∧
  decodeTableWord 32 0b00000000000000000000000000010011 = some .rleSkip ∧
  decodeTableWord 32 0b00000000000000000000000000100000 = some .transposeRow ∧
  decodeTableWord 32 0b00000000000000000000000000110001 = some .animateBlend ∧
  decodeTableWord 32 0b00000000000000000000000100010001 = some (.illegal 0x111) ∧
  decodeTableWord 8 0b01111111 = some (.literal 127) ∧
  decodeTableWord 8 0b11111011 = some (.repeatRun (-5)) ∧
  decodeTableWord 8 0b10000000 = some .noop

/-- R85: which command words are illegal. -/
def Obligations.IllegalWordsAreThoseOfTheRule : Prop :=
  ∀ w : Word,
    decodeCommand w = .illegal w ↔
      (w.toNat / 256 ≠ 0 ∨ 4 ≤ w.toNat / 16 % 16 ∨
       (w.toNat / 16 % 16 = 0 ∧ 1 ≤ w.toNat % 16) ∨
       (w.toNat / 16 % 16 = 1 ∧ 4 ≤ w.toNat % 16) ∨
       (w.toNat / 16 % 16 = 2 ∧ 1 ≤ w.toNat % 16) ∨
       (w.toNat / 16 % 16 = 3 ∧ 2 ≤ w.toNat % 16))

/-- R81, R83, R90: the decoder reads every encoded well-formed instruction back, with every operand. -/
def Obligations.EncodeThenDecodeGivesTheInstruction : Prop :=
  ∀ i : Instr, i.wellFormed = true → decodeTableWord i.bits (encode i) = some i

/-- R83, R92: every 32-bit word and every control byte decodes to exactly one well-formed instruction, whose word it is. -/
def Obligations.DecodeThenEncodeGivesTheWord : Prop :=
  (∀ w : Word, (decodeCommand w).wellFormed = true ∧ (decodeCommand w).bits = 32 ∧ encode (decodeCommand w) = w.toNat) ∧
  (∀ b : Byte, (decodeControl b).wellFormed = true ∧ (decodeControl b).bits = 8 ∧ encode (decodeControl b) = b.toNat)

/-- R91, in terms of the control byte: the class, the run and the length of a packet. -/
def Obligations.PacketLengthsFollowTheControlByte : Prop :=
  (∀ p : StreamItem, p.valid = true → (p.bytes.getD 0 0).toNat < 0x80 →
    p.output.length = (p.bytes.getD 0 0).toNat + 1 ∧ p.bytes.length = (p.bytes.getD 0 0).toNat + 2) ∧
  (∀ p : StreamItem, p.valid = true → 0x80 < (p.bytes.getD 0 0).toNat →
    p.output.length = 257 - (p.bytes.getD 0 0).toNat ∧ p.bytes.length = 2) ∧
  (∀ p : StreamItem, p.valid = true → (p.bytes.getD 0 0).toNat = 0x80 → p.output = [] ∧ p.bytes.length = 1)

/-- R98: the pseudo-packet `RUN n, v` assembles to valid packets that stand for `n` bytes `v`. -/
def Obligations.RunPseudoPacketExpands : Prop :=
  ∀ (n : Nat) (v : Byte), 1 ≤ n → expand (runItems n v) = List.replicate n v ∧ ∀ p ∈ runItems n v, p.valid = true

/-! ## Reset and the invariant -/

/-- R230, R232: after power-on reset every register holds the value of its reset column, the engine is Idle, no command is in progress, the
interrupt output is deasserted, and the block waits for a command; a power-on of any state leaves the same registers. Every palette entry
is unspecified: a read gives a free value. The model's own: that free value (log 3), that a step of the waiting block leaves the state as
it is (log 14), and that a power-on, of a Busy block too, keeps system memory, the platform, the schedule and the last answer (log 19:
R232 says that reset writes nothing to memory, and leaves the platform's own reset of memory and of `BLOCK_BASE` open). -/
def Obligations.ResetHoldsTheResetColumn : Prop :=
  step State.reset = .next State.reset ∧
  (∀ s : State, ∃ t, handle .powerOn s = .next t ∧ t.mem = s.mem ∧ t.platform = s.platform ∧
    t = { State.reset with
      mem := s.mem, platform := s.platform, inputs := s.inputs, lastRead := s.lastRead, draws := t.draws }) ∧
  ∀ t : State, t = State.reset ∨ (∃ s, handle .powerOn s = .next t) →
    readReg t .id = 0x53435831 ∧
    (∀ r : Reg, r ≠ .id → (∀ i, r ≠ .basePal i) → (∀ i, r ≠ .outPal i) → readReg t r = 0) ∧
    t.engine = .idle ∧ irqLevel t = false ∧
    ∀ n i : Nat, t.basePal.get n i = Config.freeColour n i ∧ t.outPal.get n i = Config.freeColour n i

/-- The invariant holds after reset. -/
def Obligations.ResetMeetsTheMachineInvariant : Prop := State.reset.Inv

/-- Every step keeps the invariant: memory stays canonical, `ERRCODE` holds a code of R200, and what the engine holds stays what
R51 and R202 say. -/
def Obligations.StepKeepsTheMachineInvariant : Prop :=
  ∀ s t : State, s.Inv → step s = .next t → t.Inv

/-! ## Steps and instructions -/

/-- A step of a Busy engine that nothing interrupts runs the latched command word (R51, R247) to what `outcome` names, and an Idle block
waits (R230). An animator that reads a base colour never written stops with a fault instead (R245). The form of the schedule is the model's (log 1), and so are `exec` on a Busy engine (log 13) and that a step of a waiting
block leaves the whole state as it is (log 14). -/
def Obligations.StepRunsTheLatchedCommand : Prop :=
  (∀ (s : State) (r : Running), s.engine = .busy r →
    (s.inputs = [] → step s = exec (decodeCommand r.word) s) ∧
    (∀ es, s.inputs = .engine .all :: es → step s = exec (decodeCommand r.word) { s with inputs := es }) ∧
    exec (decodeCommand r.word) s = if s.readsUnwritten then .fault .unwrittenBasePal else .next (outcome s)) ∧
  ∀ s : State, s.engine = .idle → s.inputs = [] → step s = .next s

/-- A step of a walk that is about to read a control byte, when it is granted a packet, runs the packet that the byte at `SA + s` selects
(R117). That the schedule can grant a whole packet in one step, beside single accesses, is the model's choice (log 1). -/
def Obligations.StepRunsTheFetchedPacket : Prop :=
  ∀ (s : State) (r : Running) (write : Bool) (es : List Event), walkReady s r write → s.inputs = .engine .packet :: es →
    busError s.platform .read (r.ops.srcBase + r.cur.consumed) = false →
    step s =
      exec (decodeControl (Memory.read s.mem (r.ops.srcBase + r.cur.consumed))) { s with inputs := es }

/-- A word laid by `withFetchWord` is what the next step runs, from the rest of the schedule (log 10). -/
def Obligations.PlacedWordIsRunByTheNextStep : Prop :=
  ∀ (s : State) (w : Nat),
    step (s.withFetchWord 32 w) =
      exec (decodeCommand (BitVec.ofNat 32 w)) { s.withFetchWord 32 w with inputs := s.inputs } ∧
    (Memory.wf s.mem = true →
      step (s.withFetchWord 8 w) =
        exec (decodeControl (BitVec.ofNat 8 w)) { s.withFetchWord 8 w with inputs := s.inputs })

/-- R248: every command completes, from every state: the engine is Idle and `DONE` is set. The one exception is R245's: an animator that
reads a base colour never written since power-on stops with a fault. That `exec` of a word on a Busy engine runs the rest of the running
command is the model's (log 13). -/
def Obligations.EveryCommandCompletes : Prop :=
  ∀ (i : Instr) (s : State), isCommand i →
    if (i = .animate ∨ i = .animateBlend) ∧ (accept (commandWord i) s).readsUnwritten = true then
      exec i s = .fault .unwrittenBasePal
    else ∃ t, exec i s = .next t ∧ t.engine = .idle ∧ t.status.done = true

/-- R247, R64, R69: no result depends on how many steps a command takes. Whatever an engine move leaves, be it one access, one packet or
more, running the rest ends as running the whole command at once ends. -/
def Obligations.UnitsThenTheRestIsTheWholeCommand : Prop :=
  ∀ (s t u : State) (r : Running) (g : Grant), s.engine = .busy r → engineStep g s = .next u → runStep s = .next t →
    (u.engine = .idle → u = t) ∧ (u.engine ≠ .idle → runStep u = .next t)

/-! ## Control commands (43_control.md) -/

/-- R180: `NOP`. -/
def Obligations.NopCompletes : Prop :=
  ∀ s : State, s.engine = .idle →
    ∃ t, exec .nop s = .next t ∧ failsAtOnce 0x00000000 0x00 s t

/-- R181: an illegal word completes with `ILLEGAL`, and `CMD` keeps it. -/
def Obligations.IllegalWordCompletesWithItsCode : Prop :=
  ∀ (s : State) (w : Word), s.engine = .idle →
    ∃ t, exec (.illegal w) s = .next t ∧ failsAtOnce w 0x01 s t

/-! ## The codec (40_codec.md) -/

/-- R120, R124: a `COPY` that meets no error copies `DST_LEN` bytes, advances the three cursor registers and changes nothing else. -/
def Obligations.CopyMovesTheBytes : Prop :=
  ∀ s : State, copyReady s →
    ∃ t, exec .copy s = .next t ∧
      completed 0x00000010 0x00 s.faultAddr s.dstLen s.dstLen s t ∧
      t.params = { s.params with
        srcAddr := s.params.srcAddr + s.params.dstLen
        srcLen  := s.params.srcLen - s.params.dstLen
        dstAddr := s.params.dstAddr + s.params.dstLen } ∧
      t.outPal = s.outPal ∧
      ∀ a, Memory.read t.mem a =
        if s.dstBase ≤ a ∧ a < s.dstBase + s.dstLen then Memory.read s.mem (s.srcBase + (a - s.dstBase))
        else Memory.read s.mem a

/-- R112, R120, R202: the checks of `COPY`, in their order: `ADDR`, `OVERLAP`, `SRC_OVERRUN`. -/
def Obligations.CopyChecksInOrder : Prop :=
  ∀ s : State, s.engine = .idle →
    (2 ^ 32 < s.srcBase + s.srcLen ∨ 2 ^ 32 < s.dstBase + s.dstLen →
      ∃ t, exec .copy s = .next t ∧ failsAtOnce 0x00000010 0x03 s t) ∧
    (s.srcBase + s.srcLen ≤ 2 ^ 32 → s.dstBase + s.dstLen ≤ 2 ^ 32 →
      0 < s.srcLen → 0 < s.dstLen → s.srcBase < s.dstBase + s.dstLen → s.dstBase < s.srcBase + s.srcLen →
      ∃ t, exec .copy s = .next t ∧ failsAtOnce 0x00000010 0x04 s t) ∧
    (s.srcBase + s.srcLen ≤ 2 ^ 32 → s.dstBase + s.dstLen ≤ 2 ^ 32 →
      disjointWindows s.srcBase s.srcLen s.dstBase s.dstLen → s.srcLen < s.dstLen →
      ∃ t, exec .copy s = .next t ∧ failsAtOnce 0x00000010 0x05 s t)

/-- R112, R202: the pre-checks of `RLE_DECODE` (`ADDR`, then `OVERLAP`) and of `RLE_SKIP` (`ADDR` of the source window alone). -/
def Obligations.WalkChecksInOrder : Prop :=
  ∀ s : State, s.engine = .idle →
    (2 ^ 32 < s.srcBase + s.srcLen ∨ 2 ^ 32 < s.dstBase + s.dstLen →
      ∃ t, exec .rleDecode s = .next t ∧ failsAtOnce 0x00000011 0x03 s t) ∧
    (s.srcBase + s.srcLen ≤ 2 ^ 32 → s.dstBase + s.dstLen ≤ 2 ^ 32 →
      0 < s.srcLen → 0 < s.dstLen → s.srcBase < s.dstBase + s.dstLen → s.dstBase < s.srcBase + s.srcLen →
      ∃ t, exec .rleDecode s = .next t ∧ failsAtOnce 0x00000011 0x04 s t) ∧
    (2 ^ 32 < s.srcBase + s.srcLen →
      ∃ t, exec .rleSkip s = .next t ∧ failsAtOnce 0x00000013 0x03 s t)

/-- R122, R124: `SKIP`, in its three cases. `DST_ADDR` is neither read nor changed. -/
def Obligations.SkipCountsWithoutAccess : Prop :=
  ∀ s : State, s.engine = .idle →
    (2 ^ 32 < s.srcBase + s.srcLen →
      ∃ t, exec .skip s = .next t ∧ failsAtOnce 0x00000012 0x03 s t) ∧
    (s.srcBase + s.srcLen ≤ 2 ^ 32 → s.srcLen < s.dstLen →
      ∃ t, exec .skip s = .next t ∧ failsAtOnce 0x00000012 0x05 s t) ∧
    (s.srcBase + s.srcLen ≤ 2 ^ 32 → s.dstLen ≤ s.srcLen →
      ∃ t, exec .skip s = .next t ∧
        completed 0x00000012 0x00 s.faultAddr s.dstLen s.dstLen s t ∧
        t.params = { s.params with
          srcAddr := s.params.srcAddr + s.params.dstLen
          srcLen  := s.params.srcLen - s.params.dstLen } ∧
        t.outPal = s.outPal ∧ ∀ a, Memory.read t.mem a = Memory.read s.mem a)

/-- R127, R113, R124, R128: `RLE_DECODE` of a stream writes what the stream stands for and nothing else. `RESULT` is the length of the
stream up to its last run, and bytes of the source window after it, `NOOP` packets or others, are left for the next command. -/
def Obligations.DecodingAStreamWritesItsOutput : Prop :=
  ∀ (s : State) (ps : List StreamItem) (k : Nat), streamReady s ps k → destReady s →
    ∃ t, exec .rleDecode s = .next t ∧
      completed 0x00000011 0x00 s.faultAddr (assemble ps).length (expand ps).length s t ∧
      t.params = { s.params with
        srcAddr := s.params.srcAddr + BitVec.ofNat 32 (assemble ps).length
        srcLen  := BitVec.ofNat 32 k
        dstAddr := s.params.dstAddr + s.params.dstLen } ∧
      t.outPal = s.outPal ∧
      ∀ a, Memory.read t.mem a =
        if s.dstBase ≤ a ∧ a < s.dstBase + s.dstLen then (expand ps).getD (a - s.dstBase) 0 else Memory.read s.mem a

/-- R123, R113, R124, R128: `RLE_SKIP` of a stream consumes and counts the same and writes nothing, whatever follows the last run. -/
def Obligations.SkippingAStreamCountsItsOutput : Prop :=
  ∀ (s : State) (ps : List StreamItem) (k : Nat), streamReady s ps k →
    ∃ t, exec .rleSkip s = .next t ∧
      completed 0x00000013 0x00 s.faultAddr (assemble ps).length (expand ps).length s t ∧
      t.params = { s.params with
        srcAddr := s.params.srcAddr + BitVec.ofNat 32 (assemble ps).length
        srcLen  := BitVec.ofNat 32 k } ∧
      t.outPal = s.outPal ∧ ∀ a, Memory.read t.mem a = Memory.read s.mem a

/-- R126: for the same `SA`, `SL`, `DL` and the same source bytes, with no bus error and with the pre-checks of the decode passing,
`RLE_SKIP` ends with the same error code, `RESULT` and `OUTCOUNT` as `RLE_DECODE`, and `SKIP` as `COPY`. The two may start in two states
that differ in all else. -/
def Obligations.SkipEqualsDecode : Prop :=
  ∀ s₁ s₂ t u : State, s₁.engine = .idle → s₂.engine = .idle → Memory.wf s₁.mem = true →
    sourceReady s₁ → destReady s₁ → sourceReady s₂ →
    s₂.params.srcAddr = s₁.params.srcAddr → s₂.params.srcLen = s₁.params.srcLen → s₂.params.dstLen = s₁.params.dstLen →
    (∀ j, j < s₁.srcLen → Memory.read s₂.mem (s₁.srcBase + j) = Memory.read s₁.mem (s₁.srcBase + j)) →
    (exec .rleDecode s₁ = .next t → exec .rleSkip s₂ = .next u →
      u.errCode = t.errCode ∧ u.result = t.result ∧ u.outCount = t.outCount) ∧
    (exec .copy s₁ = .next t → exec .skip s₂ = .next u →
      u.errCode = t.errCode ∧ u.result = t.result ∧ u.outCount = t.outCount)

/-- R114: a `LITERAL` packet in a walk. Decode copies `c + 1` bytes, skip passes over them. -/
def Obligations.LiteralPacketCopiesItsBytes : Prop :=
  ∀ (s : State) (r : Running) (write : Bool) (c : Nat), walkReady s r write →
    c + 1 ≤ r.ops.dstLen - r.cur.produced → c + 1 ≤ r.ops.srcLen - (r.cur.consumed + 1) →
    (write = true →
      noBusError s.platform .read (r.ops.srcBase + r.cur.consumed + 1) (c + 1) ∧
      noBusError s.platform .write (r.ops.dstBase + r.cur.produced) (c + 1) ∧
      disjointWindows (r.ops.srcBase + r.cur.consumed + 1) (c + 1) (r.ops.dstBase + r.cur.produced) (c + 1)) →
    ∃ t m, exec (.literal c) s = .next t ∧
      walksOn s r (r.cur.consumed + 1 + (c + 1)) (r.cur.produced + (c + 1)) m t ∧
      ∀ a, Memory.read m a =
        if write = true ∧ r.ops.dstBase + r.cur.produced ≤ a ∧ a < r.ops.dstBase + r.cur.produced + (c + 1) then
          Memory.read s.mem (r.ops.srcBase + r.cur.consumed + 1 + (a - (r.ops.dstBase + r.cur.produced)))
        else Memory.read s.mem a

/-- R115: a `REPEAT` packet in a walk. Decode writes the next source byte `1 - c` times, skip passes over it. -/
def Obligations.RepeatPacketFillsItsRun : Prop :=
  ∀ (s : State) (r : Running) (write : Bool) (c : Int), walkReady s r write → -127 ≤ c → c ≤ -1 →
    (1 - c).toNat ≤ r.ops.dstLen - r.cur.produced → 1 ≤ r.ops.srcLen - (r.cur.consumed + 1) →
    (write = true →
      busError s.platform .read (r.ops.srcBase + r.cur.consumed + 1) = false ∧
      noBusError s.platform .write (r.ops.dstBase + r.cur.produced) (1 - c).toNat) →
    ∃ t m, exec (.repeatRun c) s = .next t ∧
      walksOn s r (r.cur.consumed + 1 + 1) (r.cur.produced + (1 - c).toNat) m t ∧
      ∀ a, Memory.read m a =
        if write = true ∧ r.ops.dstBase + r.cur.produced ≤ a ∧ a < r.ops.dstBase + r.cur.produced + (1 - c).toNat then
          Memory.read s.mem (r.ops.srcBase + r.cur.consumed + 1)
        else Memory.read s.mem a

/-- R116: a `NOOP` packet in a walk changes only `s`, by the 1 of its control byte. -/
def Obligations.NoopPacketConsumesOneByte : Prop :=
  ∀ (s : State) (r : Running) (write : Bool), walkReady s r write →
    ∃ t, exec .noop s = .next t ∧ walksOn s r (r.cur.consumed + 1) r.cur.produced s.mem t

/-- R118: a run longer than the output bytes left ends the command with `OVERSHOOT`, whatever source is left: nothing of the run is
read or written, `s` counts the control byte, `d` is unchanged. -/
def Obligations.OvershootEndsTheCommand : Prop :=
  ∀ (s : State) (r : Running) (write : Bool), walkReady s r write →
    (∀ c : Nat, r.ops.dstLen - r.cur.produced < c + 1 →
      ∃ t, exec (.literal c) s = .next t ∧
        completed s.cmd 0x06 s.faultAddr (r.cur.consumed + 1) r.cur.produced s t ∧
        t.params = s.params ∧ t.outPal = s.outPal ∧ t.mem = s.mem) ∧
    (∀ c : Int, -127 ≤ c → c ≤ -1 → r.ops.dstLen - r.cur.produced < (1 - c).toNat →
      ∃ t, exec (.repeatRun c) s = .next t ∧
        completed s.cmd 0x06 s.faultAddr (r.cur.consumed + 1) r.cur.produced s t ∧
        t.params = s.params ∧ t.outPal = s.outPal ∧ t.mem = s.mem)

/-- R119: a run whose data bytes are more than the source left ends the command with `SRC_OVERRUN`, or with `OVERSHOOT` if that applies
too, before any of them is read or written; and a walk that needs a control byte when `s = SL` ends with `SRC_OVERRUN`. -/
def Obligations.ExhaustedSourceEndsTheCommand : Prop :=
  ∀ (s : State) (r : Running) (write : Bool),
    (walkReady s r write →
      (∀ c : Nat, r.ops.srcLen - (r.cur.consumed + 1) < c + 1 →
        ∃ t, exec (.literal c) s = .next t ∧
          completed s.cmd (if r.ops.dstLen - r.cur.produced < c + 1 then 0x06 else 0x05) s.faultAddr
            (r.cur.consumed + 1) r.cur.produced s t ∧
          t.params = s.params ∧ t.outPal = s.outPal ∧ t.mem = s.mem) ∧
      (∀ c : Int, -127 ≤ c → c ≤ -1 → r.ops.srcLen - (r.cur.consumed + 1) < 1 →
        ∃ t, exec (.repeatRun c) s = .next t ∧
          completed s.cmd (if r.ops.dstLen - r.cur.produced < (1 - c).toNat then 0x06 else 0x05) s.faultAddr
            (r.cur.consumed + 1) r.cur.produced s t ∧
          t.params = s.params ∧ t.outPal = s.outPal ∧ t.mem = s.mem)) ∧
    (s.engine = .busy r → walkOf r = some write → r.cur.started = true → r.cur.run = .none →
      r.cur.produced < r.ops.dstLen → r.cur.consumed = r.ops.srcLen →
      ∀ g : Grant, ∃ t, engineStep g s = .next t ∧
        completed s.cmd 0x05 s.faultAddr r.cur.consumed r.cur.produced s t ∧
        t.params = s.params ∧ t.outPal = s.outPal ∧ t.mem = s.mem)

/-- R117: a control byte has a meaning only where a walk is about to read one; elsewhere its meaning stops with the fault of log 11
(the model's choice). -/
def Obligations.PacketOutsideAWalkFaults : Prop :=
  ∀ s : State, walking s = none →
    (∀ c, exec (.literal c) s = .fault .packetOutsideWalk) ∧
    (∀ c, exec (.repeatRun c) s = .fault .packetOutsideWalk) ∧
    exec .noop s = .fault .packetOutsideWalk

/-- R125: a codec command that ends with `BUS` stopped at the source byte after those it counted as read, or at the output byte after
those it counted as written; `FAULT_ADDR` is that address, and the cursor registers keep their issue values. An `RLE_DECODE` of a stream
keeps the `OUTCOUNT` output bytes it wrote before, and every other byte is unchanged. The other way round, a bus error does end the command:
whatever the ending of a `COPY` or `RLE_DECODE`, no access that it counted meets a bus error, none to the destination window if it
succeeds, and a walk whose next control byte meets one ends with `BUS` there. -/
def Obligations.CodecBusErrorStopsAtItsAccess : Prop :=
  (∀ (i : Instr) (s t : State), i = .copy ∨ i = .rleDecode ∨ i = .rleSkip → s.engine = .idle →
    exec i s = .next t → t.errCode = 0x08 →
    t.params = s.params ∧
    ((busError s.platform .read (s.srcBase + t.result.toNat) = true ∧
        t.faultAddr.toNat = s.srcBase + t.result.toNat ∧ t.result.toNat < s.srcLen) ∨
     (i ≠ .rleSkip ∧ busError s.platform .write (s.dstBase + t.outCount.toNat) = true ∧
        t.faultAddr.toNat = s.dstBase + t.outCount.toNat ∧ t.outCount.toNat < s.dstLen)) ∧
    (i = .rleDecode → Memory.wf s.mem = true →
      ∀ ps : List StreamItem, (∀ p ∈ ps, p.valid = true) → (assemble ps).length ≤ s.srcLen →
        s.dstLen ≤ (expand ps).length → holdsBytes s.mem s.srcBase (assemble ps) →
        ∀ a, Memory.read t.mem a =
          if s.dstBase ≤ a ∧ a < s.dstBase + t.outCount.toNat then (expand ps).getD (a - s.dstBase) 0
          else Memory.read s.mem a)) ∧
  (∀ (i : Instr) (s t : State), i = .copy ∨ i = .rleDecode → s.engine = .idle → exec i s = .next t →
    noBusError s.platform .read s.srcBase t.result.toNat ∧ noBusError s.platform .write s.dstBase t.outCount.toNat ∧
    (t.errCode = 0 → noBusError s.platform .write s.dstBase s.dstLen)) ∧
  ∀ (s : State) (r : Running) (write : Bool) (g : Grant), walkReady s r write →
    busError s.platform .read (r.ops.srcBase + r.cur.consumed) = true →
    ∃ t, engineStep g s = .next t ∧
      completed s.cmd 0x08 (BitVec.ofNat 32 (r.ops.srcBase + r.cur.consumed)) r.cur.consumed r.cur.produced s t ∧
      t.params = s.params ∧ t.outPal = s.outPal ∧ t.mem = s.mem

/-- R125: a bus error on the read or on the write of byte `k` of a `COPY` leaves the `k` bytes before it copied, counted, and nothing
after; a read that completed counts although its write failed. -/
def Obligations.CopyKeepsBytesBeforeABusError : Prop :=
  ∀ (s : State) (k : Nat),
    s.engine = .idle → Memory.wf s.mem = true → s.dstLen ≤ s.srcLen → k < s.dstLen →
    s.srcBase + s.srcLen ≤ 2 ^ 32 → s.dstBase + s.dstLen ≤ 2 ^ 32 →
    disjointWindows s.srcBase s.srcLen s.dstBase s.dstLen →
    noBusError s.platform .read s.srcBase k → noBusError s.platform .write s.dstBase k →
    (busError s.platform .read (s.srcBase + k) = true →
      ∃ t, exec .copy s = .next t ∧
        completed 0x00000010 0x08 (BitVec.ofNat 32 (s.srcBase + k)) k k s t ∧
        t.params = s.params ∧ t.outPal = s.outPal ∧
        ∀ a, Memory.read t.mem a =
          if s.dstBase ≤ a ∧ a < s.dstBase + k then Memory.read s.mem (s.srcBase + (a - s.dstBase))
          else Memory.read s.mem a) ∧
    (busError s.platform .read (s.srcBase + k) = false → busError s.platform .write (s.dstBase + k) = true →
      ∃ t, exec .copy s = .next t ∧
        completed 0x00000010 0x08 (BitVec.ofNat 32 (s.dstBase + k)) (k + 1) k s t ∧
        t.params = s.params ∧ t.outPal = s.outPal ∧
        ∀ a, Memory.read t.mem a =
          if s.dstBase ≤ a ∧ a < s.dstBase + k then Memory.read s.mem (s.srcBase + (a - s.dstBase))
          else Memory.read s.mem a)

/-! ## The transpose (41_transpose.md) -/

/-- R143 to R147, R62: a `TRANSPOSE_ROW` that meets no error. Bit `7 - x` of byte `q` of plane `p`'s row is bit `p` of pixel
`8q + x`, 0 from pixel `W` on; no other byte changes; `TP_DST` advances by `B`. -/
def Obligations.TransposeRowWritesThePlanes : Prop :=
  ∀ s : State, transposeReady s →
    ∃ t, exec .transposeRow s = .next t ∧
      completed 0x00000020 0x00 s.faultAddr s.width (s.depth * s.rowBytes) s t ∧
      t.params = { s.params with tpDst := s.params.tpDst + BitVec.ofNat 32 s.rowBytes } ∧
      t.outPal = s.outPal ∧
      (∀ p q x, p < s.depth → q < s.rowBytes → x < 8 →
        (Memory.read t.mem (s.planeBase + p * s.planeStride + q)).getLsbD (7 - x) =
          (decide (8 * q + x < s.width) && (Memory.read s.mem (s.pixelBase + (8 * q + x))).getLsbD p)) ∧
      ∀ a, (∀ p, p < s.depth →
          ¬ (s.planeBase + p * s.planeStride ≤ a ∧ a < s.planeBase + p * s.planeStride + s.rowBytes)) →
        Memory.read t.mem a = Memory.read s.mem a

/-- R142, R145, R202: the checks of `TRANSPOSE_ROW`, in their order: `ARG`, `ADDR`, `OVERLAP`. -/
def Obligations.TransposeChecksInOrder : Prop :=
  ∀ s : State, s.engine = .idle →
    (s.depth < 1 ∨ 8 < s.depth →
      ∃ t, exec .transposeRow s = .next t ∧ failsAtOnce 0x00000020 0x02 s t) ∧
    (1 ≤ s.depth → s.depth ≤ 8 →
      (2 ^ 32 < s.pixelBase + s.width ∨
        ∃ p, p < s.depth ∧ 2 ^ 32 < s.planeBase + p * s.planeStride + s.rowBytes) →
      ∃ t, exec .transposeRow s = .next t ∧ failsAtOnce 0x00000020 0x03 s t) ∧
    (1 ≤ s.depth → s.depth ≤ 8 → s.pixelBase + s.width ≤ 2 ^ 32 →
      (∀ p, p < s.depth → s.planeBase + p * s.planeStride + s.rowBytes ≤ 2 ^ 32) →
      ((∃ p, p < s.depth ∧ ¬ disjointWindows s.pixelBase s.width (s.planeBase + p * s.planeStride) s.rowBytes) ∨
        (1 < s.depth ∧ 0 < s.rowBytes ∧ s.planeStride < s.rowBytes)) →
      ∃ t, exec .transposeRow s = .next t ∧ failsAtOnce 0x00000020 0x04 s t)

/-- R144, R148, R149: the merge-exchange network and the final permutation compute the transpose of every group. -/
def Obligations.NetworkComputesTheTranspose : Prop :=
  ∀ px : List Byte, px.length = 16 → networkPlanes px = (List.range 8).map (planeWord px)

/-- R153: for pixels below `2^D`, every pixel of the row is recovered from the plane rows that `TRANSPOSE_ROW` writes; the places from
`W` on inside the last group decode as 0. -/
def Obligations.TransposeRowIsInvertible : Prop :=
  ∀ (s : State) (j : Nat), transposeReady s → j < 16 * s.groups →
    (j < s.width → (Memory.read s.mem (s.pixelBase + j)).toNat < 2 ^ s.depth) →
    ∃ t, exec .transposeRow s = .next t ∧
      ((List.range s.depth).map fun p =>
        (Memory.read t.mem (s.planeBase + p * s.planeStride + j / 8)).toNat / 2 ^ (7 - j % 8) % 2 * 2 ^ p).sum =
        if j < s.width then (Memory.read s.mem (s.pixelBase + j)).toNat else 0

/-- R151: a `TRANSPOSE_ROW` that ends with `BUS` stopped at the pixel after those it counted as read, or at the plane byte after those
it counted as written, in the order of R66; `FAULT_ADDR` is that address and `TP_DST` is unchanged. The plane bytes it counted as written
keep their new values, and the plane bytes after them are unchanged. The other way round, a bus error does end the command: whatever
its ending, no access that it counted meets a bus error, and if it succeeds none to the pixels or the plane rows does. -/
def Obligations.TransposeBusErrorStopsAtItsAccess : Prop :=
  (∀ s t : State, s.engine = .idle → exec .transposeRow s = .next t → t.errCode = 0x08 →
    t.params = s.params ∧
    ((busError s.platform .read (s.pixelBase + t.result.toNat) = true ∧
        t.faultAddr.toNat = s.pixelBase + t.result.toNat ∧ t.result.toNat < s.width) ∨
     (∃ g p h, g < s.groups ∧ p < s.depth ∧ h < 2 ∧ t.outCount.toNat = 2 * s.depth * g + 2 * p + h ∧
        busError s.platform .write (s.planeBase + p * s.planeStride + 2 * g + h) = true ∧
        t.faultAddr.toNat = s.planeBase + p * s.planeStride + 2 * g + h)) ∧
    (Memory.wf s.mem = true →
      ∀ g p h, g < s.groups → p < s.depth → h < 2 →
        (2 * s.depth * g + 2 * p + h < t.outCount.toNat →
          ∀ x, x < 8 →
            (Memory.read t.mem (s.planeBase + p * s.planeStride + 2 * g + h)).getLsbD (7 - x) =
              (decide (16 * g + 8 * h + x < s.width) &&
                (Memory.read s.mem (s.pixelBase + (16 * g + 8 * h + x))).getLsbD p)) ∧
        (t.outCount.toNat ≤ 2 * s.depth * g + 2 * p + h →
          Memory.read t.mem (s.planeBase + p * s.planeStride + 2 * g + h) =
            Memory.read s.mem (s.planeBase + p * s.planeStride + 2 * g + h)))) ∧
  ∀ s t : State, s.engine = .idle → exec .transposeRow s = .next t →
    noBusError s.platform .read s.pixelBase t.result.toNat ∧
    (∀ g p h, g < s.groups → p < s.depth → h < 2 → 2 * s.depth * g + 2 * p + h < t.outCount.toNat →
      busError s.platform .write (s.planeBase + p * s.planeStride + 2 * g + h) = false) ∧
    (t.errCode = 0 →
      noBusError s.platform .read s.pixelBase s.width ∧
      ∀ p, p < s.depth → noBusError s.platform .write (s.planeBase + p * s.planeStride) s.rowBytes)

/-! ## The animator (42_animator.md) -/

/-- R163, R164, R166: time scaling as arithmetic modulo 2^32, offset and direction, and the blend weight, of a range `low ≤ high`. -/
def Obligations.TicksGiveOffsetAndWeight : Prop :=
  (∀ (e : Word) (rate : Half),
    (scaledTicks e rate).toNat =
      (e.toNat / 2 ^ 16 * (rate.toNat * 4) % 2 ^ 32 + e.toNat % 2 ^ 16 * rate.toNat / 2 ^ 14) % 2 ^ 32) ∧
  (∀ (scaled : Word) (r : ColourRange), r.low.toNat ≤ r.high.toNat →
    r.count = r.high.toNat - r.low.toNat + 1 ∧ 1 ≤ r.count ∧ r.count ≤ 256 ∧
    cycleOffset scaled r.count true = scaled.toNat / 2 ^ 16 % r.count ∧
    cycleOffset scaled r.count false = (r.count - scaled.toNat / 2 ^ 16 % r.count) % r.count) ∧
  ∀ scaled : Word, blendWeight scaled = scaled.toNat / 2 ^ 8 % 256

/-- R167: each channel of a blend, and the packed form of the source, which gives the same colour. -/
def Obligations.BlendWeighsEachChannel : Prop :=
  ∀ (c0 c1 : Colour) (w : Nat), w ≤ 255 →
    (blend c0 c1 w).toNat / 2 ^ 16 = (c0.toNat / 2 ^ 16 * (256 - w) + c1.toNat / 2 ^ 16 * w) / 256 ∧
    (blend c0 c1 w).toNat / 2 ^ 8 % 256 =
      (c0.toNat / 2 ^ 8 % 256 * (256 - w) + c1.toNat / 2 ^ 8 % 256 * w) / 256 ∧
    (blend c0 c1 w).toNat % 256 = (c0.toNat % 256 * (256 - w) + c1.toNat % 256 * w) / 256 ∧
    blendPacked c0 c1 w = (blend c0 c1 w).toNat

/-- R165, R168, R170, R171: `ANIMATE` that meets no error. An entry in no range is its base colour; an entry in ranges has the value
of the highest-indexed of them; entries from `N` on keep theirs. R245: where one of the base colours `0..N-1` has never been written, the
engine's read of it is a fault. -/
def Obligations.AnimateRotatesTheRanges : Prop :=
  ∀ s : State, animateReady s →
    (¬ baseWritten s → exec .animate s = .fault .unwrittenBasePal) ∧
    (baseWritten s → ∃ t, exec .animate s = .next t ∧
      completed 0x00000030 0x00 s.faultAddr 0 s.colorCount s t ∧
      t.params = s.params ∧ t.mem = s.mem ∧
      (∀ n i, i < s.colorCount → (∀ k, ¬ inRange s k i) → t.outPal.get n i = baseColour s i) ∧
      (∀ n i k, inRange s k i → (∀ j, k < j → ¬ inRange s j i) →
        t.outPal.get n i =
          baseColour s ((s.rangeAt k).low.toNat +
            (i - (s.rangeAt k).low.toNat + offsetAt s k) % countAt s k)) ∧
      ∀ n i, s.colorCount ≤ i → t.outPal.get n i = s.outPal.get n i)

/-- R167, R169, R170, R171, R245: `ANIMATE_BLEND` that meets no error, likewise, with the blend of an entry and its predecessor. -/
def Obligations.AnimateBlendMixesNeighbours : Prop :=
  ∀ s : State, animateReady s →
    (¬ baseWritten s → exec .animateBlend s = .fault .unwrittenBasePal) ∧
    (baseWritten s → ∃ t, exec .animateBlend s = .next t ∧
      completed 0x00000031 0x00 s.faultAddr 0 s.colorCount s t ∧
      t.params = s.params ∧ t.mem = s.mem ∧
      (∀ n i, i < s.colorCount → (∀ k, ¬ inRange s k i) → t.outPal.get n i = baseColour s i) ∧
      (∀ n i k, inRange s k i → (∀ j, k < j → ¬ inRange s j i) →
        t.outPal.get n i =
          blend
            (baseColour s ((s.rangeAt k).low.toNat +
              (i - (s.rangeAt k).low.toNat + offsetAt s k) % countAt s k))
            (baseColour s ((s.rangeAt k).low.toNat +
              ((i - (s.rangeAt k).low.toNat + offsetAt s k) % countAt s k + countAt s k - 1) % countAt s k))
            (blendWeight (scaledAt s k))) ∧
      ∀ n i, s.colorCount ≤ i → t.outPal.get n i = s.outPal.get n i)

/-- R161, R162, R202: the checks of both animator commands, in their order: `ARG`, then `RANGE`. -/
def Obligations.AnimatorChecksInOrder : Prop :=
  ∀ s : State, s.engine = .idle →
    (256 < s.colorCount ∨ 16 < s.rangeCount →
      (∃ t, exec .animate s = .next t ∧ failsAtOnce 0x00000030 0x02 s t) ∧
      ∃ t, exec .animateBlend s = .next t ∧ failsAtOnce 0x00000031 0x02 s t) ∧
    (s.colorCount ≤ 256 → s.rangeCount ≤ 16 →
      (∃ k, k < s.rangeCount ∧
        ¬ ((s.rangeAt k).low.toNat ≤ (s.rangeAt k).high.toNat ∧ (s.rangeAt k).high.toNat < s.colorCount)) →
      (∃ t, exec .animate s = .next t ∧ failsAtOnce 0x00000030 0x07 s t) ∧
      ∃ t, exec .animateBlend s = .next t ∧ failsAtOnce 0x00000031 0x07 s t)

/-- R172: the table depends only on the operands of R160, and no command changes `AN_ELAPSED`. Two Idle states that agree on the operands,
and have written the first `N` base colours, get the same code and the same first `N` entries. R245: an animator that completes has
read no base colour never written, so no free value shows: the state after it is the same whatever the number of the next draw (log 4). -/
def Obligations.AnimatorKeepsNoState : Prop :=
  (∀ (i : Instr) (s₁ s₂ t₁ t₂ : State), i = .animate ∨ i = .animateBlend →
    s₁.engine = .idle → s₂.engine = .idle →
    s₁.params.nColors = s₂.params.nColors → s₁.params.nRanges = s₂.params.nRanges →
    s₁.params.elapsed = s₂.params.elapsed → (∀ k, k < s₁.rangeCount → s₁.rangeAt k = s₂.rangeAt k) →
    (∀ j, j < min s₁.colorCount 256 → ∀ n m, s₁.basePal.get n j = s₂.basePal.get m j) →
    exec i s₁ = .next t₁ → exec i s₂ = .next t₂ →
    t₁.errCode = t₂.errCode ∧
    (t₁.errCode = 0 → ∀ n m j, j < s₁.colorCount → t₁.outPal.get n j = t₂.outPal.get m j)) ∧
  (∀ (i : Instr) (s t u : State) (n : Nat), i = .animate ∨ i = .animateBlend → s.engine = .idle →
    exec i s = .next t → exec i { s with draws := n } = .next u → u = { t with draws := u.draws }) ∧
  ∀ (i : Instr) (s t : State), isCommand i → s.engine = .idle → exec i s = .next t → t.params.elapsed = s.params.elapsed

/-- R173: every index the commands read for a range `low ≤ high` is `low + x` with `0 ≤ x < n`, so inside `[low, high]`, and
below `N` where `high < N`: an entry of the range depends on no base colour outside it. -/
def Obligations.AnimatorReadsInsideTheRange : Prop :=
  ∀ (r : ColourRange), r.low.toNat ≤ r.high.toNat →
    (∀ off i : Nat,
      (∃ x, x < r.count ∧ cycleIndex r off i = r.low.toNat + x) ∧ cycleIndex r off i ≤ r.high.toNat ∧
      (∃ x, x < r.count ∧ predecessorIndex r off i = r.low.toNat + x) ∧ predecessorIndex r off i ≤ r.high.toNat ∧
      ∀ n, r.high.toNat < n → cycleIndex r off i < n ∧ predecessorIndex r off i < n) ∧
    ∀ (blended : Bool) (o o' : Operands) (i : Nat), o.params = o'.params →
      (∀ j, r.low.toNat ≤ j → j ≤ r.high.toNat → o.basePal.getD j 0 = o'.basePal.getD j 0) →
      rangeEntry blended o r i = rangeEntry blended o' r i

/-! ## Frames and failures (60_exceptions.md R203, R204) -/

/-- R204, R202: in every failure the parameter registers, the cursor registers among them, keep their issue values, and so do the two
palettes; a failure of the checks before every access leaves system memory unchanged too. -/
def Obligations.FailureKeepsTheCursorRegisters : Prop :=
  ∀ (i : Instr) (s t : State), isCommand i → s.engine = .idle → exec i s = .next t → t.errCode ≠ 0 →
    t.params = s.params ∧ t.outPal = s.outPal ∧ t.basePal = s.basePal ∧
    ((t.errCode = 0x01 ∨ t.errCode = 0x02 ∨ t.errCode = 0x03 ∨ t.errCode = 0x04 ∨ t.errCode = 0x07 ∨
      (t.errCode = 0x05 ∧ (i = .copy ∨ i = .skip))) → t.mem = s.mem)

/-- The frame of every command in memory, whatever its ending (R61, R204): `COPY` and `RLE_DECODE` store at
`DST_ADDR .. DST_ADDR + OUTCOUNT` (R114, R115, R120, R124, R125), `TRANSPOSE_ROW` in its plane rows (R146, R152), every other command
nowhere. -/
def Obligations.CommandsStoreOnlyInTheirWindows : Prop :=
  ∀ (i : Instr) (s t : State) (a : Nat), isCommand i → s.engine = .idle → Memory.wf s.mem = true →
    exec i s = .next t →
    ((i = .copy ∨ i = .rleDecode) →
      ¬ (s.dstBase ≤ a ∧ a < s.dstBase + t.outCount.toNat) → Memory.read t.mem a = Memory.read s.mem a) ∧
    (i = .transposeRow →
      (∀ p, p < s.depth →
        ¬ (s.planeBase + p * s.planeStride ≤ a ∧ a < s.planeBase + p * s.planeStride + s.rowBytes)) →
      Memory.read t.mem a = Memory.read s.mem a) ∧
    (i ≠ .copy → i ≠ .rleDecode → i ≠ .transposeRow → Memory.read t.mem a = Memory.read s.mem a)

/-- The frame of every command in registers, whatever its ending: besides the registers of R203 only the cursor registers of R124 and
R147, and `OUT_PAL[0..N-1]` of the animator, may change. -/
def Obligations.CommandsWriteOnlyTheirRegisters : Prop :=
  ∀ (i : Instr) (s t : State), isCommand i → s.engine = .idle → exec i s = .next t →
    completed (commandWord i) t.errCode t.faultAddr t.result.toNat t.outCount.toNat s t ∧
    (t.errCode ≠ 0x08 → t.faultAddr = s.faultAddr) ∧
    ((i = .copy ∨ i = .rleDecode) →
      t.params = { s.params with
        srcAddr := t.params.srcAddr, srcLen := t.params.srcLen, dstAddr := t.params.dstAddr }) ∧
    ((i = .skip ∨ i = .rleSkip) →
      t.params = { s.params with srcAddr := t.params.srcAddr, srcLen := t.params.srcLen }) ∧
    (i = .transposeRow → t.params = { s.params with tpDst := t.params.tpDst }) ∧
    ((i = .animate ∨ i = .animateBlend ∨ i = .nop ∨ ∃ w, i = .illegal w) → t.params = s.params) ∧
    (i ≠ .animate → i ≠ .animateBlend → t.outPal = s.outPal) ∧
    ∀ n j, s.colorCount ≤ j → t.outPal.get n j = s.outPal.get n j

/-- R49, R243: until a command completes, no register shows anything of it: a move that leaves the engine Busy leaves every register,
`STATUS` among them, as a host reads it (a read of an `OUT_PAL` entry is R49's draw and stands in a statement of its own). It changes
system memory and the cursors, and nothing else. That `OUT_PAL` itself is among what it keeps, so that the table is published with the
completion and its progress shows in the draws alone, is the model's (log 16), and so are the values before the command that the draws
take (log 6). -/
def Obligations.RegistersWaitForCompletion : Prop :=
  ∀ (s t : State) (reg : Reg) (g : Grant), s.isBusy = true → engineStep g s = .next t → t.isBusy = true →
    ((∀ i, reg ≠ .outPal i) → readReg t reg = readReg s reg) ∧
    t.outPal = s.outPal ∧
    ∀ r, s.engine = .busy r → ∃ c, t = { s with mem := t.mem, engine := .busy { r with cur := c } }

/-! ## The register window (10_state.md) -/

/-- R22, R23, R24: the register map is the table of R22: every register is at its offset and nowhere else; a 32-bit host read at the offset
of a register is answered the register's value and changes nothing of the block; `ID` reads 0x53435831 at all times, and the registers of
the last completion read what they hold, and so does `CMD` (R28: the word last accepted; that this holds while Busy, beside R49, is log 26's
reading). R26: `STATUS` shows `BUSY`, `DONE`, `ERR` and `DROP` in bits 0 to 3; R25: `CTRL` shows
`IE` in bit 0, which while Busy is the one from before the command (R49, log 26). All their other bits read 0. R32 to R47: every parameter
register shows the operand that the commands compute from, in its field, and the palettes their colours, `OUT_PAL` while no command runs
(R49 while Busy is a statement of its own). -/
def Obligations.RegisterMapIsOneToOne : Prop :=
  [Reg.id, .ctrl, .status, .errCode, .cmd, .result, .outCount, .faultAddr, .srcAddr, .srcLen, .dstAddr, .dstLen, .tpSrc, .tpWidth,
      .tpDepth, .tpDst, .tpPstride, .nColors, .nRanges, .elapsed].map Reg.offset =
    [0x000, 0x004, 0x008, 0x00C, 0x010, 0x014, 0x018, 0x01C, 0x020, 0x024, 0x028, 0x02C, 0x030, 0x034,
      0x038, 0x03C, 0x040, 0x050, 0x054, 0x058] ∧
  (∀ k : Fin 16, (Reg.rangeBounds k).offset = 0x100 + 8 * k.val ∧ (Reg.rangeRate k).offset = 0x104 + 8 * k.val) ∧
  (∀ i : Fin 256, (Reg.basePal i).offset = 0x400 + 4 * i.val ∧ (Reg.outPal i).offset = 0x800 + 4 * i.val) ∧
  (∀ r : Reg, r.offset % 4 = 0 ∧ r.offset < 0x1000 ∧ Reg.ofOffset r.offset = some r) ∧
  (∀ (off : Nat) (r : Reg), Reg.ofOffset off = some r → off = r.offset) ∧
  (∀ (s : State) (addr : Word) (r : Reg), windowAt s addr r.offset →
    hostRead addr 4 s = .next { s with lastRead := some (readReg s r), draws := s.draws + 1 }) ∧
  ∀ s : State, readReg s .id = 0x53435831 ∧ readReg s .errCode = s.errCode.setWidth 32 ∧ readReg s .cmd = s.cmd ∧
    readReg s .result = s.result ∧ readReg s .outCount = s.outCount ∧ readReg s .faultAddr = s.faultAddr ∧
    (readReg s .status).getLsbD 0 = s.isBusy ∧ (readReg s .status).getLsbD 1 = s.status.done ∧
    (readReg s .status).getLsbD 2 = s.status.err ∧ (readReg s .status).getLsbD 3 = s.status.drop ∧
    (∀ n, 4 ≤ n → (readReg s .status).getLsbD n = false) ∧
    (s.engine = .idle → (readReg s .ctrl).getLsbD 0 = s.ie) ∧
    (∀ r, s.engine = .busy r → (readReg s .ctrl).getLsbD 0 = r.ieBefore) ∧
    (∀ n, 1 ≤ n → (readReg s .ctrl).getLsbD n = false) ∧
    readReg s .srcAddr = s.params.srcAddr ∧ readReg s .srcLen = s.params.srcLen ∧
    readReg s .dstAddr = s.params.dstAddr ∧ readReg s .dstLen = s.params.dstLen ∧
    readReg s .tpSrc = s.params.tpSrc ∧ (readReg s .tpWidth).toNat = s.params.tpWidth.toNat ∧
    (readReg s .tpDepth).toNat = s.params.tpDepth.toNat ∧ readReg s .tpDst = s.params.tpDst ∧
    readReg s .tpPstride = s.params.tpPstride ∧ (readReg s .nColors).toNat = s.params.nColors.toNat ∧
    (readReg s .nRanges).toNat = s.params.nRanges.toNat ∧ readReg s .elapsed = s.params.elapsed ∧
    (∀ k : Fin 16,
      (readReg s (.rangeBounds k)).toNat =
        (s.rangeAt k.val).low.toNat + 2 ^ 8 * (s.rangeAt k.val).high.toNat + 2 ^ 16 * (s.rangeAt k.val).rev.toNat ∧
      (readReg s (.rangeRate k)).toNat = (s.rangeAt k.val).rate.toNat) ∧
    (∀ i : Fin 256, readReg s (.basePal i) = (s.basePal.get s.draws i.val).setWidth 32) ∧
    (s.engine = .idle → ∀ i : Fin 256, readReg s (.outPal i) = (s.outPal.get s.draws i.val).setWidth 32)

/-- R23, R68: inside the window, the offsets of R68 read 0, and an Idle block ignores a write there. -/
def Obligations.EmptyOffsetsReadZero : Prop :=
  ∀ (s : State) (addr v : Word) (off : Nat), windowAt s addr off →
    ((0x044 ≤ off ∧ off ≤ 0x04C) ∨ (0x05C ≤ off ∧ off ≤ 0x0FC) ∨ (0x180 ≤ off ∧ off ≤ 0x3FC) ∨
      (0xC00 ≤ off ∧ off ≤ 0xFFC)) →
    hostRead addr 4 s = .next { s with lastRead := some 0, draws := s.draws + 1 } ∧
    (s.engine = .idle → hostWrite addr 4 v s = .next s)

/-- R22, R23: a host write to a parameter register of an Idle block is read back in the register's fields, reserved bits read 0, and
every other register reads as before. -/
def Obligations.ParameterWritesAreReadBack : Prop :=
  ∀ (s : State) (addr v : Word) (reg : Reg), s.engine = .idle → isParameter reg = true → windowAt s addr reg.offset →
    ∃ t, hostWrite addr 4 v s = .next t ∧
      readReg t reg = v &&& fieldMask reg ∧
      (∀ other, other ≠ reg → readReg t other = readReg s other) ∧
      t.mem = s.mem ∧ t.engine = .idle

/-- R48: while Busy a host write to any offset other than `CTRL` and `STATUS` is ignored, whatever the register, and sets `DROP`; writes
to read-only registers while Idle are ignored without setting `DROP`. -/
def Obligations.IgnoredWritesAreIgnored : Prop :=
  ∀ (s : State) (addr v : Word) (off : Nat), windowAt s addr off →
    (s.isBusy = true → off ≠ 0x004 → off ≠ 0x008 →
      hostWrite addr 4 v s = .next { s with status := { s.status with drop := true } }) ∧
    (∀ reg, s.engine = .idle → isReadOnly reg = true → off = reg.offset → hostWrite addr 4 v s = .next s)

/-- R23: an access of another width or at an offset that is no multiple of 4 is refused. -/
def Obligations.OtherAccessesAreRefused : Prop :=
  ∀ (s : State) (addr v : Word) (width off : Nat),
    addr.toNat = s.platform.blockBase.toNat + off → off < 0x1000 → (width ≠ 4 ∨ off % 4 ≠ 0) →
    hostWrite addr width v s = .refused .unsupportedAccess ∧ hostRead addr width s = .refused .unsupportedAccess

/-- R26: a host write to `STATUS`, Idle or Busy: a 1 clears `DONE`, `ERR` or `DROP`, a 0 leaves it, and nothing else changes. -/
def Obligations.StatusBitsClearByWritingOne : Prop :=
  ∀ (s : State) (addr v : Word), windowAt s addr 0x008 →
    ∃ t, hostWrite addr 4 v s = .next t ∧ t = { s with status := t.status } ∧
      readReg t .status = readReg s .status &&& ~~~(v &&& 0x0000000E)

/-- R25, R49, R52: a host write to `CTRL` without `SRST`, Idle or Busy, writes `IE` and nothing else, and the interrupt output follows at
once. A read shows the new `IE`, bit 1 reading 0, at once if Idle; while Busy it shows what it showed before, and the new `IE` after the
completion, whichever engine move that is (log 26). -/
def Obligations.CtrlWriteSetsTheInterruptEnable : Prop :=
  ∀ (s : State) (addr v : Word), windowAt s addr 0x004 → v.getLsbD 1 = false →
    hostWrite addr 4 v s = .next { s with ie := v.getLsbD 0 } ∧
    irqLevel { s with ie := v.getLsbD 0 } = (v.getLsbD 0 && (s.status.done || s.status.err)) ∧
    (s.engine = .idle → readReg { s with ie := v.getLsbD 0 } .ctrl = v &&& 1) ∧
    (s.isBusy = true →
      readReg { s with ie := v.getLsbD 0 } .ctrl = readReg s .ctrl ∧
      readReg (outcome { s with ie := v.getLsbD 0 }) .ctrl = v &&& 1 ∧
      ∀ g u, engineStep g { s with ie := v.getLsbD 0 } = .next u → u.engine = .idle → readReg u .ctrl = v &&& 1)

/-- R201: a write of `w` to `CMD` while Idle is accepted in one step: `CMD` holds it, `DONE` is clear, the engine is Busy with the
operands latched and the cursors at their start; nothing else changes, and no race has happened yet: the values before the command are
those of memory and of `CTRL` at issue. Running the latched word from there is what `exec` gives from the Idle state. A write while Busy
is not an issue. The model's own: `exec` on the Busy state (log 13), the fields that the draws of races need (log 6), all
parameter registers and at most 256 base colours are latched (log 12), an entry never written latches a free value (log 3), and the
number of the next free value moves on (log 4). -/
def Obligations.IssueLatchesTheCommand : Prop :=
  ∀ (s : State) (addr w : Word), windowAt s addr 0x010 →
    (s.engine = .idle →
      ∃ t r, hostWrite addr 4 w s = .next t ∧
        t = { s with
          cmd := w, status := { s.status with done := false }, engine := .busy r, draws := t.draws } ∧
        r.word = w ∧ r.ops.params = s.params ∧ r.cur = Cursor.fresh ∧
        r.before = s.mem ∧ r.stale = [] ∧ r.shielded = [] ∧ readReg t .ctrl = readReg s .ctrl ∧
        exec (decodeCommand w) t = exec (decodeCommand w) s ∧
        (isAnimator w = true →
          r.ops.basePal = (List.range (min s.colorCount 256)).map (baseColour s)) ∧
        readReg t .status &&& 3 = 1) ∧
    (s.isBusy = true → ∃ t, hostWrite addr 4 w s = .next t ∧ t.cmd = s.cmd ∧ t.engine = s.engine)

/-- R231: soft reset, Idle or Busy: every register at its reset value, `BASE_PAL` kept, the engine Idle without a completion. A byte of
the running command's write windows holds what it held or what the command would have written, every other byte what it held; an
`OUT_PAL` entry holds what it held or what the command would have given it. The draws are log 7's. -/
def Obligations.SoftResetAbandonsTheCommand : Prop :=
  ∀ (s : State) (addr v : Word), s.Inv → windowAt s addr 0x004 → v.getLsbD 1 = true →
    ∃ t, hostWrite addr 4 v s = .next t ∧ t.engine = .idle ∧ t.basePal = s.basePal ∧
      readReg t .id = 0x53435831 ∧
      (∀ r : Reg, r ≠ .id → (∀ i, r ≠ .basePal i) → (∀ i, r ≠ .outPal i) → readReg t r = 0) ∧
      (s.engine = .idle → t.mem = s.mem ∧ ∀ n i, t.outPal.get n i = s.outPal.get n i) ∧
      ∀ r, s.engine = .busy r →
        (∀ a, r.writeWindow a = false → Memory.read t.mem a = Memory.read s.mem a) ∧
        (∀ a, Memory.read t.mem a = Memory.read r.before a ∨ Memory.read t.mem a = Memory.read s.mem a ∨
          Memory.read t.mem a = Memory.read (outcome s).mem a) ∧
        ∀ n i, t.outPal.get n i = s.outPal.get n i ∨ t.outPal.get n i = (outcome s).outPal.get n i

/-- R52, R207: with `IE` set, the completion of any command asserts the interrupt output (`exec` on a Busy engine is log 13's). An
asserted output stays asserted through every event but a host write to `STATUS`, `CTRL` or `CMD` and a power-on, and after a write to
`STATUS` or `CTRL` it is asserted exactly if `IE` and one of `DONE` and `ERR` are still set. -/
def Obligations.CompletionRaisesTheInterrupt : Prop :=
  (∀ (i : Instr) (s t : State), isCommand i → s.ie = true → exec i s = .next t →
    irqLevel t = true ∧ irqInput t t.platform.irqLine = true) ∧
  (∀ (s : State) (addr v : Word), irqLevel s = true →
    (windowAt s addr 0x008 →
      ∃ u, hostWrite addr 4 v s = .next u ∧
        irqLevel u = ((s.status.done && !v.getLsbD 1) || (s.status.err && !v.getLsbD 2))) ∧
    (windowAt s addr 0x004 →
      ∃ u, hostWrite addr 4 v s = .next u ∧ irqLevel u = (v.getLsbD 0 && !v.getLsbD 1))) ∧
  ∀ (e : Event) (s u : State), irqLevel s = true → handle e s = .next u → irqLevel u = false →
    e = .powerOn ∨
    ∃ addr width v off, (e = .hostWrite addr width v ∨ ∃ g, e = .sameStep addr width v g) ∧
      addr.toNat = s.platform.blockBase.toNat + off ∧ (off = 0x004 ∨ off = 0x008 ∨ off = 0x010)

/-- R26, R208: in one step with a completion, a host write that clears `STATUS` leaves `DONE` set, and a host write to `CMD` is an
issue on the Idle engine that the completion leaves. -/
def Obligations.CompletionWinsTheSameStep : Prop :=
  ∀ (s c : State) (addr v : Word) (g : Grant), engineStep g s = .next c → s.isBusy = true → c.engine = .idle →
    (windowAt s addr 0x008 →
      ∃ t, handle (.sameStep addr 4 v g) s = .next t ∧ t.engine = .idle ∧ t.status.done = true ∧
        (c.errCode ≠ 0 → t.status.err = true) ∧ t.errCode = c.errCode ∧ t.result = c.result) ∧
    (windowAt s addr 0x010 →
      handle (.sameStep addr 4 v g) s = .next (issue v c))

/-! ## Hazards (70_reset_and_hazards.md) -/

/-- R60, R69: a host read or write of a byte of system memory that is no race, the block Idle or the byte in no window of the running
command, reads or writes that byte and nothing else. R241, the three races. A host read of a write-window byte of a running command is answered its old value or the one the command would
give it, and any other byte what it holds. After a host write to a byte of the read window, the engine sees the value it would have seen
or the written one, and the host's memory holds the written one, which is the byte's old value from then on. A host write to a byte of a write window lands or, where the engine has
passed the byte, may not; where it has not, the engine's own write of it takes effect as before or is lost. Every other byte is untouched.
That the host's own accesses to memory always succeed is log 17's; when each draw falls is log 6's choice; that a host byte access meets system memory at addresses of the register window too is log 27's. -/
def Obligations.RacedBytesAreOldOrNew : Prop :=
  (∀ (s : State) (addr : Word),
    (s.engine = .idle ∨
      ∃ r, s.engine = .busy r ∧ r.readWindow addr.toNat = false ∧ r.writeWindow addr.toNat = false) →
    (∃ t, handle (.memRead addr) s = .next t ∧
      t = { s with lastRead := some ((Memory.read s.mem addr.toNat).setWidth 32), draws := t.draws }) ∧
    ∀ v : Byte, Memory.wf s.mem = true →
      ∃ t, handle (.memWrite addr v) s = .next t ∧ t = { s with mem := t.mem } ∧
        Memory.read t.mem addr.toNat = v ∧ ∀ a, a ≠ addr.toNat → Memory.read t.mem a = Memory.read s.mem a) ∧
  ∀ (s : State) (r : Running) (addr : Word), s.engine = .busy r →
    (∀ t, handle (.memRead addr) s = .next t →
      t = { s with lastRead := t.lastRead, draws := t.draws } ∧
      (r.writeWindow addr.toNat = false → t.lastRead = some ((Memory.read s.mem addr.toNat).setWidth 32)) ∧
      (r.writeWindow addr.toNat = true →
        t.lastRead = some ((Memory.read r.before addr.toNat).setWidth 32) ∨
        t.lastRead = some ((Memory.read (outcome s).mem addr.toNat).setWidth 32))) ∧
    (∀ v : Byte, Memory.wf s.mem = true → r.readWindow addr.toNat = true →
      ∃ t r', handle (.memWrite addr v) s = .next t ∧
        t = { s with mem := t.mem, engine := .busy r', draws := t.draws } ∧
        r' = { r with before := r'.before, stale := r'.stale } ∧
        Memory.read t.mem addr.toNat = v ∧ (Memory.wf r.before = true → Memory.read r'.before addr.toNat = v) ∧
        ((r'.ctx t).view.seen t.mem addr.toNat = v ∨
          (r'.ctx t).view.seen t.mem addr.toNat = (r.ctx s).view.seen s.mem addr.toNat) ∧
        ∀ a, a ≠ addr.toNat →
          Memory.read t.mem a = Memory.read s.mem a ∧ (r'.ctx t).view.seen t.mem a = (r.ctx s).view.seen s.mem a) ∧
    ∀ v : Byte, Memory.wf s.mem = true → Memory.wf r.before = true → r.readWindow addr.toNat = false →
      r.writeWindow addr.toNat = true →
      ∃ t r', handle (.memWrite addr v) s = .next t ∧
        t = { s with mem := t.mem, engine := .busy r', draws := t.draws } ∧
        r' = { r with before := r'.before, shielded := r'.shielded } ∧
        Memory.read r'.before addr.toNat = v ∧
        (Memory.read t.mem addr.toNat = v ∨
          (r.passed addr.toNat = true ∧ Memory.read t.mem addr.toNat = Memory.read s.mem addr.toNat)) ∧
        (∀ m w, (r'.ctx t).view.write m addr.toNat w = (r.ctx s).view.write m addr.toNat w ∨
          (r.passed addr.toNat = false ∧
            (r'.ctx t).view.write m addr.toNat w =
              if busError s.platform .write addr.toNat then none else some m)) ∧
        ∀ a, a ≠ addr.toNat →
          Memory.read t.mem a = Memory.read s.mem a ∧ Memory.read r'.before a = Memory.read r.before a ∧
          ∀ m w, (r'.ctx t).view.write m a w = (r.ctx s).view.write m a w

/-- R49, R244: a host read of `OUT_PAL[i]` while a command runs is answered the entry's value before the command or its value after it, at
any time of the command; the read changes nothing of the block. That the value after it is known as what the command comes to from here is
log 16's. -/
def Obligations.OutPalReadWhileBusyIsOldOrNew : Prop :=
  ∀ (s t : State) (r : Running) (addr : Word) (i : Fin 256), s.engine = .busy r → windowAt s addr (0x800 + 4 * i.val) →
    handle (.hostRead addr 4) s = .next t →
    t = { s with lastRead := t.lastRead, draws := t.draws } ∧
    (t.lastRead = some ((s.outPal.get s.draws i.val).setWidth 32) ∨
      t.lastRead = some (((outcome s).outPal.get s.draws i.val).setWidth 32))
end

