-- ==== Sys2Proof/Laws/Checks.lean ====
section
/-! SUPPORT. The checks that precede every access, as arithmetic on the latched operands. -/

namespace Sys2Proof.Machine

@[simp] theorem tabulate_getElem? {α : Type} (n : Nat) (f : Nat → α) (i : Nat) :
    (tabulate n f)[i]? = if i < n then some (f i) else none := by
  unfold tabulate
  by_cases h : i < n <;> simp [h]

@[simp] theorem tabulate_getElem {α : Type} (n : Nat) (f : Nat → α) (i : Nat) (h : i < n) : (tabulate n f)[i] = f i := by
  have := tabulate_getElem? n f i
  simpa [h] using this

theorem windowWraps_iff (a n : Nat) : windowWraps a n = true ↔ 2 ^ 32 < a + n := by
  simp [windowWraps]

theorem windowWraps_false_iff (a n : Nat) : windowWraps a n = false ↔ a + n ≤ 2 ^ 32 := by
  simp [windowWraps]

theorem windowsShare_iff (a n b m : Nat) :
    windowsShare a n b m = true ↔ 0 < n ∧ 0 < m ∧ a < b + m ∧ b < a + n := by
  simp [windowsShare, and_assoc]

/-- Two windows share no byte. -/
theorem windowsShare_false_iff (a n b m : Nat) :
    windowsShare a n b m = false ↔ n = 0 ∨ m = 0 ∨ a + n ≤ b ∨ b + m ≤ a := by
  rw [← Bool.not_eq_true, windowsShare_iff]
  omega

/-- When the pre-checks of `COPY` and `RLE_DECODE` pass (R112). -/
theorem moveCheck_none_iff (o : Operands) :
    moveCheck o = none ↔
      o.srcBase + o.srcLen ≤ 2 ^ 32 ∧ o.dstBase + o.dstLen ≤ 2 ^ 32 ∧
      (o.srcLen = 0 ∨ o.dstLen = 0 ∨ o.srcBase + o.srcLen ≤ o.dstBase ∨ o.dstBase + o.dstLen ≤ o.srcBase) := by
  rw [← windowWraps_false_iff, ← windowWraps_false_iff, ← windowsShare_false_iff]
  unfold moveCheck
  cases windowWraps o.srcBase o.srcLen <;> cases windowWraps o.dstBase o.dstLen <;>
    cases windowsShare o.srcBase o.srcLen o.dstBase o.dstLen <;> simp

theorem moveCheck_addr {o : Operands} (h : 2 ^ 32 < o.srcBase + o.srcLen ∨ 2 ^ 32 < o.dstBase + o.dstLen) :
    moveCheck o = some .addr := by
  rw [← windowWraps_iff, ← windowWraps_iff] at h
  rcases h with h | h <;> simp [moveCheck, h]

theorem moveCheck_overlap {o : Operands} (h1 : o.srcBase + o.srcLen ≤ 2 ^ 32) (h2 : o.dstBase + o.dstLen ≤ 2 ^ 32)
    (h : windowsShare o.srcBase o.srcLen o.dstBase o.dstLen = true) : moveCheck o = some .overlap := by
  rw [← windowWraps_false_iff] at h1 h2
  simp [moveCheck, h1, h2, h]

theorem skipCheck_none_iff (o : Operands) : skipCheck o = none ↔ o.srcBase + o.srcLen ≤ 2 ^ 32 := by
  rw [← windowWraps_false_iff]
  unfold skipCheck
  cases windowWraps o.srcBase o.srcLen <;> simp

theorem skipCheck_addr {o : Operands} (h : 2 ^ 32 < o.srcBase + o.srcLen) : skipCheck o = some .addr := by
  rw [← windowWraps_iff] at h
  simp [skipCheck, h]

theorem lengthCheck_none_iff (o : Operands) : lengthCheck o = none ↔ o.dstLen ≤ o.srcLen := by
  unfold lengthCheck
  split <;> simp <;> omega

/-- When the checks of `TRANSPOSE_ROW` pass (R142, R145). -/
theorem transposeCheck_none_iff (o : Operands) :
    transposeCheck o = none ↔
      1 ≤ o.depth ∧ o.depth ≤ 8 ∧ o.pixelBase + o.width ≤ 2 ^ 32 ∧
      (∀ p, p < o.depth → o.planeRow p + o.rowBytes ≤ 2 ^ 32) ∧
      (∀ p, p < o.depth → windowsShare o.pixelBase o.width (o.planeRow p) o.rowBytes = false) ∧
      (o.depth ≤ 1 ∨ o.rowBytes = 0 ∨ o.rowBytes ≤ o.planeStride) := by
  unfold transposeCheck Config.maxDepth
  by_cases h1 : o.depth < 1 ∨ 8 < o.depth
  · simp only [Bool.or_eq_true, decide_eq_true_eq, h1, if_true, reduceCtorEq, false_iff]
    omega
  · by_cases h2 : windowWraps o.pixelBase o.width = true ∨ ∃ p, p < o.depth ∧ windowWraps (o.planeRow p) o.rowBytes = true
    · have h2' := h2
      simp only [windowWraps_iff] at h2'
      simp only [Bool.or_eq_true, decide_eq_true_eq, h1, if_false, List.any_eq_true, List.mem_range, h2, if_true, reduceCtorEq,
        false_iff]
      rintro ⟨-, -, ha, hb, -⟩
      rcases h2' with h | ⟨p, hp, h⟩
      · omega
      · have := hb p hp
        omega
    · have h2' := h2
      simp only [windowWraps_iff, not_or, not_exists, not_and, Nat.not_lt] at h2'
      by_cases h3 : ∃ p, p < o.depth ∧ windowsShare o.pixelBase o.width (o.planeRow p) o.rowBytes = true
      · simp only [Bool.or_eq_true, decide_eq_true_eq, h1, if_false, List.any_eq_true, List.mem_range, h2, h3, if_true,
          reduceCtorEq, false_iff]
        rintro ⟨-, -, -, -, hc, -⟩
        obtain ⟨p, hp, h⟩ := h3
        rw [hc p hp] at h
        cases h
      · have h3' := h3
        simp only [not_exists, not_and, Bool.not_eq_true] at h3'
        simp only [Bool.or_eq_true, decide_eq_true_eq, h1, if_false, List.any_eq_true, List.mem_range, h2, h3,
          Bool.and_eq_true]
        split
        · simp only [reduceCtorEq, false_iff]
          omega
        · simp only [true_iff]
          exact ⟨by omega, by omega, h2'.1, h2'.2, h3', by omega⟩

/-- When the checks of the animator pass (R161, R162). -/
theorem animateCheck_none_iff (o : Operands) :
    animateCheck o = none ↔
      o.nColors ≤ 256 ∧ o.nRanges ≤ 16 ∧
      ∀ k, k < o.nRanges → (o.range k).low.toNat ≤ (o.range k).high.toNat ∧ (o.range k).high.toNat < o.nColors := by
  unfold animateCheck Config.maxColors Config.maxRanges
  by_cases h : 256 < o.nColors ∨ 16 < o.nRanges
  · simp only [Bool.or_eq_true, decide_eq_true_eq, h, if_true, reduceCtorEq, false_iff]
    omega
  · simp only [Bool.or_eq_true, decide_eq_true_eq, h, if_false]
    split
    · rename_i hall
      simp only [List.all_eq_true, List.mem_range, rangeFits, Bool.and_eq_true, decide_eq_true_eq] at hall
      simp only [true_iff]
      exact ⟨by omega, by omega, hall⟩
    · rename_i hall
      simp only [List.all_eq_true, List.mem_range, rangeFits, Bool.and_eq_true, decide_eq_true_eq] at hall
      simp only [reduceCtorEq, false_iff]
      exact fun hh => hall hh.2.2

end Sys2Proof.Machine
end

