-- ==== Sys2Proof/Laws/Memory.lean ====
section
/-! SUPPORT. System memory: reading after writing, and the canonical form that every write keeps. -/

namespace Sys2Proof.Machine

/-- Addresses strictly rising from `lo` on, no byte equal to `blank`: canonical form without the bound on addresses. -/
def Memory.rising : Nat → Memory → Bool
  | _, [] => true
  | lo, (a, v) :: m => decide (lo ≤ a) && (v != Memory.blank) && Memory.rising (a + 1) m

theorem Memory.rising_mono {lo lo' : Nat} {m : Memory} (h : lo' ≤ lo) (hm : Memory.rising lo m = true) :
    Memory.rising lo' m = true := by
  cases m with
  | nil => rfl
  | cons c m =>
    obtain ⟨a, v⟩ := c
    simp only [Memory.rising, Bool.and_eq_true, decide_eq_true_eq] at hm ⊢
    exact ⟨⟨by omega, hm.1.2⟩, hm.2⟩

theorem Memory.rising_of_wfFrom {lo : Nat} {m : Memory} (h : Memory.wfFrom lo m = true) : Memory.rising lo m = true := by
  induction m generalizing lo with
  | nil => rfl
  | cons c m ih =>
    obtain ⟨a, v⟩ := c
    simp only [Memory.wfFrom, Memory.rising, Bool.and_eq_true, decide_eq_true_eq] at h ⊢
    exact ⟨⟨h.1.1.1, h.1.2⟩, ih h.2⟩

theorem Memory.rising_of_wf {m : Memory} (h : Memory.wf m = true) : Memory.rising 0 m = true :=
  Memory.rising_of_wfFrom h

/-- An address below everything listed reads as `blank`. -/
theorem Memory.read_below {lo a : Nat} {m : Memory} (hm : Memory.rising lo m = true) (ha : a < lo) :
    Memory.read m a = Memory.blank := by
  induction m generalizing lo with
  | nil => rfl
  | cons c m ih =>
    obtain ⟨b, w⟩ := c
    simp only [Memory.rising, Bool.and_eq_true, decide_eq_true_eq] at hm
    have : a ≠ b := by omega
    simp only [Memory.read, this, if_false]
    exact ih hm.2 (by omega)

/-- Reading after a write: the written byte at its address, every other byte as before. -/
theorem Memory.read_write {lo : Nat} {m : Memory} (hm : Memory.rising lo m = true) (a b : Nat) (v : Byte) :
    Memory.read (Memory.write m a v) b = if b = a then v else Memory.read m b := by
  induction m generalizing lo with
  | nil =>
    simp only [Memory.write]
    split <;> rename_i hv <;> by_cases hb : b = a <;> simp [Memory.read, hb, hv]
  | cons c m ih =>
    obtain ⟨x, w⟩ := c
    simp only [Memory.rising, Bool.and_eq_true, decide_eq_true_eq] at hm
    have below : ∀ y, y ≤ x → Memory.read m y = Memory.blank := fun y hy =>
      Memory.read_below hm.2 (by omega)
    simp only [Memory.write]
    split
    · rename_i hax
      split
      · rename_i hv
        by_cases hb : b = a
        · subst hb
          have : b ≠ x := by omega
          simp [Memory.read, this, below b (by omega), hv]
        · simp [hb]
      · by_cases hb : b = a <;> simp [Memory.read, hb]
    · split
      · rename_i hax
        subst hax
        split
        · rename_i hv
          by_cases hb : b = a
          · simp [hb, below a (Nat.le_refl a), hv]
          · simp [Memory.read, hb]
        · by_cases hb : b = a <;> simp [Memory.read, hb]
      · rename_i h1 h2
        by_cases hx : b = x
        · subst hx
          have : b ≠ a := fun h => h2 h.symm
          simp [Memory.read, this]
        · simp only [Memory.read, hx, if_false]
          exact ih hm.2

theorem Memory.rising_write {lo : Nat} {m : Memory} (hm : Memory.rising lo m = true) {a : Nat} (ha : lo ≤ a) (v : Byte) :
    Memory.rising lo (Memory.write m a v) = true := by
  induction m generalizing lo with
  | nil =>
    simp only [Memory.write]
    split <;> rename_i hv <;> simp [Memory.rising, ha, hv]
  | cons c m ih =>
    obtain ⟨x, w⟩ := c
    have hm' := hm
    simp only [Memory.rising, Bool.and_eq_true, decide_eq_true_eq, bne_iff_ne, ne_eq] at hm
    simp only [Memory.write]
    split
    · split
      · exact hm'
      · rename_i hax hv
        simp only [Memory.rising, Bool.and_eq_true, decide_eq_true_eq, bne_iff_ne, ne_eq]
        exact ⟨⟨ha, hv⟩, ⟨by omega, hm.1.2⟩, hm.2⟩
    · split
      · rename_i hax
        subst hax
        split
        · exact Memory.rising_mono (by omega) hm.2
        · rename_i hv
          simp only [Memory.rising, Bool.and_eq_true, decide_eq_true_eq, bne_iff_ne, ne_eq]
          exact ⟨⟨ha, hv⟩, hm.2⟩
      · simp only [Memory.rising, Bool.and_eq_true, decide_eq_true_eq, bne_iff_ne, ne_eq]
        exact ⟨hm.1, ih hm.2 (by omega)⟩

theorem Memory.wfFrom_mono {lo lo' : Nat} {m : Memory} (h : lo' ≤ lo) (hm : Memory.wfFrom lo m = true) :
    Memory.wfFrom lo' m = true := by
  cases m with
  | nil => rfl
  | cons c m =>
    obtain ⟨a, v⟩ := c
    simp only [Memory.wfFrom, Bool.and_eq_true, decide_eq_true_eq] at hm ⊢
    exact ⟨⟨⟨by omega, hm.1.1.2⟩, hm.1.2⟩, hm.2⟩

theorem Memory.wfFrom_write {lo : Nat} {m : Memory} (hm : Memory.wfFrom lo m = true) {a : Nat} (ha : lo ≤ a)
    (hb : a < 2 ^ 32) (v : Byte) : Memory.wfFrom lo (Memory.write m a v) = true := by
  induction m generalizing lo with
  | nil =>
    simp only [Memory.write]
    split
    · rfl
    · rename_i hv
      simp only [Memory.wfFrom, Bool.and_eq_true, decide_eq_true_eq, bne_iff_ne, ne_eq, and_true]
      exact ⟨⟨ha, hb⟩, hv⟩
  | cons c m ih =>
    obtain ⟨x, w⟩ := c
    have hm' := hm
    simp only [Memory.wfFrom, Bool.and_eq_true, decide_eq_true_eq, bne_iff_ne, ne_eq] at hm
    simp only [Memory.write]
    split
    · split
      · exact hm'
      · rename_i hax hv
        simp only [Memory.wfFrom, Bool.and_eq_true, decide_eq_true_eq, bne_iff_ne, ne_eq]
        exact ⟨⟨⟨ha, hb⟩, hv⟩, ⟨⟨by omega, hm.1.1.2⟩, hm.1.2⟩, hm.2⟩
    · split
      · rename_i hax
        subst hax
        split
        · exact Memory.wfFrom_mono (by omega) hm.2
        · rename_i hv
          simp only [Memory.wfFrom, Bool.and_eq_true, decide_eq_true_eq, bne_iff_ne, ne_eq]
          exact ⟨⟨⟨ha, hb⟩, hv⟩, hm.2⟩
      · simp only [Memory.wfFrom, Bool.and_eq_true, decide_eq_true_eq, bne_iff_ne, ne_eq]
        exact ⟨hm.1, ih hm.2 (by omega)⟩

/-- Every write of an existing address keeps the canonical form. -/
theorem Memory.wf_write {m : Memory} (hm : Memory.wf m = true) {a : Nat} (ha : a < 2 ^ 32) (v : Byte) :
    Memory.wf (Memory.write m a v) = true :=
  Memory.wfFrom_write hm (Nat.zero_le a) ha v

/-- In canonical memory a read after a write gives the written byte at its address and the old byte elsewhere. -/
theorem Memory.read_write_wf {m : Memory} (hm : Memory.wf m = true) (a b : Nat) (v : Byte) :
    Memory.read (Memory.write m a v) b = if b = a then v else Memory.read m b :=
  Memory.read_write (Memory.rising_of_wf hm) a b v

/-- Canonical memory is determined by its bytes: equal memories are equal data. -/
theorem Memory.ext_rising {lo lo' : Nat} {m m' : Memory} (hm : Memory.rising lo m = true) (hm' : Memory.rising lo' m' = true)
    (h : ∀ a, Memory.read m a = Memory.read m' a) : m = m' := by
  induction m generalizing lo lo' m' with
  | nil =>
    cases m' with
    | nil => rfl
    | cons c m' =>
      obtain ⟨a, v⟩ := c
      have := h a
      simp only [Memory.rising, Bool.and_eq_true, decide_eq_true_eq, bne_iff_ne, ne_eq] at hm'
      simp only [Memory.read, if_true] at this
      exact absurd this.symm hm'.1.2
  | cons c m ih =>
    obtain ⟨a, v⟩ := c
    simp only [Memory.rising, Bool.and_eq_true, decide_eq_true_eq, bne_iff_ne, ne_eq] at hm
    cases m' with
    | nil =>
      have := h a
      simp only [Memory.read, if_true] at this
      exact absurd this hm.1.2
    | cons c' m' =>
      obtain ⟨b, w⟩ := c'
      simp only [Memory.rising, Bool.and_eq_true, decide_eq_true_eq, bne_iff_ne, ne_eq] at hm'
      have hab : a = b := by
        rcases Nat.lt_trichotomy a b with hlt | heq | hgt
        · have := h a
          simp only [Memory.read, if_true, Nat.ne_of_lt hlt, if_false] at this
          rw [Memory.read_below hm'.2 (by omega)] at this
          exact absurd this hm.1.2
        · exact heq
        · have := h b
          simp only [Memory.read, if_true, Nat.ne_of_lt hgt, if_false] at this
          rw [Memory.read_below hm.2 (by omega)] at this
          exact absurd this.symm hm'.1.2
      subst hab
      have hvw : v = w := by simpa [Memory.read] using h a
      subst hvw
      have : m = m' := ih hm.2 hm'.2 fun y => by
        by_cases hy : y = a
        · subst hy
          rw [Memory.read_below hm.2 (by omega), Memory.read_below hm'.2 (by omega)]
        · simpa [Memory.read, hy] using h y
      rw [this]

/-- The memory of the state after reset is canonical. -/
theorem Memory.wf_reset : Memory.wf State.reset.mem = true := rfl

/-- A listed address of canonical memory exists. -/
theorem Memory.wfFrom_mem_lt {lo : Nat} {m : Memory} (hm : Memory.wfFrom lo m = true) {a : Nat}
    (ha : a ∈ m.map Prod.fst) : a < 2 ^ 32 := by
  induction m generalizing lo with
  | nil => simp at ha
  | cons c m ih =>
    obtain ⟨x, w⟩ := c
    simp only [Memory.wfFrom, Bool.and_eq_true, decide_eq_true_eq] at hm
    simp only [List.map_cons, List.mem_cons] at ha
    rcases ha with rfl | ha
    · exact hm.1.1.2
    · exact ih hm.2 ha

end Sys2Proof.Machine
end

