-- ==== Sys2Proof/Laws/State.lean ====
section
/-! SUPPORT. One lemma for each field of the state and each named update, true by `rfl`. -/

namespace Sys2Proof.Machine

/-! ## Issue (R201) -/

@[simp] theorem issue_ie (w : Word) (s : State) : (issue w s).ie = s.ie := rfl
@[simp] theorem issue_status (w : Word) (s : State) : (issue w s).status = s.status.accepted := rfl
@[simp] theorem issue_errCode (w : Word) (s : State) : (issue w s).errCode = s.errCode := rfl
@[simp] theorem issue_cmd (w : Word) (s : State) : (issue w s).cmd = w := rfl
@[simp] theorem issue_result (w : Word) (s : State) : (issue w s).result = s.result := rfl
@[simp] theorem issue_outCount (w : Word) (s : State) : (issue w s).outCount = s.outCount := rfl
@[simp] theorem issue_faultAddr (w : Word) (s : State) : (issue w s).faultAddr = s.faultAddr := rfl
@[simp] theorem issue_params (w : Word) (s : State) : (issue w s).params = s.params := rfl
@[simp] theorem issue_basePal (w : Word) (s : State) : (issue w s).basePal = s.basePal := rfl
@[simp] theorem issue_outPal (w : Word) (s : State) : (issue w s).outPal = s.outPal := rfl
@[simp] theorem issue_engine (w : Word) (s : State) : (issue w s).engine = .busy (Running.fresh w s) := rfl
@[simp] theorem issue_mem (w : Word) (s : State) : (issue w s).mem = s.mem := rfl
@[simp] theorem issue_platform (w : Word) (s : State) : (issue w s).platform = s.platform := rfl
@[simp] theorem issue_inputs (w : Word) (s : State) : (issue w s).inputs = s.inputs := rfl
@[simp] theorem issue_lastRead (w : Word) (s : State) : (issue w s).lastRead = s.lastRead := rfl
@[simp] theorem issue_draws (w : Word) (s : State) : (issue w s).draws = s.draws + 1 := rfl

/-! ## Completion (R203) -/

@[simp] theorem finish_ie (e : Ending) (c : Cursor) (s : State) : (finish e c s).ie = s.ie := rfl
@[simp] theorem finish_status (e : Ending) (c : Cursor) (s : State) : (finish e c s).status = s.status.completed e := rfl
@[simp] theorem finish_errCode (e : Ending) (c : Cursor) (s : State) : (finish e c s).errCode = e.code := rfl
@[simp] theorem finish_cmd (e : Ending) (c : Cursor) (s : State) : (finish e c s).cmd = s.cmd := rfl
@[simp] theorem finish_result (e : Ending) (c : Cursor) (s : State) : (finish e c s).result = BitVec.ofNat 32 c.consumed := rfl
@[simp] theorem finish_outCount (e : Ending) (c : Cursor) (s : State) : (finish e c s).outCount = BitVec.ofNat 32 c.produced := rfl
@[simp] theorem finish_faultAddr (e : Ending) (c : Cursor) (s : State) : (finish e c s).faultAddr = e.faultAddr s.faultAddr := rfl
@[simp] theorem finish_params (e : Ending) (c : Cursor) (s : State) : (finish e c s).params = s.params := rfl
@[simp] theorem finish_basePal (e : Ending) (c : Cursor) (s : State) : (finish e c s).basePal = s.basePal := rfl
@[simp] theorem finish_outPal (e : Ending) (c : Cursor) (s : State) : (finish e c s).outPal = s.outPal := rfl
@[simp] theorem finish_engine (e : Ending) (c : Cursor) (s : State) : (finish e c s).engine = .idle := rfl
@[simp] theorem finish_mem (e : Ending) (c : Cursor) (s : State) : (finish e c s).mem = s.mem := rfl
@[simp] theorem finish_platform (e : Ending) (c : Cursor) (s : State) : (finish e c s).platform = s.platform := rfl
@[simp] theorem finish_inputs (e : Ending) (c : Cursor) (s : State) : (finish e c s).inputs = s.inputs := rfl
@[simp] theorem finish_lastRead (e : Ending) (c : Cursor) (s : State) : (finish e c s).lastRead = s.lastRead := rfl
@[simp] theorem finish_draws (e : Ending) (c : Cursor) (s : State) : (finish e c s).draws = s.draws := rfl

/-! ## Acknowledgement (R209) -/

@[simp] theorem acknowledge_ie (v : Word) (s : State) : (acknowledge v s).ie = s.ie := rfl
@[simp] theorem acknowledge_status (v : Word) (s : State) : (acknowledge v s).status = s.status.cleared v := rfl
@[simp] theorem acknowledge_errCode (v : Word) (s : State) : (acknowledge v s).errCode = s.errCode := rfl
@[simp] theorem acknowledge_cmd (v : Word) (s : State) : (acknowledge v s).cmd = s.cmd := rfl
@[simp] theorem acknowledge_result (v : Word) (s : State) : (acknowledge v s).result = s.result := rfl
@[simp] theorem acknowledge_outCount (v : Word) (s : State) : (acknowledge v s).outCount = s.outCount := rfl
@[simp] theorem acknowledge_faultAddr (v : Word) (s : State) : (acknowledge v s).faultAddr = s.faultAddr := rfl
@[simp] theorem acknowledge_params (v : Word) (s : State) : (acknowledge v s).params = s.params := rfl
@[simp] theorem acknowledge_basePal (v : Word) (s : State) : (acknowledge v s).basePal = s.basePal := rfl
@[simp] theorem acknowledge_outPal (v : Word) (s : State) : (acknowledge v s).outPal = s.outPal := rfl
@[simp] theorem acknowledge_engine (v : Word) (s : State) : (acknowledge v s).engine = s.engine := rfl
@[simp] theorem acknowledge_mem (v : Word) (s : State) : (acknowledge v s).mem = s.mem := rfl
@[simp] theorem acknowledge_platform (v : Word) (s : State) : (acknowledge v s).platform = s.platform := rfl
@[simp] theorem acknowledge_inputs (v : Word) (s : State) : (acknowledge v s).inputs = s.inputs := rfl
@[simp] theorem acknowledge_lastRead (v : Word) (s : State) : (acknowledge v s).lastRead = s.lastRead := rfl
@[simp] theorem acknowledge_draws (v : Word) (s : State) : (acknowledge v s).draws = s.draws := rfl

/-! ## Source cursors (R124) -/

@[simp] theorem advanceSource_ie (o : Operands) (c : Cursor) (s : State) : (advanceSource o c s).ie = s.ie := rfl
@[simp] theorem advanceSource_status (o : Operands) (c : Cursor) (s : State) : (advanceSource o c s).status = s.status := rfl
@[simp] theorem advanceSource_errCode (o : Operands) (c : Cursor) (s : State) : (advanceSource o c s).errCode = s.errCode := rfl
@[simp] theorem advanceSource_cmd (o : Operands) (c : Cursor) (s : State) : (advanceSource o c s).cmd = s.cmd := rfl
@[simp] theorem advanceSource_result (o : Operands) (c : Cursor) (s : State) : (advanceSource o c s).result = s.result := rfl
@[simp] theorem advanceSource_outCount (o : Operands) (c : Cursor) (s : State) : (advanceSource o c s).outCount = s.outCount := rfl
@[simp] theorem advanceSource_faultAddr (o : Operands) (c : Cursor) (s : State) : (advanceSource o c s).faultAddr = s.faultAddr := rfl
@[simp] theorem advanceSource_params (o : Operands) (c : Cursor) (s : State) : (advanceSource o c s).params = { s.params with
      srcAddr := o.params.srcAddr + BitVec.ofNat 32 c.consumed
      srcLen  := o.params.srcLen - BitVec.ofNat 32 c.consumed } := rfl
@[simp] theorem advanceSource_basePal (o : Operands) (c : Cursor) (s : State) : (advanceSource o c s).basePal = s.basePal := rfl
@[simp] theorem advanceSource_outPal (o : Operands) (c : Cursor) (s : State) : (advanceSource o c s).outPal = s.outPal := rfl
@[simp] theorem advanceSource_engine (o : Operands) (c : Cursor) (s : State) : (advanceSource o c s).engine = s.engine := rfl
@[simp] theorem advanceSource_mem (o : Operands) (c : Cursor) (s : State) : (advanceSource o c s).mem = s.mem := rfl
@[simp] theorem advanceSource_platform (o : Operands) (c : Cursor) (s : State) : (advanceSource o c s).platform = s.platform := rfl
@[simp] theorem advanceSource_inputs (o : Operands) (c : Cursor) (s : State) : (advanceSource o c s).inputs = s.inputs := rfl
@[simp] theorem advanceSource_lastRead (o : Operands) (c : Cursor) (s : State) : (advanceSource o c s).lastRead = s.lastRead := rfl
@[simp] theorem advanceSource_draws (o : Operands) (c : Cursor) (s : State) : (advanceSource o c s).draws = s.draws := rfl

/-! ## Source and destination cursors (R124) -/

@[simp] theorem advanceBoth_ie (o : Operands) (c : Cursor) (s : State) : (advanceBoth o c s).ie = s.ie := rfl
@[simp] theorem advanceBoth_status (o : Operands) (c : Cursor) (s : State) : (advanceBoth o c s).status = s.status := rfl
@[simp] theorem advanceBoth_errCode (o : Operands) (c : Cursor) (s : State) : (advanceBoth o c s).errCode = s.errCode := rfl
@[simp] theorem advanceBoth_cmd (o : Operands) (c : Cursor) (s : State) : (advanceBoth o c s).cmd = s.cmd := rfl
@[simp] theorem advanceBoth_result (o : Operands) (c : Cursor) (s : State) : (advanceBoth o c s).result = s.result := rfl
@[simp] theorem advanceBoth_outCount (o : Operands) (c : Cursor) (s : State) : (advanceBoth o c s).outCount = s.outCount := rfl
@[simp] theorem advanceBoth_faultAddr (o : Operands) (c : Cursor) (s : State) : (advanceBoth o c s).faultAddr = s.faultAddr := rfl
@[simp] theorem advanceBoth_params (o : Operands) (c : Cursor) (s : State) : (advanceBoth o c s).params = { s.params with
      srcAddr := o.params.srcAddr + BitVec.ofNat 32 c.consumed
      srcLen  := o.params.srcLen - BitVec.ofNat 32 c.consumed
      dstAddr := o.params.dstAddr + o.params.dstLen } := rfl
@[simp] theorem advanceBoth_basePal (o : Operands) (c : Cursor) (s : State) : (advanceBoth o c s).basePal = s.basePal := rfl
@[simp] theorem advanceBoth_outPal (o : Operands) (c : Cursor) (s : State) : (advanceBoth o c s).outPal = s.outPal := rfl
@[simp] theorem advanceBoth_engine (o : Operands) (c : Cursor) (s : State) : (advanceBoth o c s).engine = s.engine := rfl
@[simp] theorem advanceBoth_mem (o : Operands) (c : Cursor) (s : State) : (advanceBoth o c s).mem = s.mem := rfl
@[simp] theorem advanceBoth_platform (o : Operands) (c : Cursor) (s : State) : (advanceBoth o c s).platform = s.platform := rfl
@[simp] theorem advanceBoth_inputs (o : Operands) (c : Cursor) (s : State) : (advanceBoth o c s).inputs = s.inputs := rfl
@[simp] theorem advanceBoth_lastRead (o : Operands) (c : Cursor) (s : State) : (advanceBoth o c s).lastRead = s.lastRead := rfl
@[simp] theorem advanceBoth_draws (o : Operands) (c : Cursor) (s : State) : (advanceBoth o c s).draws = s.draws := rfl

/-! ## `TP_DST` (R147) -/

@[simp] theorem advancePlanes_ie (o : Operands) (c : Cursor) (s : State) : (advancePlanes o c s).ie = s.ie := rfl
@[simp] theorem advancePlanes_status (o : Operands) (c : Cursor) (s : State) : (advancePlanes o c s).status = s.status := rfl
@[simp] theorem advancePlanes_errCode (o : Operands) (c : Cursor) (s : State) : (advancePlanes o c s).errCode = s.errCode := rfl
@[simp] theorem advancePlanes_cmd (o : Operands) (c : Cursor) (s : State) : (advancePlanes o c s).cmd = s.cmd := rfl
@[simp] theorem advancePlanes_result (o : Operands) (c : Cursor) (s : State) : (advancePlanes o c s).result = s.result := rfl
@[simp] theorem advancePlanes_outCount (o : Operands) (c : Cursor) (s : State) : (advancePlanes o c s).outCount = s.outCount := rfl
@[simp] theorem advancePlanes_faultAddr (o : Operands) (c : Cursor) (s : State) : (advancePlanes o c s).faultAddr = s.faultAddr := rfl
@[simp] theorem advancePlanes_params (o : Operands) (c : Cursor) (s : State) : (advancePlanes o c s).params = { s.params with tpDst := o.params.tpDst + BitVec.ofNat 32 o.rowBytes } := rfl
@[simp] theorem advancePlanes_basePal (o : Operands) (c : Cursor) (s : State) : (advancePlanes o c s).basePal = s.basePal := rfl
@[simp] theorem advancePlanes_outPal (o : Operands) (c : Cursor) (s : State) : (advancePlanes o c s).outPal = s.outPal := rfl
@[simp] theorem advancePlanes_engine (o : Operands) (c : Cursor) (s : State) : (advancePlanes o c s).engine = s.engine := rfl
@[simp] theorem advancePlanes_mem (o : Operands) (c : Cursor) (s : State) : (advancePlanes o c s).mem = s.mem := rfl
@[simp] theorem advancePlanes_platform (o : Operands) (c : Cursor) (s : State) : (advancePlanes o c s).platform = s.platform := rfl
@[simp] theorem advancePlanes_inputs (o : Operands) (c : Cursor) (s : State) : (advancePlanes o c s).inputs = s.inputs := rfl
@[simp] theorem advancePlanes_lastRead (o : Operands) (c : Cursor) (s : State) : (advancePlanes o c s).lastRead = s.lastRead := rfl
@[simp] theorem advancePlanes_draws (o : Operands) (c : Cursor) (s : State) : (advancePlanes o c s).draws = s.draws := rfl

/-! ## `OUT_PAL` (R168) -/

@[simp] theorem publishTable_ie (o : Operands) (c : Cursor) (s : State) : (publishTable o c s).ie = s.ie := rfl
@[simp] theorem publishTable_status (o : Operands) (c : Cursor) (s : State) : (publishTable o c s).status = s.status := rfl
@[simp] theorem publishTable_errCode (o : Operands) (c : Cursor) (s : State) : (publishTable o c s).errCode = s.errCode := rfl
@[simp] theorem publishTable_cmd (o : Operands) (c : Cursor) (s : State) : (publishTable o c s).cmd = s.cmd := rfl
@[simp] theorem publishTable_result (o : Operands) (c : Cursor) (s : State) : (publishTable o c s).result = s.result := rfl
@[simp] theorem publishTable_outCount (o : Operands) (c : Cursor) (s : State) : (publishTable o c s).outCount = s.outCount := rfl
@[simp] theorem publishTable_faultAddr (o : Operands) (c : Cursor) (s : State) : (publishTable o c s).faultAddr = s.faultAddr := rfl
@[simp] theorem publishTable_params (o : Operands) (c : Cursor) (s : State) : (publishTable o c s).params = s.params := rfl
@[simp] theorem publishTable_basePal (o : Operands) (c : Cursor) (s : State) : (publishTable o c s).basePal = s.basePal := rfl
@[simp] theorem publishTable_outPal (o : Operands) (c : Cursor) (s : State) : (publishTable o c s).outPal = s.outPal.overlay c.table := rfl
@[simp] theorem publishTable_engine (o : Operands) (c : Cursor) (s : State) : (publishTable o c s).engine = s.engine := rfl
@[simp] theorem publishTable_mem (o : Operands) (c : Cursor) (s : State) : (publishTable o c s).mem = s.mem := rfl
@[simp] theorem publishTable_platform (o : Operands) (c : Cursor) (s : State) : (publishTable o c s).platform = s.platform := rfl
@[simp] theorem publishTable_inputs (o : Operands) (c : Cursor) (s : State) : (publishTable o c s).inputs = s.inputs := rfl
@[simp] theorem publishTable_lastRead (o : Operands) (c : Cursor) (s : State) : (publishTable o c s).lastRead = s.lastRead := rfl
@[simp] theorem publishTable_draws (o : Operands) (c : Cursor) (s : State) : (publishTable o c s).draws = s.draws := rfl

/-! ## Soft reset (R231) -/

@[simp] theorem softReset_ie (s : State) : (softReset s).ie = State.reset.ie := rfl
@[simp] theorem softReset_status (s : State) : (softReset s).status = State.reset.status := rfl
@[simp] theorem softReset_errCode (s : State) : (softReset s).errCode = State.reset.errCode := rfl
@[simp] theorem softReset_cmd (s : State) : (softReset s).cmd = State.reset.cmd := rfl
@[simp] theorem softReset_result (s : State) : (softReset s).result = State.reset.result := rfl
@[simp] theorem softReset_outCount (s : State) : (softReset s).outCount = State.reset.outCount := rfl
@[simp] theorem softReset_faultAddr (s : State) : (softReset s).faultAddr = State.reset.faultAddr := rfl
@[simp] theorem softReset_params (s : State) : (softReset s).params = State.reset.params := rfl
@[simp] theorem softReset_basePal (s : State) : (softReset s).basePal = s.basePal := rfl
@[simp] theorem softReset_outPal (s : State) : (softReset s).outPal = abandonedOutPal s := rfl
@[simp] theorem softReset_engine (s : State) : (softReset s).engine = State.reset.engine := rfl
@[simp] theorem softReset_mem (s : State) : (softReset s).mem = abandonedMem s := rfl
@[simp] theorem softReset_platform (s : State) : (softReset s).platform = s.platform := rfl
@[simp] theorem softReset_inputs (s : State) : (softReset s).inputs = s.inputs := rfl
@[simp] theorem softReset_lastRead (s : State) : (softReset s).lastRead = s.lastRead := rfl
@[simp] theorem softReset_draws (s : State) : (softReset s).draws = s.draws + 1 := rfl

/-! ## Power-on reset (R230) -/

@[simp] theorem powerOnReset_ie (s : State) : (powerOnReset s).ie = State.reset.ie := rfl
@[simp] theorem powerOnReset_status (s : State) : (powerOnReset s).status = State.reset.status := rfl
@[simp] theorem powerOnReset_errCode (s : State) : (powerOnReset s).errCode = State.reset.errCode := rfl
@[simp] theorem powerOnReset_cmd (s : State) : (powerOnReset s).cmd = State.reset.cmd := rfl
@[simp] theorem powerOnReset_result (s : State) : (powerOnReset s).result = State.reset.result := rfl
@[simp] theorem powerOnReset_outCount (s : State) : (powerOnReset s).outCount = State.reset.outCount := rfl
@[simp] theorem powerOnReset_faultAddr (s : State) : (powerOnReset s).faultAddr = State.reset.faultAddr := rfl
@[simp] theorem powerOnReset_params (s : State) : (powerOnReset s).params = State.reset.params := rfl
@[simp] theorem powerOnReset_basePal (s : State) : (powerOnReset s).basePal = State.reset.basePal := rfl
@[simp] theorem powerOnReset_outPal (s : State) : (powerOnReset s).outPal = State.reset.outPal := rfl
@[simp] theorem powerOnReset_engine (s : State) : (powerOnReset s).engine = State.reset.engine := rfl
@[simp] theorem powerOnReset_mem (s : State) : (powerOnReset s).mem = s.mem := rfl
@[simp] theorem powerOnReset_platform (s : State) : (powerOnReset s).platform = s.platform := rfl
@[simp] theorem powerOnReset_inputs (s : State) : (powerOnReset s).inputs = s.inputs := rfl
@[simp] theorem powerOnReset_lastRead (s : State) : (powerOnReset s).lastRead = s.lastRead := rfl
@[simp] theorem powerOnReset_draws (s : State) : (powerOnReset s).draws = s.draws + 1 := rfl

/-! ## Cursors and progress -/

@[simp] theorem took_mem (p : Prog) : p.took.mem = p.mem := rfl
@[simp] theorem took_started (p : Prog) : p.took.cur.started = p.cur.started := rfl
@[simp] theorem took_consumed (p : Prog) : p.took.cur.consumed = p.cur.consumed + 1 := rfl
@[simp] theorem took_produced (p : Prog) : p.took.cur.produced = p.cur.produced := rfl
@[simp] theorem took_group (p : Prog) : p.took.cur.group = p.cur.group := rfl
@[simp] theorem took_rangeIx (p : Prog) : p.took.cur.rangeIx = p.cur.rangeIx := rfl
@[simp] theorem took_entryIx (p : Prog) : p.took.cur.entryIx = p.cur.entryIx := rfl
@[simp] theorem took_table (p : Prog) : p.took.cur.table = p.cur.table := rfl
@[simp] theorem stored_mem (p : Prog) (m : Memory) : (p.stored m).mem = m := rfl
@[simp] theorem stored_started (p : Prog) (m : Memory) : (p.stored m).cur.started = p.cur.started := rfl
@[simp] theorem stored_consumed (p : Prog) (m : Memory) : (p.stored m).cur.consumed = p.cur.consumed := rfl
@[simp] theorem stored_produced (p : Prog) (m : Memory) : (p.stored m).cur.produced = p.cur.produced + 1 := rfl
@[simp] theorem stored_group (p : Prog) (m : Memory) : (p.stored m).cur.group = p.cur.group := rfl
@[simp] theorem stored_rangeIx (p : Prog) (m : Memory) : (p.stored m).cur.rangeIx = p.cur.rangeIx := rfl
@[simp] theorem stored_entryIx (p : Prog) (m : Memory) : (p.stored m).cur.entryIx = p.cur.entryIx := rfl
@[simp] theorem stored_table (p : Prog) (m : Memory) : (p.stored m).cur.table = p.cur.table := rfl
@[simp] theorem passOver_mem (a b : Nat) (p : Prog) : (passOver a b p).mem = p.mem := rfl
@[simp] theorem passOver_started (a b : Nat) (p : Prog) : (passOver a b p).cur.started = p.cur.started := rfl
@[simp] theorem passOver_consumed (a b : Nat) (p : Prog) : (passOver a b p).cur.consumed = p.cur.consumed + a := rfl
@[simp] theorem passOver_produced (a b : Nat) (p : Prog) : (passOver a b p).cur.produced = p.cur.produced + b := rfl
@[simp] theorem took_run (p : Prog) : p.took.cur.run = p.cur.run := rfl
@[simp] theorem took_pixels (p : Prog) : p.took.cur.pixels = p.cur.pixels := rfl
@[simp] theorem took_stores (p : Prog) : p.took.cur.stores = p.cur.stores := rfl
@[simp] theorem stored_run (p : Prog) (m : Memory) : (p.stored m).cur.run = p.cur.run := rfl
@[simp] theorem stored_pixels (p : Prog) (m : Memory) : (p.stored m).cur.pixels = p.cur.pixels := rfl
@[simp] theorem stored_stores (p : Prog) (m : Memory) : (p.stored m).cur.stores = p.cur.stores := rfl
@[simp] theorem passOver_run (a b : Nat) (p : Prog) : (passOver a b p).cur.run = p.cur.run := rfl
@[simp] theorem withRun_mem (p : Prog) (r : Run) : (p.withRun r).mem = p.mem := rfl
@[simp] theorem withRun_run (p : Prog) (r : Run) : (p.withRun r).cur.run = r := rfl
@[simp] theorem withRun_started (p : Prog) (r : Run) : (p.withRun r).cur.started = p.cur.started := rfl
@[simp] theorem withRun_consumed (p : Prog) (r : Run) : (p.withRun r).cur.consumed = p.cur.consumed := rfl
@[simp] theorem withRun_produced (p : Prog) (r : Run) : (p.withRun r).cur.produced = p.cur.produced := rfl
@[simp] theorem withPixel_mem (p : Prog) (b : Byte) : (p.withPixel b).mem = p.mem := rfl
@[simp] theorem withPixel_pixels (p : Prog) (b : Byte) : (p.withPixel b).cur.pixels = p.cur.pixels ++ [b] := rfl
@[simp] theorem withPixel_stores (p : Prog) (b : Byte) : (p.withPixel b).cur.stores = p.cur.stores := rfl
@[simp] theorem withPixel_group (p : Prog) (b : Byte) : (p.withPixel b).cur.group = p.cur.group := rfl
@[simp] theorem withPixel_started (p : Prog) (b : Byte) : (p.withPixel b).cur.started = p.cur.started := rfl
@[simp] theorem withPixel_consumed (p : Prog) (b : Byte) : (p.withPixel b).cur.consumed = p.cur.consumed := rfl
@[simp] theorem withPixel_produced (p : Prog) (b : Byte) : (p.withPixel b).cur.produced = p.cur.produced := rfl
@[simp] theorem withStores_mem (p : Prog) (cs : List Host.Cell) : (p.withStores cs).mem = p.mem := by cases cs <;> rfl
@[simp] theorem withStores_stores (p : Prog) (cs : List Host.Cell) : (p.withStores cs).cur.stores = cs := by cases cs <;> rfl
@[simp] theorem withStores_started (p : Prog) (cs : List Host.Cell) : (p.withStores cs).cur.started = p.cur.started := by
  cases cs <;> rfl
@[simp] theorem withStores_consumed (p : Prog) (cs : List Host.Cell) : (p.withStores cs).cur.consumed = p.cur.consumed := by
  cases cs <;> rfl
@[simp] theorem withStores_produced (p : Prog) (cs : List Host.Cell) : (p.withStores cs).cur.produced = p.cur.produced := by
  cases cs <;> rfl
@[simp] theorem withStores_nil_group (p : Prog) : (p.withStores []).cur.group = p.cur.group + 1 := rfl
@[simp] theorem withStores_nil_pixels (p : Prog) : (p.withStores []).cur.pixels = [] := rfl
@[simp] theorem withStores_cons_group (p : Prog) (c : Host.Cell) (cs : List Host.Cell) :
    (p.withStores (c :: cs)).cur.group = p.cur.group := rfl
@[simp] theorem withStores_cons_pixels (p : Prog) (c : Host.Cell) (cs : List Host.Cell) :
    (p.withStores (c :: cs)).cur.pixels = p.cur.pixels := rfl

/-! ## A command at its issue -/

@[simp] theorem fresh_word (w : Word) (s : State) : (Running.fresh w s).word = w := rfl
@[simp] theorem fresh_params (w : Word) (s : State) : (Running.fresh w s).ops.params = s.params := rfl
@[simp] theorem fresh_cur (w : Word) (s : State) : (Running.fresh w s).cur = Cursor.fresh := rfl
@[simp] theorem fresh_ieBefore (w : Word) (s : State) : (Running.fresh w s).ieBefore = s.ie := rfl
@[simp] theorem fresh_before (w : Word) (s : State) : (Running.fresh w s).before = s.mem := rfl
@[simp] theorem fresh_stale (w : Word) (s : State) : (Running.fresh w s).stale = [] := rfl
@[simp] theorem fresh_shielded (w : Word) (s : State) : (Running.fresh w s).shielded = [] := rfl

end Sys2Proof.Machine
end

