-- ==== Sys2Proof/Laws/Ops.lean ====
section
/-! SUPPORT. What the shared operations can do, said once: the loop, the engine's accesses, one unit of a command, its completion,
and the command behind each word. -/

namespace Sys2Proof.Machine

/-! ## The loop -/

@[simp] theorem iterate_zero (f : Prog → UnitResult) (p : Prog) : iterate f 0 p = .more p := rfl

theorem iterate_succ (f : Prog → UnitResult) (n : Nat) (p : Prog) :
    iterate f (n + 1) p = match f p with | .more q => iterate f n q | .done q e => .done q e := rfl

theorem iterate_succ_more {f : Prog → UnitResult} {p q : Prog} (h : f p = .more q) (n : Nat) :
    iterate f (n + 1) p = iterate f n q := by
  rw [iterate_succ, h]

theorem iterate_succ_done {f : Prog → UnitResult} {p q : Prog} {e : Ending} (h : f p = .done q e) (n : Nat) :
    iterate f (n + 1) p = .done q e := by
  rw [iterate_succ, h]

@[simp] theorem iterate_one (f : Prog → UnitResult) (p : Prog) : iterate f 1 p = f p := by
  rw [iterate_succ]
  cases f p <;> rfl

/-- Parts done in two goes are the parts done in one. -/
theorem iterate_add (f : Prog → UnitResult) (m n : Nat) (p : Prog) :
    iterate f (m + n) p = match iterate f m p with | .more q => iterate f n q | .done q e => .done q e := by
  induction m generalizing p with
  | zero => simp
  | succ m ih =>
    rw [Nat.add_right_comm, iterate_succ, iterate_succ]
    cases f p with
    | more q => exact ih q
    | done q e => rfl

/-- An ending stays the ending, however many parts were allowed. -/
theorem iterate_done_le {f : Prog → UnitResult} {m n : Nat} {p q : Prog} {e : Ending} (h : iterate f m p = .done q e)
    (hmn : m ≤ n) : iterate f n p = .done q e := by
  obtain ⟨k, rfl⟩ := Nat.exists_eq_add_of_le hmn
  rw [iterate_add, h]

/-- What holds of the start and is kept by every part holds of what the loop leaves. -/
theorem iterate_induct {f : Prog → UnitResult} (more : Prog → Prop) (done : Prog → Ending → Prop)
    (hmore : ∀ p q, more p → f p = .more q → more q) (hdone : ∀ p q e, more p → f p = .done q e → done q e)
    {n : Nat} {p : Prog} (h : more p) :
    (∀ q, iterate f n p = .more q → more q) ∧ ∀ q e, iterate f n p = .done q e → done q e := by
  induction n generalizing p with
  | zero => exact ⟨fun q hq => by cases hq; exact h, fun q e hq => by cases hq⟩
  | succ n ih =>
    rw [iterate_succ]
    cases hf : f p with
    | more q => exact ih (hmore p q h hf)
    | done q e => exact ⟨fun _ hq => (by cases hq), fun _ _ hq => (by cases hq; exact hdone p q e h hf)⟩

/-- A loop whose parts use up a measure ends within it. -/
theorem iterate_ends {f : Prog → UnitResult} (μ : Prog → Nat) (hμ : ∀ p q, f p = .more q → μ q < μ p) {n : Nat} {p : Prog}
    (h : μ p < n) : ∃ q e, iterate f n p = .done q e := by
  induction n generalizing p with
  | zero => omega
  | succ n ih =>
    rw [iterate_succ]
    cases hf : f p with
    | more q => exact ih (by have := hμ p q hf; omega)
    | done q e => exact ⟨q, e, rfl⟩

/-! ## The engine's accesses -/

/-- Without raced bytes the engine sees system memory. -/
@[simp] theorem BusView.seen_plain (pl : Platform) (sh : List Nat) (m : Memory) (a : Nat) :
    BusView.seen ⟨pl, [], sh⟩ m a = Memory.read m a := rfl

theorem BusView.read_ok {v : BusView} {a : Nat} (h : busError v.platform .read a = false) (m : Memory) :
    v.read m a = some (v.seen m a) := by
  simp [BusView.read, h]

theorem BusView.read_error {v : BusView} {a : Nat} (h : busError v.platform .read a = true) (m : Memory) :
    v.read m a = none := by
  simp [BusView.read, h]

theorem BusView.write_error {v : BusView} {a : Nat} (h : busError v.platform .write a = true) (m : Memory) (b : Byte) :
    v.write m a b = none := by
  simp [BusView.write, h]

/-- Without raced bytes a write that meets no bus error lands. -/
theorem BusView.write_plain {pl : Platform} {a : Nat} (h : busError pl .write a = false) (st : List Host.Cell) (m : Memory)
    (b : Byte) : BusView.write ⟨pl, st, []⟩ m a b = some (Memory.write m a b) := by
  simp [BusView.write, h]

/-- What a write leaves: the byte lands, or is lost to a host write of it (R241). -/
theorem BusView.write_cases {v : BusView} {m m' : Memory} {a : Nat} {b : Byte} (h : v.write m a b = some m') :
    m' = Memory.write m a b ∨ m' = m := by
  unfold BusView.write at h
  split at h
  · cases h
  · split at h <;> cases h <;> simp

/-- Everything a read of a source byte can do (R125). -/
theorem takeByte_cases (v : BusView) (a : Nat) (p : Prog) (k : Byte → Prog → UnitResult) :
    (busError v.platform .read a = true ∧ takeByte v a p k = .done p (.busError a)) ∨
    (busError v.platform .read a = false ∧ takeByte v a p k = k (v.seen p.mem a) p.took) := by
  cases h : busError v.platform .read a
  · exact .inr ⟨rfl, by simp [takeByte, BusView.read_ok h]⟩
  · exact .inl ⟨rfl, by simp [takeByte, BusView.read_error h]⟩

/-- Everything a write of an output byte can do (R125, R241). -/
theorem putByte_cases (v : BusView) (a : Nat) (b : Byte) (p : Prog) :
    (busError v.platform .write a = true ∧ putByte v a b p = .done p (.busError a)) ∨
    (busError v.platform .write a = false ∧
      (putByte v a b p = .more (p.stored (Memory.write p.mem a b)) ∨ putByte v a b p = .more (p.stored p.mem))) := by
  cases h : busError v.platform .write a
  · refine .inr ⟨rfl, ?_⟩
    cases hs : v.shielded.contains a
    · exact .inl (by simp only [putByte, BusView.write, h, hs]; rfl)
    · exact .inr (by simp only [putByte, BusView.write, h, hs]; rfl)
  · exact .inl ⟨rfl, by simp [putByte, BusView.write_error h]⟩

theorem putByte_plain {pl : Platform} {a : Nat} (h : busError pl .write a = false) (st : List Host.Cell) (b : Byte) (p : Prog) :
    putByte ⟨pl, st, []⟩ a b p = .more (p.stored (Memory.write p.mem a b)) := by
  simp [putByte, BusView.write_plain h]

/-! ## One unit of a command -/

theorem Command.unit_started {c : Command} {x : Ctx} {p : Prog} (h : p.cur.started = true) : c.unit x p = c.work x p := by
  simp [Command.unit, h]

theorem Command.unit_fails {c : Command} {x : Ctx} {p : Prog} {e : CheckError} (h : p.cur.started = false)
    (he : c.check x.ops = some e) : c.unit x p = .done p (.failure e) := by
  simp [Command.unit, h, he]

theorem Command.unit_enters {c : Command} {x : Ctx} {p : Prog} (h : p.cur.started = false) (he : c.check x.ops = none) :
    c.unit x p = .more { p with cur := { c.enter x.ops p.cur with started := true } } := by
  simp [Command.unit, h, he]

/-! ## Completion -/

/-- A part of a command that leaves more to do changes memory and the cursors. -/
@[simp] theorem settle_more (f : Operands → Cursor → State → State) (r : Running) (s : State) (p : Prog) :
    settle f r s (.more p) = { s with mem := p.mem, engine := .busy { r with cur := p.cur } } := rfl

@[simp] theorem settle_success (f : Operands → Cursor → State → State) (r : Running) (s : State) (p : Prog) :
    settle f r s (.done p .success) = finish .success p.cur (f r.ops p.cur { s with mem := p.mem }) := rfl

@[simp] theorem settle_failure (f : Operands → Cursor → State → State) (r : Running) (s : State) (p : Prog) (e : CheckError) :
    settle f r s (.done p (.failure e)) = finish (.failure e) p.cur { s with mem := p.mem } := rfl

@[simp] theorem settle_busError (f : Operands → Cursor → State → State) (r : Running) (s : State) (p : Prog) (a : Nat) :
    settle f r s (.done p (.busError a)) = finish (.busError a) p.cur { s with mem := p.mem } := rfl

/-- An ending leaves the engine Idle with `DONE` set (R203). -/
theorem settle_done_idle (f : Operands → Cursor → State → State) (r : Running) (s : State) (p : Prog) (e : Ending) :
    (settle f r s (.done p e)).engine = .idle ∧ (settle f r s (.done p e)).status.done = true := ⟨rfl, rfl⟩

theorem Command.run_idle {c : Command} {w : Word} {s : State} (h : s.engine = .idle) :
    c.run w s = c.complete (Running.fresh w s) (issue w s) := by
  simp [Command.run, h]

theorem Command.run_busy {c : Command} {w : Word} {s : State} {r : Running} (h : s.engine = .busy r) :
    c.run w s = c.complete r s := by
  simp [Command.run, h]

/-- A command that its checks stop changes neither memory nor a cursor (R202, R204). -/
theorem Command.run_fails {c : Command} {w : Word} {s : State} {e : CheckError} (h : s.engine = .idle)
    (he : c.check (latch w s) = some e) : c.run w s = finish (.failure e) Cursor.fresh (issue w s) := by
  rw [Command.run_idle h]
  have hu : c.unit ((Running.fresh w s).ctx (issue w s)) ⟨s.mem, Cursor.fresh⟩ = .done ⟨s.mem, Cursor.fresh⟩ (.failure e) :=
    Command.unit_fails rfl he
  show settle _ _ _ (iterate _ _ ⟨s.mem, Cursor.fresh⟩) = _
  rw [iterate_succ_done hu]
  rfl

/-- A command that its checks let pass works to its end. -/
theorem Command.run_works {c : Command} {w : Word} {s : State} (h : s.engine = .idle) (he : c.check (latch w s) = none) :
    c.run w s =
      settle c.onSuccess (Running.fresh w s) (issue w s)
        (iterate (c.unit ((Running.fresh w s).ctx (issue w s))) (c.bound (latch w s) Cursor.fresh + 1)
          ⟨s.mem, { c.enter (latch w s) Cursor.fresh with started := true }⟩) := by
  rw [Command.run_idle h]
  have hu : c.unit ((Running.fresh w s).ctx (issue w s)) ⟨s.mem, Cursor.fresh⟩ =
      .more ⟨s.mem, { c.enter (latch w s) Cursor.fresh with started := true }⟩ := Command.unit_enters rfl he
  show settle _ _ _ (iterate _ _ ⟨s.mem, Cursor.fresh⟩) = _
  rw [iterate_succ_more hu]
  rfl

/-! ## The command behind a word -/

/-- An Idle engine accepts a word; a Busy one keeps its command. -/
@[simp] theorem accept_idle {w : Word} {s : State} (h : s.engine = .idle) : accept w s = issue w s := by
  simp [accept, h]

@[simp] theorem accept_busy {w : Word} {s : State} {r : Running} (h : s.engine = .busy r) : accept w s = s := by
  simp [accept, h]

/-- Everything an engine move can do about entries never written (R245). -/
theorem unlessUnwritten_cases (s t : State) :
    (s.readsUnwritten = true ∧ unlessUnwritten s t = .fault .unwrittenBasePal) ∨
    (s.readsUnwritten = false ∧ unlessUnwritten s t = .next t) := by
  cases h : s.readsUnwritten
  · exact .inr ⟨rfl, by simp [unlessUnwritten, h]⟩
  · exact .inl ⟨rfl, by simp [unlessUnwritten, h]⟩

/-- Only a running animator reads `BASE_PAL` (R46). -/
theorem readsUnwritten_of_idle {s : State} (h : s.engine = .idle) : s.readsUnwritten = false := by
  simp [State.readsUnwritten, h]

theorem readsUnwritten_of_other {s : State} {r : Running} (h : s.engine = .busy r) (hw : isAnimator r.word = false) :
    s.readsUnwritten = false := by
  simp [State.readsUnwritten, h, hw]

/-- A move that keeps the word, the operands and `BASE_PAL` keeps what the engine reads. -/
theorem readsUnwritten_congr {s t : State} {r r' : Running} (hs : s.engine = .busy r) (ht : t.engine = .busy r')
    (hw : r'.word = r.word) (ho : r'.ops = r.ops) (hb : t.basePal = s.basePal) : t.readsUnwritten = s.readsUnwritten := by
  simp [State.readsUnwritten, hs, ht, hw, ho, hb]

/-- A command word runs the rule of its command (R83), but for an animator that reads an entry never written (R245). -/
theorem exec_command {i : Instr} (h : i.bits = 32) (s : State)
    (hr : (accept (commandWord i) s).readsUnwritten = false ∨ (i ≠ .animate ∧ i ≠ .animateBlend)) :
    exec i s = .next ((commandOf i).run (commandWord i) s) := by
  cases i with
  | literal c => simp [Instr.bits] at h
  | noop => simp [Instr.bits] at h
  | repeatRun c => simp [Instr.bits] at h
  | illegal w =>
    show Host.Outcome.next (illegalCommand.run w s) = .next (illegalCommand.run (BitVec.ofNat 32 w.toNat) s)
    rw [BitVec.ofNat_toNat, BitVec.setWidth_eq]
  | animate =>
    have hr' := hr.resolve_right fun h' => h'.1 rfl
    show unlessUnwritten _ _ = _
    rw [unlessUnwritten, hr']
    rfl
  | animateBlend =>
    have hr' := hr.resolve_right fun h' => h'.2 rfl
    show unlessUnwritten _ _ = _
    rw [unlessUnwritten, hr']
    rfl
  | nop => rfl
  | copy => rfl
  | rleDecode => rfl
  | skip => rfl
  | rleSkip => rfl
  | transposeRow => rfl

/-- An animator that reads an entry never written stops (R245). -/
theorem exec_unwritten {i : Instr} (hi : i = .animate ∨ i = .animateBlend) {s : State}
    (hr : (accept (commandWord i) s).readsUnwritten = true) : exec i s = .fault .unwrittenBasePal := by
  rcases hi with rfl | rfl <;> exact if_pos hr

/-- Everything one access of the engine can do: the fault of R245, or `advance`. -/
theorem accessStep_unwritten {s : State} (h : s.readsUnwritten = true) : accessStep s = .fault .unwrittenBasePal :=
  if_pos h

theorem accessStep_next {s : State} (h : s.readsUnwritten = false) : accessStep s = .next (advance s) := by
  rw [accessStep, unlessUnwritten, h]
  rfl

/-- The command decoder gives commands (R83). -/
theorem decodeCommand_bits (w : Word) : (decodeCommand w).bits = 32 := by
  unfold decodeCommand
  split
  · split <;> rfl
  · rfl

/-- A packet runs where a walk is about to read a control byte, and nowhere else (R117). -/
theorem execPacket_walking {start : Bool → Operands → Prog → UnitResult} {s : State} {r : Running} {write : Bool}
    (h : walking s = some (r, write)) :
    execPacket start s =
      .next (settle keepRegisters r s (finishRun (r.ctx s) (start write r.ops (Prog.took ⟨s.mem, r.cur⟩)))) := by
  simp [execPacket, h]

theorem execPacket_elsewhere {start : Bool → Operands → Prog → UnitResult} {s : State} (h : walking s = none) :
    execPacket start s = .fault .packetOutsideWalk := by
  simp [execPacket, h]

/-- When a walk is about to read a control byte. -/
theorem walking_eq_some {s : State} {r : Running} {write : Bool} (he : s.engine = .busy r) (hw : walkOf r = some write)
    (hs : r.cur.started = true) (hr : r.cur.run = .none) (hd : r.cur.produced < r.ops.dstLen)
    (hc : r.cur.consumed < r.ops.srcLen) : walking s = some (r, write) := by
  simp [walking, he, hw, hs, hr, hd, hc]

end Sys2Proof.Machine
end

