-- ==== Sys2Proof/Laws/Codec.lean ====
section
/-! SUPPORT. What the accesses, packets and turns of the codec can do. -/

namespace Sys2Proof.Machine

/-! ## The number of accesses of a run -/

@[simp] theorem accesses_none : Run.accesses .none = 0 := rfl
@[simp] theorem accesses_copying (n : Nat) : Run.accesses (.copying n .none) = 2 * n + 2 := rfl
@[simp] theorem accesses_holding (n : Nat) (b : Byte) : Run.accesses (.copying n (some b)) = 2 * n + 1 := rfl
@[simp] theorem accesses_fetching (n : Nat) : Run.accesses (.fetching n) = n + 2 := rfl
@[simp] theorem accesses_filling (n : Nat) (v : Byte) : Run.accesses (.filling n v) = n + 1 := rfl

@[simp] theorem accesses_next_copying (n : Nat) : (Run.next (fun k => .copying k .none) n).accesses = 2 * n := by
  cases n <;> rfl

@[simp] theorem accesses_next_filling (n : Nat) (v : Byte) : (Run.next (fun k => .filling k v) n).accesses = n := by
  cases n <;> rfl

theorem accesses_eq_zero {r : Run} : r.accesses = 0 ↔ r = .none := by
  rcases r with _ | ⟨n, _ | b⟩ | n | ⟨n, v⟩ <;> simp

/-! ## One access -/

/-- Everything one access of a run can do that leaves more to do: one byte read or one byte written, and one access less to make. -/
theorem runAccess_more {x : Ctx} {p q : Prog} (h : runAccess x p = .more q) (hr : p.cur.run ≠ .none) :
    q.cur.run.accesses + 1 = p.cur.run.accesses ∧ q.cur.started = p.cur.started ∧
    ((q.mem = p.mem ∧ q.cur.consumed = p.cur.consumed + 1 ∧ q.cur.produced = p.cur.produced ∧
        ((∃ n, p.cur.run = .copying n .none ∧
            q.cur.run = .copying n (some (x.view.seen p.mem (x.ops.srcBase + p.cur.consumed)))) ∨
          ∃ n, p.cur.run = .fetching n ∧ q.cur.run = .filling n (x.view.seen p.mem (x.ops.srcBase + p.cur.consumed)))) ∨
      (q.cur.consumed = p.cur.consumed ∧ q.cur.produced = p.cur.produced + 1 ∧
        ∃ n b, (q.mem = Memory.write p.mem (x.ops.dstBase + p.cur.produced) b ∨ q.mem = p.mem) ∧
          ((p.cur.run = .copying n (some b) ∧ q.cur.run = Run.next (fun k => .copying k .none) n) ∨
            (p.cur.run = .filling n b ∧ q.cur.run = Run.next (fun k => .filling k b) n)))) := by
  unfold runAccess at h
  split at h
  · rename_i hn
    exact absurd hn hr
  · rename_i n hn
    rcases takeByte_cases x.view (x.ops.srcBase + p.cur.consumed) p
      (fun b q => .more (q.withRun (.copying n (some b)))) with ⟨-, h'⟩ | ⟨-, h'⟩ <;> rw [h'] at h <;> cases h
    simp [hn]
  · rename_i n b hn
    rcases putByte_cases x.view (x.ops.dstBase + p.cur.produced) b (p.withRun (Run.next (fun k => .copying k .none) n))
      with ⟨-, h'⟩ | ⟨-, h' | h'⟩ <;> rw [h'] at h <;> cases h <;> simp [hn]
  · rename_i n hn
    rcases takeByte_cases x.view (x.ops.srcBase + p.cur.consumed) p
      (fun b q => .more (q.withRun (.filling n b))) with ⟨-, h'⟩ | ⟨-, h'⟩ <;> rw [h'] at h <;> cases h
    simp [hn]
  · rename_i n b hn
    rcases putByte_cases x.view (x.ops.dstBase + p.cur.produced) b (p.withRun (Run.next (fun k => .filling k b) n))
      with ⟨-, h'⟩ | ⟨-, h' | h'⟩ <;> rw [h'] at h <;> cases h <;> simp [hn]

/-! ## Whole runs -/

/-- Reading and writing one byte of a run, without a bus error and without raced bytes (R114, R120). -/
theorem copyByte_plain {x : Ctx} {n : Nat} {p : Prog} (hrun : p.cur.run = .copying n .none) (hs : x.view.stale = [])
    (hh : x.view.shielded = []) (hr : busError x.view.platform .read (x.ops.srcBase + p.cur.consumed) = false)
    (hw : busError x.view.platform .write (x.ops.dstBase + p.cur.produced) = false) (k : Nat) :
    iterate (runAccess x) (k + 2) p =
      iterate (runAccess x) k
        ⟨Memory.write p.mem (x.ops.dstBase + p.cur.produced) (Memory.read p.mem (x.ops.srcBase + p.cur.consumed)),
          { p.cur with
            consumed := p.cur.consumed + 1
            produced := p.cur.produced + 1
            run := Run.next (fun j => .copying j .none) n }⟩ := by
  obtain ⟨ops, pl, st, sh⟩ := x
  subst hs hh
  have h1 : runAccess ⟨ops, pl, [], []⟩ p =
      .more (p.took.withRun (.copying n (some (Memory.read p.mem (ops.srcBase + p.cur.consumed))))) := by
    unfold runAccess
    simp only [hrun]
    rcases takeByte_cases ⟨pl, [], []⟩ (ops.srcBase + p.cur.consumed) p
      (fun b q => .more (q.withRun (.copying n (some b)))) with ⟨h, -⟩ | ⟨-, h⟩
    · rw [hr] at h; cases h
    · exact h
  rw [show k + 2 = (k + 1) + 1 from rfl, iterate_succ_more h1]
  refine iterate_succ_more ?_ k
  unfold runAccess
  simp only [withRun_run]
  exact putByte_plain (pl := pl) (a := ops.dstBase + p.cur.produced) hw [] _ _

/-- A run of `n + 1` copied bytes, without a bus error and without raced bytes, from a window that shares no byte with the one written
(R114, R120). -/
theorem copying_plain {x : Ctx} (hs : x.view.stale = []) (hh : x.view.shielded = []) {n : Nat} {p : Prog}
    (hrun : p.cur.run = .copying n .none) (hm : Memory.rising 0 p.mem = true)
    (hr : ∀ j, j < n + 1 → busError x.view.platform .read (x.ops.srcBase + p.cur.consumed + j) = false)
    (hw : ∀ j, j < n + 1 → busError x.view.platform .write (x.ops.dstBase + p.cur.produced + j) = false)
    (hd : ∀ i j, i < n + 1 → j < n + 1 → x.ops.srcBase + p.cur.consumed + i ≠ x.ops.dstBase + p.cur.produced + j) :
    ∃ m, finishRun x (.more p) =
        .more ⟨m, { p.cur with
          consumed := p.cur.consumed + (n + 1), produced := p.cur.produced + (n + 1), run := .none }⟩ ∧
      Memory.rising 0 m = true ∧
      ∀ a, Memory.read m a =
        if x.ops.dstBase + p.cur.produced ≤ a ∧ a < x.ops.dstBase + p.cur.produced + (n + 1) then
          Memory.read p.mem (x.ops.srcBase + p.cur.consumed + (a - (x.ops.dstBase + p.cur.produced)))
        else Memory.read p.mem a := by
  induction n generalizing p with
  | zero =>
    refine ⟨Memory.write p.mem (x.ops.dstBase + p.cur.produced) (Memory.read p.mem (x.ops.srcBase + p.cur.consumed)),
      ?_, Memory.rising_write hm (Nat.zero_le _) _, fun a => ?_⟩
    · show iterate _ p.cur.run.accesses p = _
      rw [hrun]
      exact copyByte_plain hrun hs hh (by simpa using hr 0 (by omega)) (by simpa using hw 0 (by omega)) 0
    · rw [Memory.read_write hm]
      by_cases ha : a = x.ops.dstBase + p.cur.produced
      · rw [if_pos ha, if_pos (by omega), ha, Nat.sub_self, Nat.add_zero]
      · rw [if_neg ha, if_neg (by omega)]
  | succ n ih =>
    obtain ⟨m, he, hm', hread⟩ := ih
      (p := ⟨Memory.write p.mem (x.ops.dstBase + p.cur.produced) (Memory.read p.mem (x.ops.srcBase + p.cur.consumed)),
        { p.cur with
          consumed := p.cur.consumed + 1, produced := p.cur.produced + 1, run := .copying n .none }⟩)
      rfl (Memory.rising_write hm (Nat.zero_le _) _)
      (fun j hj => by simpa [Nat.add_comm, Nat.add_left_comm, Nat.add_assoc] using hr (j + 1) (by omega))
      (fun j hj => by simpa [Nat.add_comm, Nat.add_left_comm, Nat.add_assoc] using hw (j + 1) (by omega))
      (fun i j hi hj => by
        have := hd (i + 1) (j + 1) (by omega) (by omega)
        simp only
        omega)
    refine ⟨m, ?_, hm', fun a => ?_⟩
    · show iterate _ p.cur.run.accesses p = _
      rw [hrun]
      refine (copyByte_plain hrun hs hh (by simpa using hr 0 (by omega)) (by simpa using hw 0 (by omega)) (2 * n + 2)).trans ?_
      refine he.trans ?_
      simp only [UnitResult.more.injEq, Prog.mk.injEq, Cursor.mk.injEq, true_and, and_true]
      omega
    · have hread' := hread a
      simp only at hread'
      rw [hread', Memory.read_write hm, Memory.read_write hm]
      by_cases ha : x.ops.dstBase + p.cur.produced ≤ a ∧ a < x.ops.dstBase + p.cur.produced + (n + 1 + 1)
      · rw [if_pos ha]
        by_cases ha0 : a = x.ops.dstBase + p.cur.produced
        · subst ha0
          rw [if_neg (by omega), if_pos rfl, Nat.sub_self, Nat.add_zero]
        · have hne := hd (a - (x.ops.dstBase + p.cur.produced)) 0 (by omega) (by omega)
          rw [if_pos (by omega), if_neg (by omega)]
          congr 1
          omega
      · rw [if_neg ha, if_neg (by omega), if_neg (by omega)]

/-- A run of `n + 1` filled bytes, without a bus error and without raced bytes (R115). -/
theorem filling_plain {x : Ctx} (hh : x.view.shielded = []) {b : Byte} {n : Nat} {p : Prog}
    (hrun : p.cur.run = .filling n b) (hm : Memory.rising 0 p.mem = true)
    (hw : ∀ j, j < n + 1 → busError x.view.platform .write (x.ops.dstBase + p.cur.produced + j) = false) :
    ∃ m, finishRun x (.more p) = .more ⟨m, { p.cur with produced := p.cur.produced + (n + 1), run := .none }⟩ ∧
      Memory.rising 0 m = true ∧
      ∀ a, Memory.read m a =
        if x.ops.dstBase + p.cur.produced ≤ a ∧ a < x.ops.dstBase + p.cur.produced + (n + 1) then b
        else Memory.read p.mem a := by
  have hone : runAccess x p =
      .more ((p.withRun (Run.next (fun k => .filling k b) n)).stored
        (Memory.write p.mem (x.ops.dstBase + p.cur.produced) b)) := by
    obtain ⟨ops, pl, st, sh⟩ := x
    subst hh
    unfold runAccess
    simp only [hrun]
    exact putByte_plain (by simpa using hw 0 (by omega)) st _ _
  induction n generalizing p with
  | zero =>
    refine ⟨Memory.write p.mem (x.ops.dstBase + p.cur.produced) b, ?_, Memory.rising_write hm (Nat.zero_le _) _, fun a => ?_⟩
    · show iterate _ p.cur.run.accesses p = _
      rw [hrun]
      exact (iterate_succ_more hone 0).trans rfl
    · rw [Memory.read_write hm]
      by_cases ha : a = x.ops.dstBase + p.cur.produced
      · rw [if_pos ha, if_pos (by omega)]
      · rw [if_neg ha, if_neg (by omega)]
  | succ n ih =>
    have hw' : ∀ j, j < n + 1 → busError x.view.platform .write (x.ops.dstBase + (p.cur.produced + 1) + j) = false :=
      fun j hj => by simpa [Nat.add_comm, Nat.add_left_comm, Nat.add_assoc] using hw (j + 1) (by omega)
    obtain ⟨m, he, hm', hread⟩ := ih
      (p := ⟨Memory.write p.mem (x.ops.dstBase + p.cur.produced) b,
        { p.cur with produced := p.cur.produced + 1, run := .filling n b }⟩)
      rfl (Memory.rising_write hm (Nat.zero_le _) _) hw' (by
        obtain ⟨ops, pl, st, sh⟩ := x
        subst hh
        exact putByte_plain (pl := pl) (by simpa using hw' 0 (by omega)) st _ _)
    refine ⟨m, ?_, hm', fun a => ?_⟩
    · show iterate _ p.cur.run.accesses p = _
      rw [hrun]
      refine (iterate_succ_more hone (n + 1)).trans (he.trans ?_)
      simp only [UnitResult.more.injEq, Prog.mk.injEq, Cursor.mk.injEq, true_and, and_true]
      omega
    · have hread' := hread a
      simp only at hread'
      rw [hread', Memory.read_write hm]
      by_cases ha0 : a = x.ops.dstBase + p.cur.produced
      · rw [if_neg (by omega), if_pos ha0, if_pos (by omega)]
      · rw [if_neg ha0]
        by_cases ha : x.ops.dstBase + (p.cur.produced + 1) ≤ a ∧ a < x.ops.dstBase + (p.cur.produced + 1) + (n + 1)
        · rw [if_pos ha, if_pos (by omega)]
        · rw [if_neg ha, if_neg (by omega)]

/-! ## Packets -/

/-- The check of a run stops it with `OVERSHOOT` (R118), with `SRC_OVERRUN` (R119), or lets it pass. -/
theorem runCheck_cases (o : Operands) (n need : Nat) (c : Cursor) :
    (o.dstLen - c.produced < n ∧ runCheck o n need c = some .overshoot) ∨
    (n ≤ o.dstLen - c.produced ∧ o.srcLen - c.consumed < need ∧ runCheck o n need c = some .srcOverrun) ∨
    (n ≤ o.dstLen - c.produced ∧ need ≤ o.srcLen - c.consumed ∧ runCheck o n need c = none) := by
  unfold runCheck
  split
  · simp_all
  · split
    · simp_all
    · simp_all

/-- Everything a `LITERAL` can begin with: it ends the command, begins to copy, or has passed over its bytes (R114, R118, R119). -/
theorem startLiteral_cases (c : Nat) (write : Bool) (o : Operands) (p : Prog) :
    (o.dstLen - p.cur.produced < c + 1 ∧ startLiteral c write o p = .done p (.failure .overshoot)) ∨
    (c + 1 ≤ o.dstLen - p.cur.produced ∧ o.srcLen - p.cur.consumed < c + 1 ∧
      startLiteral c write o p = .done p (.failure .srcOverrun)) ∨
    (c + 1 ≤ o.dstLen - p.cur.produced ∧ c + 1 ≤ o.srcLen - p.cur.consumed ∧
      startLiteral c write o p =
        .more (if write then p.withRun (.copying c .none) else passOver (c + 1) (c + 1) p)) := by
  unfold startLiteral
  rcases runCheck_cases o (c + 1) (c + 1) p.cur with ⟨h, hc⟩ | ⟨h, h', hc⟩ | ⟨h, h', hc⟩
  · exact .inl ⟨h, by simp [hc]⟩
  · exact .inr (.inl ⟨h, h', by simp [hc]⟩)
  · exact .inr (.inr ⟨h, h', by cases write <;> simp [hc]⟩)

/-- Everything a `REPEAT` can begin with: it ends the command, begins with its data byte, or has passed over it (R115, R118, R119). -/
theorem startRepeat_cases (c : Int) (write : Bool) (o : Operands) (p : Prog) :
    (o.dstLen - p.cur.produced < (1 - c).toNat ∧ startRepeat c write o p = .done p (.failure .overshoot)) ∨
    ((1 - c).toNat ≤ o.dstLen - p.cur.produced ∧ o.srcLen - p.cur.consumed < 1 ∧
      startRepeat c write o p = .done p (.failure .srcOverrun)) ∨
    ((1 - c).toNat ≤ o.dstLen - p.cur.produced ∧ 1 ≤ o.srcLen - p.cur.consumed ∧
      startRepeat c write o p =
        .more (if write then p.withRun (.fetching (-c).toNat) else passOver 1 (1 - c).toNat p)) := by
  unfold startRepeat
  rcases runCheck_cases o (1 - c).toNat 1 p.cur with ⟨h, hc⟩ | ⟨h, h', hc⟩ | ⟨h, h', hc⟩
  · exact .inl ⟨h, by simp [hc]⟩
  · exact .inr (.inl ⟨h, h', by simp [hc]⟩)
  · exact .inr (.inr ⟨h, h', by cases write <;> simp [hc]⟩)

/-- The counts that a control byte can have (R90). -/
theorem decodeControl_cases (b : Byte) :
    (∃ c, c ≤ 127 ∧ decodeControl b = .literal c) ∨ (∃ c : Int, -127 ≤ c ∧ c ≤ -1 ∧ decodeControl b = .repeatRun c) ∨
      decodeControl b = .noop := by
  have h1 := BitVec.toInt_lt (x := b)
  unfold decodeControl
  split
  · exact .inl ⟨b.toInt.toNat, by omega, rfl⟩
  · split
    · exact .inr (.inl ⟨b.toInt, by omega, by omega, rfl⟩)
    · exact .inr (.inr rfl)

/-- A packet that has begun and leaves more to do has at most 256 accesses to make, and has not moved the source cursor back. -/
theorem startPacket_more {b : Byte} {write : Bool} {o : Operands} {p q : Prog} (hn : p.cur.run = .none)
    (h : startPacket (decodeControl b) write o p = .more q) :
    q.cur.run.accesses ≤ 256 ∧ p.cur.consumed ≤ q.cur.consumed ∧ q.cur.started = p.cur.started ∧ q.mem = p.mem := by
  rcases decodeControl_cases b with ⟨c, hc, hd⟩ | ⟨c, hc, hc', hd⟩ | hd <;> rw [hd] at h
  · rcases startLiteral_cases c write o p with ⟨-, h'⟩ | ⟨-, -, h'⟩ | ⟨-, -, h'⟩ <;>
      rw [startPacket, h'] at h <;> cases h
    cases write
    · simp [hn]
    · simp
      omega
  · rcases startRepeat_cases c write o p with ⟨-, h'⟩ | ⟨-, -, h'⟩ | ⟨-, -, h'⟩ <;>
      rw [startPacket, h'] at h <;> cases h
    cases write
    · simp [hn]
    · simp
      omega
  · cases h
    simp [hn]

/-! ## Turns -/

/-- Everything a turn of the walk that leaves more to do can be: an access of the run in progress, or a control byte and the begin of its
packet (R117). -/
theorem walkTurn_more {write : Bool} {x : Ctx} {p q : Prog} (h : walkTurn write x p = .more q) :
    (p.cur.run ≠ .none ∧ runAccess x p = .more q) ∨
    (p.cur.run = .none ∧ p.cur.produced < x.ops.dstLen ∧ p.cur.consumed < x.ops.srcLen ∧
      busError x.view.platform .read (x.ops.srcBase + p.cur.consumed) = false ∧
      startPacket (decodeControl (x.view.seen p.mem (x.ops.srcBase + p.cur.consumed))) write x.ops p.took = .more q) := by
  unfold walkTurn at h
  split at h
  · rename_i hn
    split at h
    · rename_i hd
      split at h
      · rename_i hc
        rcases takeByte_cases x.view (x.ops.srcBase + p.cur.consumed) p
          (fun b q => startPacket (decodeControl b) write x.ops q) with ⟨-, h'⟩ | ⟨hb, h'⟩ <;> rw [h'] at h
        · cases h
        · exact .inr ⟨hn, hd, hc, hb, h⟩
      · cases h
    · cases h
  · rename_i hn
    exact .inl ⟨hn, h⟩

/-- A turn of `COPY` that leaves more to do is an access of its run (R120). -/
theorem copyTurn_more {x : Ctx} {p q : Prog} (h : copyTurn x p = .more q) : p.cur.run ≠ .none ∧ runAccess x p = .more q := by
  unfold copyTurn at h
  split at h
  · cases h
  · rename_i hn
    exact ⟨hn, h⟩

end Sys2Proof.Machine
end

