-- ==== Sys2Proof/Laws/Transpose.lean ====
section
/-! SUPPORT. What the accesses of the transpose can do. -/

namespace Sys2Proof.Machine

/-- A group stores two bytes for each plane (R146). -/
theorem groupStores_length (o : Operands) (g : Nat) (px : List Byte) : (groupStores o g px).length = 2 * o.depth := by
  simp [groupStores, List.length_flatMap, List.map_const', Nat.mul_comm]

/-- Everything an access of a row that leaves more to do can be: a plane byte, a pixel read, a pixel from `W` on, or the step from the
pixels to the plane bytes (R143, R146, R147). -/
theorem groupTurn_more {x : Ctx} {p q : Prog} (h : groupTurn x p = .more q) :
    p.cur.group < x.ops.groups ∧
    ((∃ a b cs, p.cur.stores = (a, b) :: cs ∧ busError x.view.platform .write a = false ∧
        (q = (p.withStores cs).stored (Memory.write p.mem a b) ∨ q = (p.withStores cs).stored p.mem)) ∨
      (p.cur.stores = [] ∧ p.cur.pixels.length < 16 ∧ 16 * p.cur.group + p.cur.pixels.length < x.ops.width ∧
        busError x.view.platform .read (x.ops.pixelBase + (16 * p.cur.group + p.cur.pixels.length)) = false ∧
        q = p.took.withPixel (x.view.seen p.mem (x.ops.pixelBase + (16 * p.cur.group + p.cur.pixels.length)))) ∨
      (p.cur.stores = [] ∧ p.cur.pixels.length < 16 ∧ x.ops.width ≤ 16 * p.cur.group + p.cur.pixels.length ∧
        q = p.withPixel 0) ∨
      (p.cur.stores = [] ∧ 16 ≤ p.cur.pixels.length ∧
        q = p.withStores (groupStores x.ops p.cur.group p.cur.pixels))) := by
  unfold groupTurn Config.groupPixels at h
  split at h
  · rename_i hg
    refine ⟨hg, ?_⟩
    split at h
    · rename_i a b cs hs
      rcases putByte_cases x.view a b (p.withStores cs) with ⟨-, h'⟩ | ⟨hb, h' | h'⟩ <;> rw [h'] at h <;> cases h
      · exact .inl ⟨a, b, cs, hs, hb, .inl (by rw [withStores_mem])⟩
      · exact .inl ⟨a, b, cs, hs, hb, .inr (by rw [withStores_mem])⟩
    · rename_i hs
      split at h
      · rename_i hl
        split at h
        · rename_i hw
          rcases takeByte_cases x.view (x.ops.pixelBase + (16 * p.cur.group + p.cur.pixels.length)) p
            (fun b q => .more (q.withPixel b)) with ⟨-, h'⟩ | ⟨hb, h'⟩ <;> rw [h'] at h <;> cases h
          exact .inr (.inl ⟨hs, hl, hw, hb, rfl⟩)
        · cases h
          exact .inr (.inr (.inl ⟨hs, hl, by omega, rfl⟩))
      · cases h
        exact .inr (.inr (.inr ⟨hs, by omega, rfl⟩))
  · cases h

end Sys2Proof.Machine
end

