-- ==== Sys2Proof/Laws/Ends.lean ====
section
/-! SUPPORT. The bound that each command states is enough units for it to end, from any cursors (70_reset_and_hazards.md R248). -/

namespace Sys2Proof.Machine

/-- A command that passes its checks within its bound, and whose work then uses up a measure below that bound, ends within it. -/
theorem Command.ends_of_measure {c : Command} {x : Ctx} (μ : Cursor → Nat)
    (hb : ∀ k, μ k ≤ c.bound x.ops k)
    (henter : ∀ k, μ { c.enter x.ops k with started := true } ≤ c.bound x.ops k)
    (hwork : ∀ p q, c.work x p = .more q → μ q.cur < μ p.cur ∧ q.cur.started = p.cur.started) (p : Prog) :
    ∃ q e, iterate (c.unit x) (c.bound x.ops p.cur + 2) p = .done q e := by
  refine iterate_ends (fun q => if q.cur.started then μ q.cur else c.bound x.ops q.cur + 1) ?_ ?_
  · intro p q h
    unfold Command.unit at h
    split at h
    · rename_i hs
      obtain ⟨h1, h2⟩ := hwork p q h
      simp only [h2, hs, if_true]
      exact h1
    · rename_i hs
      split at h
      · cases h
      · cases h
        simp only [if_true, if_neg hs]
        exact Nat.lt_succ_of_le (henter p.cur)
  · have := hb p.cur
    split <;> omega

/-- A command that ends with its first unit after the checks. -/
theorem Command.ends_at_once {c : Command} {x : Ctx} (hwork : ∀ p q, c.work x p ≠ .more q) (p : Prog) :
    ∃ q e, iterate (c.unit x) (c.bound x.ops p.cur + 2) p = .done q e :=
  Command.ends_of_measure (fun _ => 0) (fun _ => Nat.zero_le _) (fun _ => Nat.zero_le _)
    (fun p q h => absurd h (hwork p q)) p

/-- Each unit of `COPY` is an access less to make (R120). -/
theorem copyTurn_ends {x : Ctx} (p q : Prog) (h : copyTurn x p = .more q) :
    q.cur.run.accesses < p.cur.run.accesses ∧ q.cur.started = p.cur.started := by
  obtain ⟨hr, h⟩ := copyTurn_more h
  have := runAccess_more h hr
  exact ⟨by omega, this.2.1⟩

/-- Each unit of a walk makes an access of its run or consumes a control byte, whose packet has at most 256 accesses (R91, R117). -/
theorem walkTurn_ends {write : Bool} {x : Ctx} (p q : Prog) (h : walkTurn write x p = .more q) :
    walkBound x.ops q.cur < walkBound x.ops p.cur ∧ q.cur.started = p.cur.started := by
  unfold walkBound
  rcases walkTurn_more h with ⟨hr, h⟩ | ⟨hn, -, hc, -, h⟩
  · obtain ⟨ha, hs, ⟨-, hc, -⟩ | ⟨hc, -⟩⟩ := runAccess_more h hr
    · exact ⟨by omega, hs⟩
    · exact ⟨by omega, hs⟩
  · obtain ⟨ha, hc', hs, -⟩ := startPacket_more (by simpa using hn) h
    simp only [took_consumed] at hc'
    refine ⟨?_, by simpa using hs⟩
    rw [hn, accesses_none]
    omega

/-- The units left of a row: of the group it is in, and of the groups after it. -/
def rowLeft (o : Operands) (c : Cursor) : Nat :=
  if c.group < o.groups then
    (2 * o.depth + 18) * (o.groups - c.group - 1) +
      (if c.stores = [] then 16 - c.pixels.length + 2 * o.depth + 1 else c.stores.length)
  else 0

theorem rowLeft_le (o : Operands) (c : Cursor) : rowLeft o c ≤ rowBound o c := by
  unfold rowLeft rowBound
  split
  · rename_i h
    obtain ⟨k, hk⟩ := Nat.exists_eq_add_of_lt h
    rw [show o.groups - c.group = k + 1 from by omega, Nat.mul_succ, Nat.add_sub_cancel]
    split <;> omega
  · exact Nat.zero_le _

/-- Each unit of a row reads or pads a pixel, goes over to the plane bytes, or writes one (R147). -/
theorem groupTurn_ends {x : Ctx} (p q : Prog) (h : groupTurn x p = .more q) :
    rowLeft x.ops q.cur < rowLeft x.ops p.cur ∧ q.cur.started = p.cur.started := by
  have hstores : ∀ (p : Prog) (cs : List Host.Cell), p.cur.group < x.ops.groups →
      rowLeft x.ops (p.withStores cs).cur ≤
        (2 * x.ops.depth + 18) * (x.ops.groups - p.cur.group - 1) + cs.length ∧
      (p.withStores cs).cur.started = p.cur.started := by
    intro p cs hg
    cases cs with
    | nil =>
      refine ⟨?_, rfl⟩
      simp only [Prog.withStores, rowLeft]
      split
      · rename_i hg'
        rw [show x.ops.groups - p.cur.group - 1 = (x.ops.groups - (p.cur.group + 1) - 1) + 1 from by omega, Nat.mul_succ]
        simp
        omega
      · exact Nat.zero_le _
    | cons c cs =>
      refine ⟨?_, rfl⟩
      simp [Prog.withStores, rowLeft, hg]
  obtain ⟨hg, ⟨a, b, cs, hs, -, hq⟩ | ⟨hs, hl, -, -, rfl⟩ | ⟨hs, hl, -, rfl⟩ | ⟨hs, hl, rfl⟩⟩ := groupTurn_more h
  · have hcur : rowLeft x.ops q.cur = rowLeft x.ops (p.withStores cs).cur ∧
        q.cur.started = (p.withStores cs).cur.started := by
      rcases hq with rfl | rfl <;> exact ⟨rfl, rfl⟩
    have := hstores p cs hg
    rw [hcur.1, hcur.2]
    refine ⟨?_, this.2⟩
    have hp : rowLeft x.ops p.cur = (2 * x.ops.depth + 18) * (x.ops.groups - p.cur.group - 1) + (cs.length + 1) := by
      simp [rowLeft, hg, hs]
    omega
  · refine ⟨?_, rfl⟩
    simp [rowLeft, hg, hs]
    omega
  · refine ⟨?_, rfl⟩
    simp [rowLeft, hg, hs]
    omega
  · have := hstores p (groupStores x.ops p.cur.group p.cur.pixels) hg
    rw [groupStores_length] at this
    refine ⟨?_, this.2⟩
    have hp : rowLeft x.ops p.cur = (2 * x.ops.depth + 18) * (x.ops.groups - p.cur.group - 1) +
        (16 - p.cur.pixels.length + 2 * x.ops.depth + 1) := by
      simp [rowLeft, hg, hs]
    omega

/-- Everything a unit of the animator that leaves more to do can be: one entry, or the step to the next range (R168). -/
theorem tableTurn_more {blended : Bool} {x : Ctx} {p q : Prog} (h : tableTurn blended x p = .more q) :
    p.cur.rangeIx < x.ops.nRanges ∧ q.mem = p.mem ∧
    ((p.cur.entryIx < (x.ops.range p.cur.rangeIx).count ∧
        q.cur = { p.cur with
          entryIx := p.cur.entryIx + 1
          table := p.cur.table.set ((x.ops.range p.cur.rangeIx).low.toNat + p.cur.entryIx)
            (rangeEntry blended x.ops (x.ops.range p.cur.rangeIx) p.cur.entryIx) }) ∨
      ((x.ops.range p.cur.rangeIx).count ≤ p.cur.entryIx ∧
        q.cur = { p.cur with rangeIx := p.cur.rangeIx + 1, entryIx := 0 })) := by
  unfold tableTurn at h
  split at h
  · rename_i hk
    refine ⟨hk, ?_⟩
    simp only at h
    split at h
    · rename_i hi
      cases h
      exact ⟨rfl, .inl ⟨hi, rfl⟩⟩
    · rename_i hi
      cases h
      exact ⟨rfl, .inr ⟨by omega, rfl⟩⟩
  · cases h

theorem ColourRange.count_le (r : ColourRange) : r.count ≤ 256 := by
  have := r.high.isLt
  unfold ColourRange.count
  omega

theorem tableTurn_ends (blended : Bool) (x : Ctx) (p q : Prog) (h : tableTurn blended x p = .more q) :
    257 * (x.ops.nRanges - q.cur.rangeIx) - min q.cur.entryIx 256 <
      257 * (x.ops.nRanges - p.cur.rangeIx) - min p.cur.entryIx 256 ∧ q.cur.started = p.cur.started := by
  obtain ⟨hk, -, ⟨hi, hq⟩ | ⟨-, hq⟩⟩ := tableTurn_more h
  · have := (x.ops.range p.cur.rangeIx).count_le
    rw [hq]
    simp only [and_true]
    omega
  · rw [hq]
    simp only [and_true]
    omega

/-- The bound of every command is enough, from any cursors (R248). -/
theorem command_ends (i : Instr) (x : Ctx) (p : Prog) :
    ∃ q e, iterate ((commandOf i).unit x) ((commandOf i).bound x.ops p.cur + 2) p = .done q e := by
  have hdecode : ∃ q e, iterate (rleDecodeCommand.unit x) (rleDecodeCommand.bound x.ops p.cur + 2) p = .done q e :=
    Command.ends_of_measure (walkBound x.ops) (fun _ => Nat.le_refl _) (fun _ => Nat.le_refl _) walkTurn_ends p
  cases i with
  | nop => exact Command.ends_at_once (fun _ _ h => by cases h) p
  | copy =>
    refine Command.ends_of_measure (fun k => k.run.accesses) (fun k => Nat.le_add_left _ _) (fun k => ?_) copyTurn_ends p
    show (Run.next (fun n => .copying n .none) x.ops.dstLen).accesses ≤ _
    rw [accesses_next_copying]
    exact Nat.le_add_right _ _
  | rleDecode => exact hdecode
  | skip => exact Command.ends_at_once (fun _ _ h => by cases h) p
  | rleSkip =>
    exact Command.ends_of_measure (walkBound x.ops) (fun _ => Nat.le_refl _) (fun _ => Nat.le_refl _) walkTurn_ends p
  | transposeRow =>
    exact Command.ends_of_measure (c := transposeCommand) (rowLeft x.ops) (rowLeft_le x.ops) (fun k => rowLeft_le x.ops k)
      groupTurn_ends p
  | animate =>
    exact Command.ends_of_measure (fun k => 257 * (x.ops.nRanges - k.rangeIx) - min k.entryIx 256) (fun _ => Nat.sub_le _ _)
      (fun _ => Nat.sub_le _ _) (tableTurn_ends false x) p
  | animateBlend =>
    exact Command.ends_of_measure (fun k => 257 * (x.ops.nRanges - k.rangeIx) - min k.entryIx 256) (fun _ => Nat.sub_le _ _)
      (fun _ => Nat.sub_le _ _) (tableTurn_ends true x) p
  | illegal w => exact Command.ends_at_once (fun _ _ h => by cases h) p
  | literal c => exact hdecode
  | noop => exact hdecode
  | repeatRun c => exact hdecode

/-- A Busy engine's command reaches an ending: what `complete` leaves is `finish` of it (R203, R248). -/
theorem Command.complete_ends (i : Instr) (r : Running) (s : State) :
    ∃ p e, iterate ((commandOf i).unit (r.ctx s)) ((commandOf i).bound r.ops r.cur + 2) ⟨s.mem, r.cur⟩ = .done p e ∧
      (commandOf i).complete r s = settle (commandOf i).onSuccess r s (.done p e) := by
  obtain ⟨p, e, h⟩ := command_ends i (r.ctx s) ⟨s.mem, r.cur⟩
  exact ⟨p, e, h, by unfold Command.complete Command.move; exact congrArg _ h⟩

end Sys2Proof.Machine
end

