-- ==== Sys2Proof/Laws/Palette.lean ====
section
/-! SUPPORT. What a read of a palette entry gives after each update of the palette. -/

namespace Sys2Proof.Machine

/-- An index past the table gives a free value. -/
theorem Palette.get_outside (p : Palette) (n : Nat) {i : Nat} (h : 256 ≤ i) : p.get n i = Config.freeColour n i := by
  simp [Palette.get, Vector.getElem?_eq_none h]

/-- After a write of entry `j`, entry `j` shows it and every other entry is as before. -/
theorem Palette.get_set (p : Palette) (j : Nat) (c : Colour) (n i : Nat) :
    (p.set j c).get n i = if i = j ∧ j < 256 then c else p.get n i := by
  by_cases h : i = j ∧ j < 256
  · obtain ⟨rfl, hj⟩ := h
    simp [Palette.get, Palette.set, hj]
  · rw [if_neg h]
    by_cases hij : j = i
    · subst hij
      have hj : 256 ≤ j := by omega
      rw [Palette.get_outside _ _ hj, Palette.get_outside _ _ hj]
    · simp [Palette.get, Palette.set, Vector.getElem?_setIfInBounds_ne, hij]

/-- A table laid over a palette replaces its first entries and nothing else (R168, R170). -/
theorem Palette.get_overlay (p : Palette) (t : List Colour) (n i : Nat) :
    (p.overlay t).get n i = if i < t.length ∧ i < 256 then t.getD i 0 else p.get n i := by
  by_cases hi : i < 256
  · by_cases ht : i < t.length <;> simp [Palette.get, Palette.overlay, hi, ht]
  · rw [if_neg (by omega), Palette.get_outside _ _ (by omega), Palette.get_outside _ _ (by omega)]

/-- A mix of two palettes shows the one or the other, entry by entry (R231). -/
theorem Palette.get_merge (p q : Palette) (pick : Nat → Bool) (n i : Nat) :
    (p.merge q pick).get n i = if pick i then q.get n i else p.get n i := by
  by_cases hi : i < 256
  · cases hp : pick i <;> simp [Palette.get, Palette.merge, hi, hp]
  · have hi' : 256 ≤ i := by omega
    simp only [Palette.get_outside _ _ hi', ite_self]

end Sys2Proof.Machine
end

