-- ==== Sys2Proof/Laws/PerInstr.lean ====
section
/-! SUPPORT. What holds of every instruction as syntax, one lemma per constructor. -/

/-- The word of a well-formed instruction fits the bits its row has (30_encoding.md R80, R90). -/
def Sys2Proof.Laws.EncodeFits.Statement (i : Sys2Proof.Instr) : Prop :=
  i.wellFormed = true → Sys2Proof.encode i < 2 ^ i.bits

theorem Sys2Proof.Laws.EncodeFits.nop : Sys2Proof.Laws.EncodeFits.Statement .nop := fun _ => by decide

theorem Sys2Proof.Laws.EncodeFits.copy : Sys2Proof.Laws.EncodeFits.Statement .copy := fun _ => by decide

theorem Sys2Proof.Laws.EncodeFits.rleDecode : Sys2Proof.Laws.EncodeFits.Statement .rleDecode := fun _ => by decide

theorem Sys2Proof.Laws.EncodeFits.skip : Sys2Proof.Laws.EncodeFits.Statement .skip := fun _ => by decide

theorem Sys2Proof.Laws.EncodeFits.rleSkip : Sys2Proof.Laws.EncodeFits.Statement .rleSkip := fun _ => by decide

theorem Sys2Proof.Laws.EncodeFits.transposeRow : Sys2Proof.Laws.EncodeFits.Statement .transposeRow := fun _ => by decide

theorem Sys2Proof.Laws.EncodeFits.animate : Sys2Proof.Laws.EncodeFits.Statement .animate := fun _ => by decide

theorem Sys2Proof.Laws.EncodeFits.animateBlend : Sys2Proof.Laws.EncodeFits.Statement .animateBlend := fun _ => by decide

theorem Sys2Proof.Laws.EncodeFits.illegal (w : Sys2Proof.Word) : Sys2Proof.Laws.EncodeFits.Statement (.illegal w) :=
  fun _ => w.isLt

theorem Sys2Proof.Laws.EncodeFits.literal (c : Nat) : Sys2Proof.Laws.EncodeFits.Statement (.literal c) := fun h => by
  simp only [Sys2Proof.Instr.wellFormed, decide_eq_true_eq] at h
  show c < 256
  omega

theorem Sys2Proof.Laws.EncodeFits.noop : Sys2Proof.Laws.EncodeFits.Statement .noop := fun _ => by decide

theorem Sys2Proof.Laws.EncodeFits.repeatRun (c : Int) : Sys2Proof.Laws.EncodeFits.Statement (.repeatRun c) := fun h => by
  simp only [Sys2Proof.Instr.wellFormed, Bool.and_eq_true, decide_eq_true_eq] at h
  show (256 + c).toNat < 256
  omega
end

