-- ==== Sys2Proof/Laws/Races.lean ====
section
/-! SUPPORT. What a mix of two memories holds (70_reset_and_hazards.md R231). -/

namespace Sys2Proof.Machine

@[simp] theorem Memory.mix_nil (m n : Memory) (pick : Nat → Bool) : Memory.mix m n pick [] = m := rfl

theorem Memory.mix_cons (m n : Memory) (pick : Nat → Bool) (a : Nat) (as : List Nat) :
    Memory.mix m n pick (a :: as) = Memory.mix (if pick a then Memory.write m a (Memory.read n a) else m) n pick as := rfl

/-- A mix keeps rising addresses. -/
theorem Memory.rising_mix {m : Memory} (hm : Memory.rising 0 m = true) (n : Memory) (pick : Nat → Bool) (as : List Nat) :
    Memory.rising 0 (Memory.mix m n pick as) = true := by
  induction as generalizing m with
  | nil => exact hm
  | cons a as ih =>
    rw [Memory.mix_cons]
    refine ih ?_
    split
    · exact Memory.rising_write hm (Nat.zero_le a) _
    · exact hm

/-- A mix shows the second memory at the marked addresses of the list, the first everywhere else. -/
theorem Memory.read_mix {m : Memory} (hm : Memory.rising 0 m = true) (n : Memory) (pick : Nat → Bool) (as : List Nat) (b : Nat) :
    Memory.read (Memory.mix m n pick as) b = if b ∈ as ∧ pick b = true then Memory.read n b else Memory.read m b := by
  induction as generalizing m with
  | nil => simp
  | cons a as ih =>
    rw [Memory.mix_cons]
    cases ha : pick a
    · rw [if_neg (by simp), ih hm]
      by_cases hb : b = a
      · subst hb
        simp [ha]
      · simp [hb]
    · rw [if_pos rfl, ih (Memory.rising_write hm (Nat.zero_le a) _), Memory.read_write hm]
      by_cases hb : b = a
      · subst hb
        simp [ha]
      · simp [hb]

/-- A mix over existing addresses keeps the canonical form. -/
theorem Memory.wf_mix {m : Memory} (hm : Memory.wf m = true) (n : Memory) (pick : Nat → Bool) {as : List Nat}
    (h : ∀ a ∈ as, a < 2 ^ 32) : Memory.wf (Memory.mix m n pick as) = true := by
  induction as generalizing m with
  | nil => exact hm
  | cons a as ih =>
    rw [Memory.mix_cons]
    refine ih ?_ fun x hx => h x (List.mem_cons_of_mem _ hx)
    split
    · exact Memory.wf_write hm (h a (List.mem_cons_self ..)) _
    · exact hm

end Sys2Proof.Machine
end

