-- ==== Sys2Proof/Tests/Slice0.lean ====
section
/-! SUPPORT. The model's own tests. Expected values are those of spec/95_test_vectors.md, whose vector is named before each test, or
are written out from the encoding tables of 30_encoding.md. -/

namespace Sys2Proof.Machine.Tests

set_option Elab.async false

/-! ## Small states -/

/-- Bytes laid from an address on. -/
def putBytes (a : Nat) : List Byte → Memory → Memory
  | [], m => m
  | b :: bs, m => putBytes (a + 1) bs (Memory.write m a b)

/-- Bytes read from an address on. -/
def bytesFrom (m : Memory) (a n : Nat) : List Byte := (List.range n).map fun j => Memory.read m (a + j)

/-- The codec vectors' setting: source bytes at 0x100, destination at 0x200. -/
def codecState (src : List Byte) (dstLen : Nat) : State :=
  { State.reset with
    mem := putBytes 0x100 src []
    params := { Params.reset with
      srcAddr := 0x100, srcLen := BitVec.ofNat 32 src.length, dstAddr := 0x200, dstLen := BitVec.ofNat 32 dstLen } }

/-- The transpose vectors' setting: pixels at 0x100, planes at 0x400. -/
def pixelState (px : List Byte) (depth stride : Nat) : State :=
  { State.reset with
    mem := putBytes 0x100 px []
    params := { Params.reset with
      tpSrc := 0x100, tpWidth := BitVec.ofNat 16 px.length, tpDepth := BitVec.ofNat 4 depth, tpDst := 0x400,
      tpPstride := BitVec.ofNat 32 stride } }

/-- `BASE_PAL[i] = 0x111111 * i` for `i < n`. -/
def greyPalette (n : Nat) : Palette :=
  (List.range n).foldl (fun p i => p.set i (BitVec.ofNat 24 (0x111111 * i))) Palette.reset

/-- The animator vectors' setting. -/
def cycleState (n : Nat) (rs : List ColourRange) (elapsed : Word) : State :=
  { State.reset with
    basePal := greyPalette 8
    params := { Params.reset with
      nColors := BitVec.ofNat 9 n, nRanges := BitVec.ofNat 5 rs.length, elapsed := elapsed
      ranges := tabulate 16 fun k => rs.getD k ⟨0, 0, false, 0⟩ } }

/-- Bus errors at one address, for both kinds of access. -/
def failingAt (a : Nat) : Platform := { Platform.reset with busErrors := [⟨a, 1, true, true⟩] }

/-- A running command whose checks have passed. -/
def startedWith (w : Word) (consumed produced : Nat) (s : State) : State :=
  { issue w s with
    engine := .busy { Running.fresh w s with
      cur := { Cursor.fresh with started := true, consumed := consumed, produced := produced } } }

/-- What the running command of `startedWith` is. -/
def startedRun (w : Word) (consumed produced : Nat) (s : State) : Running :=
  { Running.fresh w s with cur := { Cursor.fresh with started := true, consumed := consumed, produced := produced } }

/-- The state an instruction leaves. -/
def after (i : Instr) (s : State) : State :=
  match exec i s with
  | .next t    => t
  | .fault _   => s
  | .refused _ => s

/-- The code, `RESULT` and `OUTCOUNT` that an instruction leaves. -/
def ending (i : Instr) (s : State) : Nat × Nat × Nat :=
  ((after i s).errCode.toNat, (after i s).result.toNat, (after i s).outCount.toNat)

/-- The first entries of `OUT_PAL` as numbers. -/
def shown (n : Nat) (s : State) : List Nat := (List.range n).map fun i => (s.outPal.get 0 i).toNat

/-! ## WellFormed refuses ill-formed terms -/

theorem test_wellFormed_refuses_legal_word_as_illegal : (Instr.illegal 0x10).wellFormed = false := by decide
theorem test_wellFormed_takes_illegal_word : (Instr.illegal 0x14).wellFormed = true := by decide
theorem test_wellFormed_refuses_long_literal : (Instr.literal 128).wellFormed = false := by decide
theorem test_wellFormed_refuses_repeat_zero : (Instr.repeatRun 0).wellFormed = false := by decide
theorem test_wellFormed_refuses_repeat_minus_128 : (Instr.repeatRun (-128)).wellFormed = false := by decide

/-! ## Decoding: words written out from R80, R81 (RSVD 24 bits, UNIT 4, FUNC 4) and R90 -/

theorem test_decode_nop : decodeTableWord 32 0b000000000000000000000000_0000_0000 = some .nop := by decide
theorem test_decode_copy : decodeTableWord 32 0b000000000000000000000000_0001_0000 = some .copy := by decide
theorem test_decode_rleDecode : decodeTableWord 32 0b000000000000000000000000_0001_0001 = some .rleDecode := by decide
theorem test_decode_skip : decodeTableWord 32 0b000000000000000000000000_0001_0010 = some .skip := by decide
theorem test_decode_rleSkip : decodeTableWord 32 0b000000000000000000000000_0001_0011 = some .rleSkip := by decide
theorem test_decode_transposeRow : decodeTableWord 32 0b000000000000000000000000_0010_0000 = some .transposeRow := by decide
theorem test_decode_animate : decodeTableWord 32 0b000000000000000000000000_0011_0000 = some .animate := by decide
theorem test_decode_animateBlend : decodeTableWord 32 0b000000000000000000000000_0011_0001 = some .animateBlend := by decide
-- K2, K3, K4
theorem test_decode_illegal_func : decodeTableWord 32 0x00000014 = some (.illegal 0x14) := by decide
theorem test_decode_illegal_reserved : decodeTableWord 32 0x00000111 = some (.illegal 0x111) := by decide
theorem test_decode_illegal_others :
    [0x21, 0x32, 0x01, 0xFFFFFFFF].map (decodeTableWord 32) =
      [some (.illegal 0x21), some (.illegal 0x32), some (.illegal 0x01), some (.illegal 0xFFFFFFFF)] := by decide
theorem test_decode_literal : decodeTableWord 8 0b0_0000010 = some (.literal 2) := by decide
theorem test_decode_literal_longest : decodeTableWord 8 0b0_1111111 = some (.literal 127) := by decide
theorem test_decode_noop : decodeTableWord 8 0b10000000 = some .noop := by decide
theorem test_decode_repeat : decodeTableWord 8 0b11111011 = some (.repeatRun (-5)) := by decide
theorem test_decode_repeat_longest : decodeTableWord 8 0b10000001 = some (.repeatRun (-127)) := by decide
theorem test_decode_no_other_width : decodeTableWord 16 0x10 = none := by decide

/-! ## Control commands -/

-- K1
theorem test_nop : ending .nop (codecState [1] 1) = (0, 0, 0) ∧ (statusWord (after .nop State.reset)).toNat = 0x2 := by decide +kernel
-- K2
theorem test_illegal :
    ending (.illegal 0x14) State.reset = (1, 0, 0) ∧ (statusWord (after (.illegal 0x14) State.reset)).toNat = 0x6 ∧
      (after (.illegal 0x14) State.reset).cmd = 0x14 := by decide +kernel
-- K11: ERR is sticky
theorem test_nop_keeps_err : (statusWord (after .nop (after (.illegal 0x14) State.reset))).toNat = 0x6 := by decide +kernel

/-! ## Codec -/

-- V19
theorem test_copy :
    let t := after .copy (codecState [1, 2, 3, 4] 4)
    bytesFrom t.mem 0x200 5 = [1, 2, 3, 4, 0] ∧ t.params.srcAddr = 0x104 ∧ t.params.srcLen = 0 ∧ t.params.dstAddr = 0x204 := by
  decide +kernel
-- V20
theorem test_copy_short : ending .copy (codecState [1, 2, 3] 4) = (5, 0, 0) := by decide +kernel
-- V1
theorem test_rleDecode :
    let s := codecState [0xFB, 0xAA, 0x01, 0x11, 0x22] 8
    ending .rleDecode s = (0, 5, 8) ∧
      bytesFrom (after .rleDecode s).mem 0x200 9 = [0xAA, 0xAA, 0xAA, 0xAA, 0xAA, 0xAA, 0x11, 0x22, 0] := by decide +kernel
-- V25
theorem test_rleDecode_busError :
    let s := { codecState [0xFB, 0xAA, 0x01, 0x11, 0x22] 8 with platform := failingAt 0x202 }
    ending .rleDecode s = (8, 2, 2) ∧ (after .rleDecode s).faultAddr = 0x202 ∧
      bytesFrom (after .rleDecode s).mem 0x200 3 = [0xAA, 0xAA, 0] := by decide +kernel
-- V21
theorem test_skip :
    let t := after .skip (codecState [1, 2, 3] 2)
    t.result = 2 ∧ t.params.srcAddr = 0x102 ∧ t.params.srcLen = 1 ∧ t.params.dstAddr = 0x200 := by decide +kernel
-- V22
theorem test_skip_short : ending .skip (codecState [1] 2) = (5, 0, 0) := by decide +kernel
-- V16
theorem test_rleSkip :
    let s := codecState [0xFB, 0xAA, 0x01, 0x11, 0x22] 8
    ending .rleSkip s = (0, 5, 8) ∧ (after .rleSkip s).mem = s.mem ∧ (after .rleSkip s).params.dstAddr = 0x200 := by
  decide +kernel
-- V17
theorem test_rleSkip_overshoot : ending .rleSkip (codecState [0xFD, 0x55] 3) = (6, 1, 0) := by decide +kernel

/-! ## Packets -/

/-- A walk over `src` that has consumed and written nothing yet. -/
def walkState (src : List Byte) (dstLen : Nat) : State := startedWith 0x11 0 0 (codecState src dstLen)

/-- The cursors `s` and `d` of a running command. -/
def cursors (s : State) : Option (Nat × Nat) :=
  match s.engine with
  | .idle   => none
  | .busy r => some (r.cur.consumed, r.cur.produced)

-- S2's packet
theorem test_literal :
    let t := after (.literal 2) (walkState [0x02, 0x41, 0x42, 0x43] 5)
    cursors t = some (4, 3) ∧ bytesFrom t.mem 0x200 4 = [0x41, 0x42, 0x43, 0] := by decide +kernel
-- S5'
theorem test_literal_exhausted : ending (.literal 5) (walkState [0x05, 0xAA, 0x01, 0x11, 0x22] 8) = (5, 1, 0) := by decide +kernel
-- S1's packet
theorem test_repeat :
    let t := after (.repeatRun (-5)) (walkState [0xFB, 0x7E] 7)
    cursors t = some (2, 6) ∧ bytesFrom t.mem 0x200 7 = [0x7E, 0x7E, 0x7E, 0x7E, 0x7E, 0x7E, 0] := by decide +kernel
-- V5
theorem test_repeat_overshoot : ending (.repeatRun (-3)) (walkState [0xFD, 0x55] 3) = (6, 1, 0) := by decide +kernel
-- S3's packet
theorem test_noop :
    let s := walkState [0x80, 0x01, 0x41, 0x42] 2
    cursors (after .noop s) = some (1, 0) ∧ (after .noop s).mem = s.mem := by decide +kernel

/-! ## Transpose -/

def countingPixels (n : Nat) : List Byte := (List.range n).map (BitVec.ofNat 8)

-- X2
theorem test_transposeRow :
    let t := after .transposeRow (pixelState (countingPixels 20) 3 8)
    bytesFrom t.mem 0x400 4 = [0x55, 0x55, 0x50, 0] ∧ bytesFrom t.mem 0x408 4 = [0x33, 0x33, 0x30, 0] ∧
      bytesFrom t.mem 0x410 4 = [0x0F, 0x0F, 0, 0] ∧ t.params.tpDst = 0x404 ∧ t.result = 20 ∧ t.outCount = 12 := by
  decide +kernel
-- X13
theorem test_transposeRow_busError :
    let s := { pixelState (countingPixels 16) 2 2 with platform := failingAt 0x402 }
    ending .transposeRow s = (8, 16, 2) ∧ (after .transposeRow s).faultAddr = 0x402 ∧
      bytesFrom (after .transposeRow s).mem 0x400 4 = [0x55, 0x55, 0, 0] := by decide +kernel
-- T6
theorem test_network :
    networkPlanes [0x12, 0x34, 0x56, 0x78, 0x9A, 0xBC, 0xDE, 0xF0, 0x0F, 0xED, 0xCB, 0xA9, 0x87, 0x65, 0x43, 0x21] =
      [0x00FF, 0xAAAA, 0x66CC, 0x1EF0, 0xFF00, 0x5555, 0x3366, 0x0F78] := by decide +kernel

/-! ## Animator -/

-- A10
theorem test_animate :
    shown 8 (after .animate (cycleState 8 [⟨0, 3, true, 16384⟩, ⟨2, 5, false, 16384⟩] 0x10000)) =
      [0x111111, 0x222222, 0x555555, 0x222222, 0x333333, 0x444444, 0x666666, 0x777777] := by decide +kernel
-- R245: the engine's read of an entry never written is a fault, at once and access by access; a failing check comes first
theorem test_animate_unwritten :
    exec .animate (cycleState 9 [] 0) = .fault .unwrittenBasePal ∧
      engineStep .access (issue 0x30 (cycleState 9 [] 0)) = .fault .unwrittenBasePal ∧
      ending .animate (cycleState 9 [⟨3, 2, true, 1⟩] 0) = (7, 0, 0) :=
  ⟨exec_unwritten (.inl rfl) (by decide +kernel), accessStep_unwritten (by decide +kernel), by decide +kernel⟩
-- A12
theorem test_animate_range : ending .animate (cycleState 4 [⟨3, 2, true, 1⟩] 0) = (7, 0, 0) := by decide +kernel
-- A6
theorem test_animateBlend :
    shown 8 (after .animateBlend (cycleState 8 [⟨2, 5, true, 4096⟩] 0x18000)) =
      [0x000000, 0x111111, 0x353535, 0x2C2C2C, 0x3D3D3D, 0x4E4E4E, 0x666666, 0x777777] := by decide +kernel
-- A17
theorem test_animateBlend_inverted :
    shown 8 (after .animateBlend (cycleState 8 [⟨0, 7, false, 16384⟩] 0x2C000)) =
      [0x595959, 0x6A6A6A, 0x595959, 0x040404, 0x151515, 0x262626, 0x373737, 0x484848] := by decide +kernel

/-! ## The register window and steps -/

/-- The state after events. -/
def hostDoes (s : State) (es : List Event) : State :=
  es.foldl (fun t e => match handle e t with | .next u => u | .fault _ => t | .refused _ => t) s

-- K5, K6
theorem test_reads : [0x000, 0x044, 0x05C, 0x180, 0xC00].map (readOffset State.reset) = [0x53435831, 0, 0, 0, 0] := by
  decide +kernel
-- K7
theorem test_reserved_bits :
    readOffset (hostDoes State.reset [.hostWrite 0x034 4 0x12345678]) 0x034 = 0x5678 := by decide +kernel
-- K12
theorem test_status_clear :
    statusWord (hostDoes (after (.illegal 0x14) State.reset) [.hostWrite 0x008 4 0x4]) = 0x2 := by decide +kernel
-- K14
theorem test_busy_write :
    let t := hostDoes (codecState [1] 1) [.hostWrite 0x010 4 0x10, .hostWrite 0x020 4 0x5000]
    statusWord t = 0x9 ∧ t.params.srcAddr = 0x100 := by decide +kernel
-- R49: a `CTRL` write while Busy is read back when the command is over
theorem test_ctrl_read_busy :
    let t := hostDoes (codecState [1] 1) [.hostWrite 0x010 4 0x10, .hostWrite 0x004 4 0x1]
    t.isBusy = true ∧ t.ie = true ∧ readOffset t 0x004 = 0 ∧ readOffset (hostDoes t [.engine .all]) 0x004 = 1 := by
  decide +kernel
-- K15
theorem test_soft_reset :
    let t := hostDoes { codecState [1] 1 with basePal := greyPalette 2 } [.hostWrite 0x010 4 0x10, .hostWrite 0x004 4 0x2]
    t.engine = .idle ∧ t.params = Params.reset ∧ t.cmd = 0 ∧ t.basePal.get 0 1 = 0x111111 := by decide +kernel

-- R64: the engine stops between two accesses of a packet, even of one that ends in a bus error later
theorem test_accesses_of_a_packet :
    let s := { walkState [0x9D, 0x7E] 200 with platform := failingAt 0x232 }
    let t := hostDoes s (List.replicate 12 (.engine .access))
    cursors t = some (2, 10) ∧ bytesFrom t.mem 0x200 11 = List.replicate 10 0x7E ++ [0] := by decide +kernel
-- R64, R66: the engine stops between two accesses of a group
theorem test_accesses_of_a_group :
    let s := startedWith 0x20 0 0 (pixelState (countingPixels 16) 2 2)
    let t := hostDoes s (List.replicate 18 (.engine .access))
    cursors t = some (16, 1) ∧ bytesFrom t.mem 0x400 4 = [0x55, 0, 0, 0] := by decide +kernel

/-! ## Witnesses: states and operands that meet the hypotheses of the statements, each clause at a boundary -/

-- EncodeThenDecodeGivesTheInstruction
theorem witness_wellFormed :
    (Instr.literal 0).wellFormed = true ∧ (Instr.literal 127).wellFormed = true ∧ (Instr.repeatRun (-1)).wellFormed = true ∧
      (Instr.repeatRun (-127)).wellFormed = true ∧ (Instr.illegal 0xFFFFFFFF).wellFormed = true := by decide

-- PacketLengthsFollowTheControlByte: control bytes 0x00, 0x7F; 0x81, 0xFF; 0x80
theorem witness_packet_literal :
    (StreamItem.lit [7]).valid = true ∧ ((StreamItem.lit [7]).bytes.getD 0 0).toNat = 0x00 ∧
      (StreamItem.lit (List.replicate 128 7)).valid = true ∧
      ((StreamItem.lit (List.replicate 128 7)).bytes.getD 0 0).toNat = 0x7F := by decide +kernel
theorem witness_packet_repeat :
    (StreamItem.rep 128 7).valid = true ∧ ((StreamItem.rep 128 7).bytes.getD 0 0).toNat = 0x81 ∧
      (StreamItem.rep 2 7).valid = true ∧ ((StreamItem.rep 2 7).bytes.getD 0 0).toNat = 0xFF := by decide
theorem witness_packet_noop :
    StreamItem.noop.valid = true ∧ (StreamItem.noop.bytes.getD 0 0).toNat = 0x80 := by decide

-- RunPseudoPacketExpands
theorem witness_run : 1 ≤ 129 ∧ runItems 129 5 = [.rep 128 5, .lit [5]] := by decide

/-- A walk over one literal packet, between two units. -/
def walk : State := walkState [0x02, 0x41, 0x42, 0x43] 3

/-- Its running command. -/
def walkRun : Running := startedRun 0x11 0 0 (codecState [0x02, 0x41, 0x42, 0x43] 3)

/-- The same for `RLE_SKIP`. -/
def skipWalk : State := startedWith 0x13 0 0 (codecState [0x02, 0x41, 0x42, 0x43] 3)

def skipWalkRun : Running := startedRun 0x13 0 0 (codecState [0x02, 0x41, 0x42, 0x43] 3)

-- StepKeepsTheMachineInvariant: a Busy state that meets the invariant, and a step of it
theorem witness_invariant : walk.Inv := by
  refine ⟨by decide +kernel, by decide +kernel, rfl, rfl, rfl, by decide +kernel, by decide +kernel, ?_, ?_, ?_⟩
  · exact fun h => absurd h (by decide)
  · exact fun _ => by decide +kernel
  · exact ⟨Nat.zero_le _, Nat.zero_le _, trivial⟩
theorem witness_invariant_steps : ∃ t, step walk = .next t := ⟨_, rfl⟩

-- StepRunsTheLatchedCommand: its three clauses
theorem witness_step_busy :
    walk.engine = .busy walkRun ∧ walk.inputs = [] ∧
      ({ walk with inputs := [.engine .all] } : State).engine = .busy walkRun := by decide +kernel
theorem witness_step_idle : State.reset.engine = .idle ∧ State.reset.inputs = [] := by decide +kernel

-- StepRunsTheFetchedPacket, LiteralPacketCopiesItsBytes (the longest literal that fits), NoopPacketConsumesOneByte
theorem witness_walkReady : walkReady walk walkRun true ∧ walkReady skipWalk skipWalkRun false := by decide +kernel
theorem witness_fetched_packet :
    walkReady { walk with inputs := [.engine .packet] } walkRun true ∧
      busError walk.platform .read (walkRun.ops.srcBase + walkRun.cur.consumed) = false := by decide +kernel
theorem witness_literal :
    walkReady walk walkRun true ∧ 2 + 1 ≤ walkRun.ops.dstLen - walkRun.cur.produced ∧
      2 + 1 ≤ walkRun.ops.srcLen - (walkRun.cur.consumed + 1) ∧
      noBusError walk.platform .read (walkRun.ops.srcBase + walkRun.cur.consumed + 1) (2 + 1) ∧
      noBusError walk.platform .write (walkRun.ops.dstBase + walkRun.cur.produced) (2 + 1) ∧
      disjointWindows (walkRun.ops.srcBase + walkRun.cur.consumed + 1) (2 + 1) (walkRun.ops.dstBase + walkRun.cur.produced)
        (2 + 1) := by decide +kernel

-- RepeatPacketFillsItsRun: the longest repeat that fits, as the last packet of the source
theorem witness_repeat :
    let s := walkState [0xFE, 0x41] 3
    let r := startedRun 0x11 0 0 (codecState [0xFE, 0x41] 3)
    walkReady s r true ∧ (-127 : Int) ≤ -2 ∧ (-2 : Int) ≤ -1 ∧ (1 - (-2 : Int)).toNat ≤ r.ops.dstLen - r.cur.produced ∧
      1 ≤ r.ops.srcLen - (r.cur.consumed + 1) ∧
      busError s.platform .read (r.ops.srcBase + r.cur.consumed + 1) = false ∧
      noBusError s.platform .write (r.ops.dstBase + r.cur.produced) (1 - (-2 : Int)).toNat := by decide +kernel

-- PlacedWordIsRunByTheNextStep, second clause
theorem witness_placed : Memory.wf State.reset.mem = true := by decide

-- UnitsThenTheRestIsTheWholeCommand: a packet and an access that leave the engine Busy, and an access that completes
theorem witness_packet_busy :
    ∃ u t, walk.engine = .busy walkRun ∧ engineStep .packet walk = .next u ∧ runStep walk = .next t ∧ u.engine ≠ .idle := by
  have hf : fetchPacket walk = some (.literal 2) := by decide +kernel
  have hw : walking walk = some (walkRun, true) := by decide +kernel
  have hu : exec (.literal 2) walk = .next (after (.literal 2) walk) := by
    unfold after
    rw [show exec (.literal 2) walk = execPacket (startLiteral 2) walk from rfl, execPacket_walking hw]
  refine ⟨after (.literal 2) walk, _, by decide +kernel, ?_, rfl, by decide +kernel⟩
  simp only [engineStep, packetStep, hf]
  exact hu
theorem witness_access_busy :
    ∃ u t, engineStep .access walk = .next u ∧ runStep walk = .next t ∧ u.engine ≠ .idle :=
  ⟨_, _, rfl, rfl, by decide +kernel⟩
theorem witness_access_idle :
    let s := startedWith 0x00 0 0 State.reset
    ∃ u t, s.engine = .busy (startedRun 0x00 0 0 State.reset) ∧ engineStep .access s = .next u ∧ runStep s = .next t ∧
      u.engine = .idle :=
  ⟨_, _, by decide +kernel, rfl, rfl, by decide +kernel⟩

-- EveryCommandCompletes and the frames: a command word
theorem witness_isCommand : isCommand .copy ∧ isCommand (.illegal 0x14) := by decide

-- NopCompletes, IllegalWordCompletesWithItsCode
theorem witness_idle : State.reset.engine = .idle := rfl

-- CopyMovesTheBytes: source and destination windows that touch, the source window ending at 2^32
theorem witness_copy :
    copyReady { codecState [] 4 with
      params := { (codecState [] 4).params with srcAddr := 0xFFFFFFFC, srcLen := 4, dstAddr := 0xFFFFFFF8 } } := by
  decide +kernel

/-- The codec's setting with other operands. -/
def codecAt (sa sl da dl : Word) : State :=
  { State.reset with params := { Params.reset with srcAddr := sa, srcLen := sl, dstAddr := da, dstLen := dl } }

-- CopyChecksInOrder and WalkChecksInOrder: ADDR by one byte, on either side; OVERLAP by one byte; SRC_OVERRUN by one byte
theorem witness_checks_addr :
    (codecAt 0xFFFFFFFF 2 0 0).engine = .idle ∧
      2 ^ 32 < (codecAt 0xFFFFFFFF 2 0 0).srcBase + (codecAt 0xFFFFFFFF 2 0 0).srcLen ∧
      2 ^ 32 < (codecAt 0 0 0xFFFFFFFF 2).dstBase + (codecAt 0 0 0xFFFFFFFF 2).dstLen := by decide +kernel
theorem witness_checks_overlap :
    let s := codecAt 0x100 4 0x103 4
    s.engine = .idle ∧ s.srcBase + s.srcLen ≤ 2 ^ 32 ∧ s.dstBase + s.dstLen ≤ 2 ^ 32 ∧ 0 < s.srcLen ∧ 0 < s.dstLen ∧
      s.srcBase < s.dstBase + s.dstLen ∧ s.dstBase < s.srcBase + s.srcLen := by decide +kernel
theorem witness_checks_length :
    let s := codecAt 0x100 3 0x103 4
    s.engine = .idle ∧ s.srcBase + s.srcLen ≤ 2 ^ 32 ∧ s.dstBase + s.dstLen ≤ 2 ^ 32 ∧
      disjointWindows s.srcBase s.srcLen s.dstBase s.dstLen ∧ s.srcLen < s.dstLen := by decide +kernel

-- SkipCountsWithoutAccess: the second and the third clause (the first is witness_checks_addr's)
theorem witness_skip :
    (codecAt 0xFFFFFFFC 4 0 5).srcBase + (codecAt 0xFFFFFFFC 4 0 5).srcLen ≤ 2 ^ 32 ∧
      (codecAt 0xFFFFFFFC 4 0 5).srcLen < (codecAt 0xFFFFFFFC 4 0 5).dstLen ∧
      (codecAt 0xFFFFFFFC 4 0 4).dstLen ≤ (codecAt 0xFFFFFFFC 4 0 4).srcLen := by decide +kernel

-- DecodingAStreamWritesItsOutput, SkippingAStreamCountsItsOutput: a NOOP inside; a NOOP and half a packet behind the last run
theorem witness_stream :
    let s := codecState (assemble [.rep 2 0xAA, .noop, .lit [0x11]] ++ [0x80, 0x7F]) 3
    streamReady s [.rep 2 0xAA, .noop, .lit [0x11]] 2 ∧ destReady s := by decide +kernel

-- SkipEqualsDecode: a second state that differs in the destination and in memory outside the source
theorem witness_skip_equals_decode :
    let s := codecState [0xFB, 0xAA, 0x01, 0x11, 0x22] 8
    let u := { s with mem := putBytes 0x200 [7] s.mem, params := { s.params with dstAddr := 0x101 }, cmd := 5 }
    s.engine = .idle ∧ u.engine = .idle ∧ Memory.wf s.mem = true ∧ sourceReady s ∧ destReady s ∧ sourceReady u ∧
      u.params.srcAddr = s.params.srcAddr ∧ u.params.srcLen = s.params.srcLen ∧ u.params.dstLen = s.params.dstLen ∧
      ∀ j, j < s.srcLen → Memory.read u.mem (s.srcBase + j) = Memory.read s.mem (s.srcBase + j) := by decide +kernel

-- OvershootEndsTheCommand: one byte too long, literal and repeat
theorem witness_overshoot :
    walkReady walk walkRun true ∧ walkRun.ops.dstLen - walkRun.cur.produced < 3 + 1 ∧
      walkRun.ops.dstLen - walkRun.cur.produced < (1 - (-3 : Int)).toNat := by decide +kernel

-- ExhaustedSourceEndsTheCommand: one data byte missing (literal, repeat), and no control byte
theorem witness_exhausted :
    walkReady walk walkRun true ∧ walkRun.ops.srcLen - (walkRun.cur.consumed + 1) < 3 + 1 := by decide +kernel
theorem witness_exhausted_repeat :
    let r := startedRun 0x11 0 0 (codecState [0xFF] 2)
    walkReady (walkState [0xFF] 2) r true ∧ r.ops.srcLen - (r.cur.consumed + 1) < 1 ∧ (-127 : Int) ≤ -1 := by decide +kernel
theorem witness_exhausted_control :
    let s := startedWith 0x11 1 0 (codecState [0x80] 1)
    let r := startedRun 0x11 1 0 (codecState [0x80] 1)
    s.engine = .busy r ∧ walkOf r = some true ∧ r.cur.started = true ∧ r.cur.run = .none ∧
      r.cur.produced < r.ops.dstLen ∧ r.cur.consumed = r.ops.srcLen := by decide +kernel

-- PacketOutsideAWalkFaults: an Idle engine, and a Busy one that has not started
theorem witness_no_walk : walking State.reset = none ∧ walking (issue 0x11 (codecState [0x80] 1)) = none := by decide +kernel

/-- Bus errors at one address, for writes alone. -/
def writeFailingAt (a : Nat) : Platform := { Platform.reset with busErrors := [⟨a, 1, false, true⟩] }

-- CodecBusErrorStopsAtItsAccess: a read (V26) and a write (V25) that fail, over a stream
theorem witness_codec_bus :
    (∃ t, exec .rleSkip { codecState [0xFB, 0xAA, 0x01, 0x11, 0x22] 8 with platform := failingAt 0x100 } = .next t ∧
        t.errCode = 8) ∧
      ∃ t, exec .rleDecode { codecState [0xFB, 0xAA, 0x01, 0x11, 0x22] 8 with platform := failingAt 0x202 } = .next t ∧
        t.errCode = 8 ∧ t.outCount = 2 :=
  ⟨⟨_, rfl, by decide +kernel⟩, ⟨_, rfl, by decide +kernel⟩⟩
theorem witness_codec_bus_stream :
    let s := codecState [0xFB, 0xAA, 0x01, 0x11, 0x22] 8
    let ps : List StreamItem := [.rep 6 0xAA, .lit [0x11, 0x22]]
    (∀ p ∈ ps, p.valid = true) ∧ (assemble ps).length ≤ s.srcLen ∧ s.dstLen ≤ (expand ps).length ∧
      holdsBytes s.mem s.srcBase (assemble ps) := by decide +kernel

-- CodecBusErrorStopsAtItsAccess, the other way round: a success (V1), and a walk whose control byte cannot be read
theorem witness_codec_no_bus :
    ∃ t, exec .rleDecode (codecState [0xFB, 0xAA, 0x01, 0x11, 0x22] 8) = .next t ∧ t.errCode = 0 ∧ t.result = 5 ∧
      t.outCount = 8 :=
  ⟨_, rfl, by decide +kernel⟩
theorem witness_control_bus :
    let s := { walk with platform := failingAt 0x100 }
    walkReady s walkRun true ∧ busError s.platform .read (walkRun.ops.srcBase + walkRun.cur.consumed) = true := by
  decide +kernel

-- CopyKeepsBytesBeforeABusError: the last byte fails, as a read and as a write
theorem witness_copy_bus :
    let s := { codecState [1, 2, 3] 3 with platform := failingAt 0x102 }
    s.engine = .idle ∧ Memory.wf s.mem = true ∧ s.dstLen ≤ s.srcLen ∧ 2 < s.dstLen ∧ s.srcBase + s.srcLen ≤ 2 ^ 32 ∧
      s.dstBase + s.dstLen ≤ 2 ^ 32 ∧ disjointWindows s.srcBase s.srcLen s.dstBase s.dstLen ∧
      noBusError s.platform .read s.srcBase 2 ∧ noBusError s.platform .write s.dstBase 2 ∧
      busError s.platform .read (s.srcBase + 2) = true := by decide +kernel
theorem witness_copy_write_bus :
    let s := { codecState [1, 2, 3] 3 with platform := writeFailingAt 0x202 }
    s.engine = .idle ∧ Memory.wf s.mem = true ∧ s.dstLen ≤ s.srcLen ∧ 2 < s.dstLen ∧ s.srcBase + s.srcLen ≤ 2 ^ 32 ∧
      s.dstBase + s.dstLen ≤ 2 ^ 32 ∧ disjointWindows s.srcBase s.srcLen s.dstBase s.dstLen ∧
      noBusError s.platform .read s.srcBase 2 ∧ noBusError s.platform .write s.dstBase 2 ∧
      busError s.platform .read (s.srcBase + 2) = false ∧ busError s.platform .write (s.dstBase + 2) = true := by
  decide +kernel

-- TransposeRowWritesThePlanes: 17 pixels, planes as close as they may stand
theorem witness_transpose :
    transposeReady (pixelState (List.replicate 17 7) 3 4) ∧ transposeReady (pixelState [1] 8 2) := by decide +kernel

-- TransposeRowIsInvertible: the last pixel, and the last place of the last group
theorem witness_invertible :
    let s := pixelState (List.replicate 17 7) 3 4
    transposeReady s ∧ 16 < 16 * s.groups ∧ (Memory.read s.mem (s.pixelBase + 16)).toNat < 2 ^ s.depth ∧
      31 < 16 * s.groups ∧ ¬ 31 < s.width := by decide +kernel

/-- The transpose's setting with other operands. -/
def rowAt (src width depth dst stride : Nat) : State :=
  { State.reset with
    params := { Params.reset with
      tpSrc := BitVec.ofNat 32 src, tpWidth := BitVec.ofNat 16 width, tpDepth := BitVec.ofNat 4 depth,
      tpDst := BitVec.ofNat 32 dst, tpPstride := BitVec.ofNat 32 stride } }

-- TransposeChecksInOrder: ARG on either side; ADDR of the pixels and of the last plane; OVERLAP with the pixels and of two planes
theorem witness_transpose_arg : (rowAt 0 16 0 0 0).depth < 1 ∧ 8 < (rowAt 0 16 9 0 0).depth := by decide +kernel
theorem witness_transpose_addr :
    1 ≤ (rowAt 0xFFFFFFF1 16 1 0 0).depth ∧ (rowAt 0xFFFFFFF1 16 1 0 0).depth ≤ 8 ∧
      2 ^ 32 < (rowAt 0xFFFFFFF1 16 1 0 0).pixelBase + (rowAt 0xFFFFFFF1 16 1 0 0).width ∧
      2 < (rowAt 0x100 16 3 0x400 0x80000000).depth ∧
      2 ^ 32 < (rowAt 0x100 16 3 0x400 0x80000000).planeBase + 2 * (rowAt 0x100 16 3 0x400 0x80000000).planeStride +
        (rowAt 0x100 16 3 0x400 0x80000000).rowBytes := by decide +kernel
theorem witness_transpose_overlap :
    let s := rowAt 0x100 16 2 0x10E 2
    1 ≤ s.depth ∧ s.depth ≤ 8 ∧ s.pixelBase + s.width ≤ 2 ^ 32 ∧
      (∀ p, p < s.depth → s.planeBase + p * s.planeStride + s.rowBytes ≤ 2 ^ 32) ∧
      ¬ disjointWindows s.pixelBase s.width (s.planeBase + 0 * s.planeStride) s.rowBytes := by decide +kernel
theorem witness_transpose_planes_overlap :
    let s := rowAt 0x100 16 2 0x400 1
    1 ≤ s.depth ∧ s.depth ≤ 8 ∧ s.pixelBase + s.width ≤ 2 ^ 32 ∧
      (∀ p, p < s.depth → s.planeBase + p * s.planeStride + s.rowBytes ≤ 2 ^ 32) ∧
      1 < s.depth ∧ 0 < s.rowBytes ∧ s.planeStride < s.rowBytes := by decide +kernel

-- NetworkComputesTheTranspose
theorem witness_group : (countingPixels 16).length = 16 := by decide

-- TransposeBusErrorStopsAtItsAccess: a read and a write that fail
theorem witness_transpose_bus :
    (∃ t, exec .transposeRow { pixelState (countingPixels 16) 2 2 with platform := failingAt 0x10F } = .next t ∧
        t.errCode = 8) ∧
      ∃ t, exec .transposeRow { pixelState (countingPixels 16) 2 2 with platform := failingAt 0x403 } = .next t ∧
        t.errCode = 8 ∧ Memory.wf (pixelState (countingPixels 16) 2 2).mem = true ∧
        2 * 2 * 0 + 2 * 1 + 0 < t.outCount.toNat ∧ t.outCount.toNat ≤ 2 * 2 * 0 + 2 * 1 + 1 :=
  ⟨⟨_, rfl, by decide +kernel⟩, ⟨_, rfl, by decide +kernel⟩⟩

-- TransposeBusErrorStopsAtItsAccess, the other way round: a success
theorem witness_transpose_no_bus :
    ∃ t, exec .transposeRow (pixelState (countingPixels 16) 2 2) = .next t ∧ t.errCode = 0 ∧ t.result = 16 ∧
      t.outCount = 4 :=
  ⟨_, rfl, by decide +kernel⟩

-- TicksGiveOffsetAndWeight, BlendWeighsEachChannel
theorem witness_range : (⟨3, 3, true, 0⟩ : ColourRange).low.toNat ≤ (⟨3, 3, true, 0⟩ : ColourRange).high.toNat ∧ 255 ≤ 255 := by
  decide

-- AnimateRotatesTheRanges, AnimateBlendMixesNeighbours: an entry in two ranges (the highest counts), one in none, one from N on
theorem witness_animate :
    let s := cycleState 8 [⟨0, 3, true, 16384⟩, ⟨2, 5, false, 16384⟩] 0x10000
    animateReady s ∧ inRange s 0 3 ∧ inRange s 1 3 ∧ (∀ j, 1 < j → ¬ inRange s j 3) ∧ 7 < s.colorCount ∧
      (∀ k, ¬ inRange s k 7) ∧ s.colorCount ≤ 8 := by
  have hc : (cycleState 8 [⟨0, 3, true, 16384⟩, ⟨2, 5, false, 16384⟩] 0x10000).rangeCount = 2 := by decide +kernel
  refine ⟨by decide +kernel, by decide +kernel, by decide +kernel, ?_, by decide +kernel, ?_, by decide +kernel⟩
  · intro j hj hr
    have := hr.1
    omega
  · intro k hr
    have hk := hr.1
    rw [hc] at hk
    have : k = 0 ∨ k = 1 := by omega
    rcases this with rfl | rfl
    · exact absurd hr.2.2 (by decide +kernel)
    · exact absurd hr.2.2 (by decide +kernel)

-- AnimatorChecksInOrder: N and R one too large; a range that ends at N
theorem witness_animate_arg :
    256 < (cycleState 257 [] 0).colorCount ∧ 16 < (cycleState 4 (List.replicate 17 ⟨0, 0, true, 0⟩) 0).rangeCount := by
  decide +kernel
theorem witness_animate_range :
    let s := cycleState 4 [⟨0, 3, true, 1⟩, ⟨0, 4, true, 1⟩] 0
    s.colorCount ≤ 256 ∧ s.rangeCount ≤ 16 ∧ 1 < s.rangeCount ∧
      ¬ ((s.rangeAt 1).low.toNat ≤ (s.rangeAt 1).high.toNat ∧ (s.rangeAt 1).high.toNat < s.colorCount) := by decide +kernel

-- AnimatorKeepsNoState: two states that differ outside the operands
theorem witness_animator_pair :
    let s := cycleState 2 [⟨0, 1, true, 256⟩] 0x400000
    let u := { s with cmd := 0x31, outPal := greyPalette 3, draws := 9 }
    s.engine = .idle ∧ u.engine = .idle ∧ s.params.nColors = u.params.nColors ∧ s.params.nRanges = u.params.nRanges ∧
      s.params.elapsed = u.params.elapsed ∧ (∀ k, k < s.rangeCount → s.rangeAt k = u.rangeAt k) ∧
      (∀ j, j < min s.colorCount 256 → ∀ n m, s.basePal.get n j = u.basePal.get m j) ∧
      (∃ t, exec .animate s = .next t ∧ t.errCode = 0) ∧ ∃ t, exec .animate u = .next t := by
  refine ⟨rfl, rfl, rfl, rfl, rfl, fun _ _ => rfl, ?_,
    ⟨_, exec_command (by decide) _ (.inl (by decide +kernel)), by decide +kernel⟩,
    ⟨_, exec_command (by decide) _ (.inl (by decide +kernel))⟩⟩
  intro j hj n m
  have hw : (cycleState 2 [⟨0, 1, true, 256⟩] 0x400000).basePal.written[j]?.getD false = true := by
    have : j < 2 := hj
    have : j = 0 ∨ j = 1 := by omega
    rcases this with rfl | rfl <;> decide +kernel
  simp only [Palette.get, hw, if_true]

-- AnimateRotatesTheRanges, AnimateBlendMixesNeighbours, EveryCommandCompletes, StepRunsTheLatchedCommand: the last entry that is read is
-- written; one entry more is not (R245)
theorem witness_written_entries :
    baseWritten (cycleState 8 [⟨0, 7, true, 256⟩] 0x400000) ∧ animateReady (cycleState 9 [⟨0, 7, true, 256⟩] 0x400000) ∧
      ¬ baseWritten (cycleState 9 [⟨0, 7, true, 256⟩] 0x400000) ∧
      (accept (commandWord .animate) (cycleState 8 [⟨0, 7, true, 256⟩] 0x400000)).readsUnwritten = false ∧
      (accept (commandWord .animate) (cycleState 9 [⟨0, 7, true, 256⟩] 0x400000)).readsUnwritten = true := by decide +kernel

-- AnimatorKeepsNoState, the clause on free values: two draws
theorem witness_draws :
    let s := cycleState 8 [⟨0, 7, true, 256⟩] 0x400000
    (∃ t, exec .animate s = .next t) ∧ ∃ u, exec .animate { s with draws := 5 } = .next u :=
  ⟨⟨_, exec_command (by decide) _ (.inl (by decide +kernel))⟩, ⟨_, exec_command (by decide) _ (.inl (by decide +kernel))⟩⟩

-- AnimatorReadsInsideTheRange: operands that differ outside the range 1..2
theorem witness_inside_range :
    let r : ColourRange := ⟨1, 2, true, 0⟩
    let o : Operands := ⟨Params.reset, [1, 2, 3, 4]⟩
    let u : Operands := ⟨Params.reset, [9, 2, 3, 9]⟩
    r.low.toNat ≤ r.high.toNat ∧ o.params = u.params ∧ o ≠ u ∧
      ∀ j, r.low.toNat ≤ j → j ≤ r.high.toNat → o.basePal.getD j 0 = u.basePal.getD j 0 := by
  refine ⟨by decide, rfl, by decide, fun j h1 h2 => ?_⟩
  have h1' : 1 ≤ j := h1
  have h2' : j ≤ 2 := h2
  have : j = 1 ∨ j = 2 := by omega
  rcases this with rfl | rfl <;> rfl

-- FailureKeepsTheCursorRegisters: a failure, and one before every access
theorem witness_failure :
    (∃ t, exec .rleDecode (codecState [0xFD, 0x55] 3) = .next t ∧ t.errCode = 6) ∧
      ∃ t, exec .copy (codecState [1] 2) = .next t ∧ t.errCode = 5 :=
  ⟨⟨_, rfl, by decide +kernel⟩, ⟨_, rfl, by decide +kernel⟩⟩

-- CommandsStoreOnlyInTheirWindows, CommandsWriteOnlyTheirRegisters: the byte after the stored ones, a register that changes
theorem witness_frame :
    ∃ t, exec .copy (codecState [1, 2] 2) = .next t ∧ Memory.wf (codecState [1, 2] 2).mem = true ∧
      ¬ ((codecState [1, 2] 2).dstBase ≤ 0x202 ∧ 0x202 < (codecState [1, 2] 2).dstBase + t.outCount.toNat) :=
  ⟨_, rfl, by decide +kernel, by decide +kernel⟩
theorem witness_frame_planes :
    ∃ t, exec .transposeRow (pixelState [1] 2 2) = .next t ∧
      ∀ p, p < (pixelState [1] 2 2).depth →
        ¬ ((pixelState [1] 2 2).planeBase + p * (pixelState [1] 2 2).planeStride ≤ 0x404 ∧
          0x404 < (pixelState [1] 2 2).planeBase + p * (pixelState [1] 2 2).planeStride + (pixelState [1] 2 2).rowBytes) :=
  ⟨_, rfl, by decide +kernel⟩

-- RegistersWaitForCompletion: the checks of a command pass and leave it Busy
theorem witness_registers_wait :
    let s := issue 0x10 (codecState [1] 1)
    s.isBusy = true ∧ ∃ t, engineStep .access s = .next t ∧ t.isBusy = true :=
  ⟨rfl, _, rfl, by decide +kernel⟩

-- RegisterMapIsOneToOne: a host read of the last entry of a table, and either phase
theorem witness_host_read :
    windowAt State.reset 0xBFC (Reg.outPal 255).offset ∧ Reg.ofOffset 0x020 = some .srcAddr ∧
      State.reset.engine = .idle ∧ walk.engine = .busy walkRun := by decide +kernel

-- CtrlWriteSetsTheInterruptEnable: a move that completes after a write accepted while Busy
theorem witness_ctrl_completes :
    ∃ u, engineStep .all { walk with ie := true } = .next u ∧ u.engine = .idle :=
  ⟨_, rfl, by decide +kernel⟩

-- EmptyOffsetsReadZero: the first and the last offset of each gap; OtherAccessesAreRefused
theorem witness_offsets :
    ∀ off ∈ [0x044, 0x04C, 0x05C, 0x0FC, 0x180, 0x3FC, 0xC00, 0xFFC], windowAt State.reset (BitVec.ofNat 32 off) off := by
  decide +kernel
theorem witness_other_accesses :
    (0xFFF : Word).toNat = State.reset.platform.blockBase.toNat + 0xFFF ∧ 0xFFF < 0x1000 ∧ 0xFFF % 4 ≠ 0 := by decide

-- ParameterWritesAreReadBack: the first register and the last entries of the tables
theorem witness_parameters :
    ∀ r ∈ [Reg.srcAddr, .elapsed, .rangeBounds 15, .rangeRate 15, .basePal 255],
      isParameter r = true ∧ windowAt State.reset (BitVec.ofNat 32 r.offset) r.offset := by decide +kernel

-- IgnoredWritesAreIgnored: a Busy block, and read-only registers of an Idle one
theorem witness_ignored :
    (windowAt walk 0x000 0x000 ∧ walk.isBusy = true) ∧
      ∀ r ∈ [Reg.id, .faultAddr, .outPal 0, .outPal 255],
        isReadOnly r = true ∧ windowAt State.reset (BitVec.ofNat 32 r.offset) r.offset := by decide +kernel

-- StatusBitsClearByWritingOne, CtrlWriteSetsTheInterruptEnable, IssueLatchesTheCommand, SoftResetAbandonsTheCommand
theorem witness_status : windowAt State.reset 0x008 0x008 ∧ windowAt walk 0x008 0x008 := by decide +kernel
theorem witness_ctrl :
    windowAt State.reset 0x004 0x004 ∧ windowAt walk 0x004 0x004 ∧ walk.isBusy = true ∧ (0xFFFFFFFD : Word).getLsbD 1 = false := by
  decide +kernel
theorem witness_issue :
    windowAt State.reset 0x010 0x010 ∧ State.reset.engine = .idle ∧ windowAt walk 0x010 0x010 ∧ walk.isBusy = true ∧
      isAnimator 0x31 = true := by decide +kernel
theorem witness_soft_reset : walk.Inv ∧ windowAt walk 0x004 0x004 ∧ (0x2 : Word).getLsbD 1 = true :=
  ⟨witness_invariant, by decide +kernel, by decide⟩

-- CompletionRaisesTheInterrupt: a failure; an asserted output in the two windows, and an event that lowers it
theorem witness_interrupt :
    ∃ t, isCommand (.illegal 0x14) ∧ ({ State.reset with ie := true } : State).ie = true ∧
      exec (.illegal 0x14) { State.reset with ie := true } = .next t ∧ irqLevel t = true ∧ windowAt t 0x008 0x008 ∧
      windowAt t 0x004 0x004 ∧
      ∃ u, handle (.hostWrite 0x008 4 0x6) t = .next u ∧ irqLevel u = false :=
  ⟨_, by decide, rfl, rfl, by decide +kernel, by decide +kernel, by decide +kernel, _, rfl, by decide +kernel⟩

-- CompletionWinsTheSameStep: an access that completes, and all of a command that fails
theorem witness_same_step :
    (∃ c, engineStep .access (startedWith 0x00 0 0 State.reset) = .next c ∧ (startedWith 0x00 0 0 State.reset).isBusy = true ∧
        c.engine = .idle) ∧
      ∃ c, engineStep .all (issue 0x14 State.reset) = .next c ∧ c.engine = .idle ∧ c.errCode ≠ 0 ∧
        windowAt (issue 0x14 State.reset) 0x008 0x008 ∧ windowAt (issue 0x14 State.reset) 0x010 0x010 :=
  ⟨⟨_, rfl, rfl, by decide +kernel⟩,
    ⟨_, rfl, by decide +kernel, by decide +kernel, by decide +kernel, by decide +kernel⟩⟩

-- RacedBytesAreOldOrNew: the last byte of each window, the write window's before and after the engine passes it
theorem witness_races :
    walk.engine = .busy walkRun ∧ walkRun.writeWindow 0x202 = true ∧ Memory.wf walk.mem = true ∧
      walkRun.readWindow 0x103 = true ∧ Memory.wf walkRun.before = true ∧ walkRun.readWindow 0x202 = false ∧
      walkRun.passed 0x202 = false := by decide +kernel
theorem witness_no_race :
    State.reset.engine = .idle ∧ Memory.wf State.reset.mem = true ∧ walk.engine = .busy walkRun ∧
      walkRun.readWindow 0x104 = false ∧ walkRun.writeWindow 0x104 = false ∧ walkRun.readWindow 0x203 = false ∧
      walkRun.writeWindow 0x203 = false := by decide +kernel
theorem witness_race_passed :
    (startedRun 0x11 4 3 (codecState [0x02, 0x41, 0x42, 0x43] 3)).passed 0x202 = true ∧
      (startedRun 0x11 4 3 (codecState [0x02, 0x41, 0x42, 0x43] 3)).writeWindow 0x202 = true := by decide +kernel

-- OutPalReadWhileBusyIsOldOrNew: an animator that has not started, first and last entry
theorem witness_outPal_busy :
    let s := issue 0x30 (cycleState 4 [⟨0, 3, true, 16384⟩] 0x10000)
    ∃ t u, s.engine = .busy (Running.fresh 0x30 (cycleState 4 [⟨0, 3, true, 16384⟩] 0x10000)) ∧
      windowAt s 0x800 (0x800 + 4 * (0 : Fin 256).val) ∧ windowAt s 0xBFC (0x800 + 4 * (255 : Fin 256).val) ∧
      handle (.hostRead 0x800 4) s = .next t ∧ handle (.hostRead 0xBFC 4) s = .next u :=
  ⟨_, _, rfl, by decide +kernel, by decide +kernel, rfl, rfl⟩

end Sys2Proof.Machine.Tests
end

-- PROOFS, part 1: the moves of the engine
section
/-! SUPPORT. An engine move, said once: however far it is granted to go, it is a number of units of the running command
(20_memory.md R64, 70_reset_and_hazards.md R247), and what it leaves is one of two things. -/

namespace Sys2Proof.Machine

/-! ## A packet is made of units of the walk -/

/-- The packet that a control byte selects is executed by starting it (R90, R117). -/
theorem exec_decodeControl (b : Byte) (s : State) :
    exec (decodeControl b) s = execPacket (startPacket (decodeControl b)) s := by
  rcases decodeControl_cases b with ⟨c, -, h⟩ | ⟨c, -, -, h⟩ | h <;> rw [h] <;> rfl

/-- What a walk that is about to read a control byte looks like: the converse of `walking_eq_some`. -/
theorem walking_inv {s : State} {r : Running} {write : Bool} (h : walking s = some (r, write)) :
    s.engine = .busy r ∧ walkOf r = some write ∧ r.cur.started = true ∧ r.cur.run = .none ∧
      r.cur.produced < r.ops.dstLen ∧ r.cur.consumed < r.ops.srcLen := by
  unfold walking at h
  split at h
  · cases h
  · rename_i r' he
    split at h
    · cases h
    · rename_i write' hw
      split at h
      · rename_i hc
        cases h
        simp only [Bool.and_eq_true, decide_eq_true_eq] at hc
        obtain ⟨⟨⟨hs, hr⟩, hd⟩, hl⟩ := hc
        exact ⟨he, hw, hs, hr, hd, hl⟩
      · cases h

/-- A packet is fetched from the next source byte of such a walk (R117). -/
theorem fetchPacket_inv {s : State} {i : Instr} (h : fetchPacket s = some i) :
    ∃ r write, walking s = some (r, write) ∧
      busError s.platform .read (r.ops.srcBase + r.cur.consumed) = false ∧
      i = decodeControl ((r.ctx s).view.seen s.mem (r.ops.srcBase + r.cur.consumed)) := by
  unfold fetchPacket at h
  split at h
  · cases h
  · rename_i r write hw
    refine ⟨r, write, hw, ?_⟩
    cases hb : busError s.platform .read (r.ops.srcBase + r.cur.consumed)
    · rw [BusView.read_ok (v := (r.ctx s).view) hb] at h
      cases h
      exact ⟨rfl, rfl⟩
    · rw [BusView.read_error (v := (r.ctx s).view) hb] at h
      cases h

/-- The two commands that walk work by `walkTurn` (R121, R123). -/
theorem walkOf_work {r : Running} {write : Bool} (h : walkOf r = some write) :
    (commandOf (decodeCommand r.word)).work = walkTurn write := by
  unfold walkOf at h
  split at h
  · rename_i hd
    cases h
    rw [hd]
    rfl
  · split at h
    · rename_i hd
      cases h
      rw [hd]
      rfl
    · cases h

/-- A walk is no animator. -/
theorem walkOf_not_animator {r : Running} {write : Bool} (h : walkOf r = some write) : isAnimator r.word = false := by
  unfold walkOf at h
  split at h
  · rename_i hd
    simp [isAnimator, hd]
  · split at h
    · rename_i hd
      simp [isAnimator, hd]
    · cases h

/-- An access of a run that ends the command meets a bus error: it is no success, and memory is as it was (R125). -/
theorem runAccess_done {x : Ctx} {p q : Prog} {e : Ending} (h : runAccess x p = .done q e) : q.mem = p.mem ∧ e ≠ .success := by
  unfold runAccess at h
  split at h
  · cases h
  · rename_i n _
    rcases takeByte_cases x.view (x.ops.srcBase + p.cur.consumed) p
      (fun b q => .more (q.withRun (.copying n (some b)))) with ⟨-, h'⟩ | ⟨-, h'⟩ <;> rw [h'] at h <;> cases h
    simp
  · rename_i n b _
    rcases putByte_cases x.view (x.ops.dstBase + p.cur.produced) b (p.withRun (Run.next (fun k => .copying k .none) n))
      with ⟨-, h'⟩ | ⟨-, h' | h'⟩ <;> rw [h'] at h <;> cases h
    simp
  · rename_i n _
    rcases takeByte_cases x.view (x.ops.srcBase + p.cur.consumed) p
      (fun b q => .more (q.withRun (.filling n b))) with ⟨-, h'⟩ | ⟨-, h'⟩ <;> rw [h'] at h <;> cases h
    simp
  · rename_i n b _
    rcases putByte_cases x.view (x.ops.dstBase + p.cur.produced) b (p.withRun (Run.next (fun k => .filling k b) n))
      with ⟨-, h'⟩ | ⟨-, h' | h'⟩ <;> rw [h'] at h <;> cases h
    simp

/-- A packet that ends its command at once is stopped by a check, and has moved nothing (R118, R119). -/
theorem startPacket_done {b : Byte} {write : Bool} {o : Operands} {p q : Prog} {e : Ending}
    (h : startPacket (decodeControl b) write o p = .done q e) : q = p ∧ e ≠ .success := by
  rcases decodeControl_cases b with ⟨c, -, hd⟩ | ⟨c, -, -, hd⟩ | hd <;> rw [hd] at h
  · rcases startLiteral_cases c write o p with ⟨-, h'⟩ | ⟨-, -, h'⟩ | ⟨-, -, h'⟩ <;>
      rw [startPacket, h'] at h <;> cases h <;> simp
  · rcases startRepeat_cases c write o p with ⟨-, h'⟩ | ⟨-, -, h'⟩ | ⟨-, -, h'⟩ <;>
      rw [startPacket, h'] at h <;> cases h <;> simp
  · cases h

/-- What is left of a run is that many units of the walk it belongs to. -/
theorem runAccesses_eq_units {c : Command} {x : Ctx} {write : Bool} (hc : c.work = walkTurn write) {n : Nat} {p : Prog}
    (hs : p.cur.started = true) (hn : p.cur.run.accesses = n) :
    iterate (runAccess x) n p = iterate (c.unit x) n p := by
  induction n generalizing p with
  | zero => rfl
  | succ n ih =>
    have hr : p.cur.run ≠ .none := fun h => by
      rw [h, accesses_none] at hn
      omega
    have hu : c.unit x p = runAccess x p := by
      rw [Command.unit_started hs, hc, walkTurn, if_neg hr]
    rw [iterate_succ, iterate_succ, hu]
    cases hq : runAccess x p with
    | more q =>
      obtain ⟨ha, hs', -⟩ := runAccess_more hq hr
      exact ih (hs'.trans hs) (by omega)
    | done q e => rfl

/-- Without a success it makes no difference what a success would write. -/
theorem settle_congr {u : UnitResult} (h : ∀ p, u ≠ .done p .success) (f g : Operands → Cursor → State → State) (r : Running)
    (s : State) : settle f r s u = settle g r s u := by
  rcases u with p | ⟨p, _ | e | a⟩
  · rfl
  · exact absurd rfl (h p)
  · rfl
  · rfl

/-- How many accesses the run makes that a unit has begun. -/
def UnitResult.accesses : UnitResult → Nat
  | .more p   => p.cur.run.accesses
  | .done _ _ => 0

/-- How many units a granted packet is: one for the control byte, one for each access of its run (R114, R115). -/
def packetUnits (r : Running) (s : State) : Nat :=
  if (fetchPacket s).isSome then ((commandOf (decodeCommand r.word)).unit (r.ctx s) ⟨s.mem, r.cur⟩).accesses + 1 else 1

/-- The fetched packet, executed, is so many units of the running command. -/
theorem exec_fetched {s : State} {r : Running} {i : Instr} (he : s.engine = .busy r) (hf : fetchPacket s = some i) :
    exec i s = .next ((commandOf (decodeCommand r.word)).move (packetUnits r s) r s) := by
  obtain ⟨r', write, hw, hb, rfl⟩ := fetchPacket_inv hf
  obtain ⟨he', hwalk, hs, hrun, hd, hl⟩ := walking_inv hw
  obtain rfl : r' = r := by
    rw [he] at he'
    cases he'
    rfl
  rw [exec_decodeControl, execPacket_walking hw]
  unfold Command.move packetUnits
  simp only [hf, Option.isSome_some, if_true]
  have hu : (commandOf (decodeCommand r'.word)).unit (r'.ctx s) ⟨s.mem, r'.cur⟩ =
      startPacket (decodeControl ((r'.ctx s).view.seen s.mem (r'.ops.srcBase + r'.cur.consumed))) write r'.ops
        (Prog.took ⟨s.mem, r'.cur⟩) := by
    rw [Command.unit_started hs, walkOf_work hwalk, walkTurn, if_pos hrun]
    show (if r'.cur.produced < r'.ops.dstLen then _ else _) = _
    rw [if_pos hd]
    show (if r'.cur.consumed < r'.ops.srcLen then _ else _) = _
    rw [if_pos hl]
    show takeByte _ (r'.ops.srcBase + r'.cur.consumed) _ _ = _
    rcases takeByte_cases (r'.ctx s).view (r'.ops.srcBase + r'.cur.consumed) ⟨s.mem, r'.cur⟩
      (fun b q => startPacket (decodeControl b) write r'.ops q) with ⟨h, -⟩ | ⟨-, h⟩
    · rw [show busError (r'.ctx s).view.platform .read _ = _ from hb] at h
      cases h
    · exact h
  rw [hu]
  congr 1
  cases hq : startPacket (decodeControl ((r'.ctx s).view.seen s.mem (r'.ops.srcBase + r'.cur.consumed))) write r'.ops
      (Prog.took ⟨s.mem, r'.cur⟩) with
  | more q =>
    obtain ⟨-, -, hs', -⟩ := startPacket_more (by simpa using hrun) hq
    rw [iterate_succ_more (hu.trans hq), UnitResult.accesses, ← runAccesses_eq_units (walkOf_work hwalk) (hs'.trans hs) rfl]
    refine settle_congr (fun p h => ?_) _ _ _ _
    exact (iterate_induct (f := runAccess (r'.ctx s)) (fun _ => True) (fun _ e => e ≠ .success) (fun _ _ _ _ => trivial)
      (fun _ _ _ _ h => (runAccess_done h).2) trivial).2 p _ h rfl
  | done q e =>
    obtain ⟨-, hne⟩ := startPacket_done hq
    rw [iterate_succ_done (hu.trans hq)]
    refine settle_congr (fun p h => ?_) _ _ _ _
    cases h
    exact hne rfl

/-! ## Every grant is a number of units -/

/-- How many units of the running command a grant is (log 1). -/
def grantedUnits (g : Grant) (r : Running) (s : State) : Nat :=
  match g with
  | .access => 1
  | .packet => packetUnits r s
  | .all    => (commandOf (decodeCommand r.word)).bound r.ops r.cur + 2

/-- `exec` of the latched word runs the command to its end, but for an animator that reads an entry never written (R245, log 13). -/
theorem exec_latched {s : State} {r : Running} (he : s.engine = .busy r) :
    exec (decodeCommand r.word) s = unlessUnwritten s (outcome s) := by
  have hrun : (commandOf (decodeCommand r.word)).run (commandWord (decodeCommand r.word)) s = outcome s := by
    rw [Command.run_busy he, outcome, he]
  rcases unlessUnwritten_cases s (outcome s) with ⟨hr, h⟩ | ⟨hr, h⟩ <;> rw [h]
  · refine exec_unwritten ?_ (by rwa [accept_busy he])
    by_contra hi
    have : isAnimator r.word = false := by simpa [isAnimator] using hi
    rw [readsUnwritten_of_other he this] at hr
    cases hr
  · rw [exec_command (decodeCommand_bits _) s (.inl (by rwa [accept_busy he])), hrun]

/-- A Busy engine moves by the units it is granted, unless it reads an entry of `BASE_PAL` never written (R245). -/
theorem engineStep_busy {s : State} {r : Running} (he : s.engine = .busy r) (g : Grant) :
    engineStep g s = unlessUnwritten s ((commandOf (decodeCommand r.word)).move (grantedUnits g r s) r s) := by
  have haccess : accessStep s = unlessUnwritten s ((commandOf (decodeCommand r.word)).move 1 r s) := by
    rw [accessStep, advance, he]
  cases g with
  | access => exact haccess
  | packet =>
    show packetStep s = unlessUnwritten s ((commandOf (decodeCommand r.word)).move (packetUnits r s) r s)
    unfold packetStep
    cases hf : fetchPacket s with
    | none => simpa [packetUnits, hf] using haccess
    | some i =>
      obtain ⟨r', write, hw, -⟩ := fetchPacket_inv hf
      obtain ⟨he', hwalk, -⟩ := walking_inv hw
      have hr : s.readsUnwritten = false := readsUnwritten_of_other he' (walkOf_not_animator hwalk)
      simpa [unlessUnwritten, hr] using exec_fetched he hf
  | all =>
    show runStep s = _
    rw [runStep, he]
    refine (exec_latched he).trans ?_
    rw [outcome, he]
    rfl

/-- An Idle engine does not move (R230). -/
theorem engineStep_idle {s : State} (he : s.engine = .idle) (g : Grant) : engineStep g s = .next s := by
  have haccess : accessStep s = .next s := by
    rw [accessStep_next (readsUnwritten_of_idle he), advance, he]
  cases g with
  | access => exact haccess
  | packet =>
    show packetStep s = _
    simpa [packetStep, fetchPacket, walking, he] using haccess
  | all =>
    show runStep s = _
    rw [runStep, he]

/-- A Busy engine that moves on has moved by the units it was granted. -/
theorem engineStep_busy_next {s t : State} {r : Running} {g : Grant} (he : s.engine = .busy r) (h : engineStep g s = .next t) :
    t = (commandOf (decodeCommand r.word)).move (grantedUnits g r s) r s := by
  rw [engineStep_busy he] at h
  rcases unlessUnwritten_cases s ((commandOf (decodeCommand r.word)).move (grantedUnits g r s) r s) with ⟨-, h'⟩ | ⟨-, h'⟩ <;>
    rw [h'] at h <;> cases h
  rfl

/-! ## What a move leaves -/

/-- A completion writes the registers of R203, the parameter registers and `OUT_PAL`, and nothing else of the block. -/
theorem settle_done_finish (i : Instr) (r : Running) (s : State) (p : Prog) (e : Ending) :
    ∃ pa op, settle (commandOf i).onSuccess r s (.done p e) =
      finish e p.cur { s with mem := p.mem, params := pa, outPal := op } := by
  cases e with
  | success => cases i <;> exact ⟨_, _, rfl⟩
  | failure e => exact ⟨s.params, s.outPal, rfl⟩
  | busError a => exact ⟨s.params, s.outPal, rfl⟩

/-- Everything a move can leave: a Busy engine with other cursors and other memory, or a completion. -/
theorem Command.move_cases (i : Instr) (n : Nat) (r : Running) (s : State) :
    (∃ p, iterate ((commandOf i).unit (r.ctx s)) n ⟨s.mem, r.cur⟩ = .more p ∧
      (commandOf i).move n r s = { s with mem := p.mem, engine := .busy { r with cur := p.cur } }) ∨
    (∃ p e pa op, iterate ((commandOf i).unit (r.ctx s)) n ⟨s.mem, r.cur⟩ = .done p e ∧
      (commandOf i).move n r s = finish e p.cur { s with mem := p.mem, params := pa, outPal := op }) := by
  unfold Command.move
  cases h : iterate ((commandOf i).unit (r.ctx s)) n ⟨s.mem, r.cur⟩ with
  | more p => exact .inl ⟨p, rfl, rfl⟩
  | done p e =>
    obtain ⟨pa, op, hs⟩ := settle_done_finish i r s p e
    exact .inr ⟨p, e, pa, op, rfl, hs⟩

/-- Everything a Busy engine that moves on can leave. -/
theorem engineStep_busy_cases {s t : State} {r : Running} {g : Grant} (he : s.engine = .busy r) (h : engineStep g s = .next t) :
    (∃ p : Prog, t = { s with mem := p.mem, engine := .busy { r with cur := p.cur } }) ∨
    (∃ p e pa op, iterate ((commandOf (decodeCommand r.word)).unit (r.ctx s)) (grantedUnits g r s) ⟨s.mem, r.cur⟩ = .done p e ∧
      t = finish e p.cur { s with mem := p.mem, params := pa, outPal := op }) := by
  rw [engineStep_busy_next he h]
  rcases Command.move_cases (decodeCommand r.word) (grantedUnits g r s) r s with ⟨p, -, hm⟩ | hend
  · exact .inl ⟨p, hm⟩
  · exact .inr hend

/-- What the running command comes to is a completion (R248). -/
theorem outcome_finish {s : State} {r : Running} (he : s.engine = .busy r) :
    ∃ (p : Prog) (e : Ending) (pa : Params) (op : Palette),
      outcome s = finish e p.cur { s with mem := p.mem, params := pa, outPal := op } := by
  obtain ⟨p, e, -, h⟩ := Command.complete_ends (decodeCommand r.word) r s
  obtain ⟨pa, op, hs⟩ := settle_done_finish (decodeCommand r.word) r s p e
  exact ⟨p, e, pa, op, by rw [outcome, he]; exact h.trans hs⟩

@[simp] theorem outcome_idle {s : State} (he : s.engine = .idle) : outcome s = s := by
  rw [outcome, he]

end Sys2Proof.Machine
end

-- PROOFS, part 2: the running command and the invariant
section
/-! SUPPORT. What every unit of a command keeps (10_state.md R51, 60_exceptions.md R202): memory stays canonical and the cursors
stay where the pseudocode can leave them. -/

namespace Sys2Proof.Machine

/-! ## An ending leaves memory alone -/

theorem copyTurn_done_mem {x : Ctx} {p q : Prog} {e : Ending} (h : copyTurn x p = .done q e) : q.mem = p.mem := by
  unfold copyTurn at h
  split at h
  · cases h
    rfl
  · exact (runAccess_done h).1

theorem walkTurn_done_mem {write : Bool} {x : Ctx} {p q : Prog} {e : Ending} (h : walkTurn write x p = .done q e) :
    q.mem = p.mem := by
  unfold walkTurn at h
  split at h
  · split at h
    · split at h
      · rcases takeByte_cases x.view (x.ops.srcBase + p.cur.consumed) p
          (fun b q => startPacket (decodeControl b) write x.ops q) with ⟨-, h'⟩ | ⟨-, h'⟩ <;> rw [h'] at h
        · cases h
          rfl
        · obtain ⟨rfl, -⟩ := startPacket_done h
          rfl
      · cases h
        rfl
    · cases h
      rfl
  · exact (runAccess_done h).1

theorem groupTurn_done_mem {x : Ctx} {p q : Prog} {e : Ending} (h : groupTurn x p = .done q e) : q.mem = p.mem := by
  unfold groupTurn at h
  split at h
  · split at h
    · rename_i a b cs _
      rcases putByte_cases x.view a b (p.withStores cs) with ⟨-, h'⟩ | ⟨-, h' | h'⟩ <;> rw [h'] at h <;> cases h
      exact withStores_mem p cs
    · split at h
      · split at h
        · rcases takeByte_cases x.view (x.ops.pixelBase + (16 * p.cur.group + p.cur.pixels.length)) p
            (fun b q => .more (q.withPixel b)) with ⟨-, h'⟩ | ⟨-, h'⟩ <;> rw [h'] at h <;> cases h
          rfl
        · cases h
      · cases h
  · cases h
    rfl

theorem tableTurn_done_mem {blended : Bool} {x : Ctx} {p q : Prog} {e : Ending} (h : tableTurn blended x p = .done q e) :
    q.mem = p.mem := by
  unfold tableTurn at h
  split at h
  · simp only at h
    split at h <;> cases h
  · cases h
    rfl

/-- The work that ends a command writes no memory. -/
theorem work_done_mem (i : Instr) {x : Ctx} {p q : Prog} {e : Ending} (h : (commandOf i).work x p = .done q e) :
    q.mem = p.mem := by
  cases i with
  | nop => cases h; rfl
  | skip => cases h; rfl
  | illegal w => cases h; rfl
  | copy => exact copyTurn_done_mem h
  | transposeRow => exact groupTurn_done_mem h
  | animate => exact tableTurn_done_mem h
  | animateBlend => exact tableTurn_done_mem h
  | rleDecode => exact walkTurn_done_mem h
  | rleSkip => exact walkTurn_done_mem h
  | literal c => exact walkTurn_done_mem h
  | noop => exact walkTurn_done_mem h
  | repeatRun c => exact walkTurn_done_mem h

/-- A unit that ends a command writes no memory: a bus error writes nothing, and neither does a check (R125, R151, R204). -/
theorem unit_done_mem (i : Instr) {x : Ctx} {p q : Prog} {e : Ending} (h : (commandOf i).unit x p = .done q e) :
    q.mem = p.mem := by
  cases hs : p.cur.started with
  | true => exact work_done_mem i (Command.unit_started hs ▸ h)
  | false =>
    cases hc : (commandOf i).check x.ops with
    | none =>
      rw [Command.unit_enters hs hc] at h
      cases h
    | some e' =>
      rw [Command.unit_fails hs hc] at h
      cases h
      rfl

/-! ## What the units keep -/

/-- Where a command with the cursor condition `ok` can be between two units: memory is canonical, the cursors are at their start
until the checks have passed, and in place after. -/
structure Command.Holds (c : Command) (o : Operands) (ok : Cursor → Prop) (p : Prog) : Prop where
  wf      : Memory.wf p.mem = true
  fresh   : p.cur.started = false → p.cur = Cursor.fresh
  checked : p.cur.started = true → c.check o = none
  cursor  : ok p.cur

/-- A unit keeps it if passing the checks puts the cursors in place and every turn of the work keeps them there. -/
theorem Command.Holds.unit {c : Command} {x : Ctx} {ok : Cursor → Prop}
    (henter : c.check x.ops = none → ok { c.enter x.ops Cursor.fresh with started := true })
    (hwork : ∀ p q : Prog, c.check x.ops = none → Memory.wf p.mem = true → p.cur.started = true → ok p.cur →
      c.work x p = .more q → q.cur.started = true ∧ Memory.wf q.mem = true ∧ ok q.cur)
    {p q : Prog} (h : c.Holds x.ops ok p) (hu : c.unit x p = .more q) : c.Holds x.ops ok q := by
  cases hs : p.cur.started with
  | true =>
    obtain ⟨hs', hm, hk⟩ := hwork p q (h.checked hs) h.wf hs h.cursor (Command.unit_started hs ▸ hu)
    exact ⟨hm, fun hf => (by rw [hs'] at hf; cases hf), fun _ => h.checked hs, hk⟩
  | false =>
    cases hc : c.check x.ops with
    | some e =>
      rw [Command.unit_fails hs hc] at hu
      cases hu
    | none =>
      rw [Command.unit_enters hs hc, h.fresh hs] at hu
      cases hu
      exact ⟨h.wf, fun hf => (by cases hf), fun _ => hc, henter hc⟩

/-! ### The codec -/

/-- A byte written below `2 ^ 32`, or lost to a host write of it (R241), leaves memory canonical. -/
theorem wf_of_write {m m' : Memory} {a : Nat} {b : Byte} (hm : Memory.wf m = true) (ha : a < 2 ^ 32)
    (h : m' = Memory.write m a b ∨ m' = m) : Memory.wf m' = true := by
  rcases h with rfl | rfl
  · exact Memory.wf_write hm ha b
  · exact hm

/-- An access of `COPY` keeps its cursors in place (R120). -/
theorem copyTurn_keeps {x : Ctx} {p q : Prog} (hc : moveCheck x.ops = none) (hm : Memory.wf p.mem = true)
    (h : copyOk x.ops p.cur) (hq : copyTurn x p = .more q) : Memory.wf q.mem = true ∧ copyOk x.ops q.cur := by
  obtain ⟨-, hdst, -⟩ := (moveCheck_none_iff _).1 hc
  obtain ⟨hr, hq⟩ := copyTurn_more hq
  obtain ⟨-, -, ⟨hmem, hs, hd, ⟨n, hn, hn'⟩ | ⟨n, hn, -⟩⟩ | ⟨hs, hd, n, b, hmem, ⟨hn, hn'⟩ | ⟨hn, -⟩⟩⟩ := runAccess_more hq hr
  · simp only [copyOk, hn] at h
    refine ⟨hmem ▸ hm, ?_⟩
    simp only [copyOk, hn']
    omega
  · simp only [copyOk, hn] at h
  · simp only [copyOk, hn] at h
    refine ⟨wf_of_write hm (by omega) hmem, ?_⟩
    cases n with
    | zero =>
      simp only [copyOk, hn', Run.next]
      exact ⟨by omega, fun _ => by omega⟩
    | succ n =>
      simp only [copyOk, hn', Run.next]
      omega
  · simp only [copyOk, hn] at h

/-- An access of a run keeps a walk inside its windows (R114, R115). -/
theorem runAccess_keeps {x : Ctx} {p q : Prog} (hdst : x.ops.dstBase + x.ops.dstLen ≤ 2 ^ 32) (hm : Memory.wf p.mem = true)
    (h : walkOk x.ops p.cur) (hr : p.cur.run ≠ .none) (hq : runAccess x p = .more q) :
    Memory.wf q.mem = true ∧ walkOk x.ops q.cur := by
  obtain ⟨hs0, hd0, h⟩ := h
  obtain ⟨-, -, ⟨hmem, hs, hd, ⟨n, hn, hn'⟩ | ⟨n, hn, hn'⟩⟩ |
    ⟨hs, hd, n, b, hmem, ⟨hn, hn'⟩ | ⟨hn, hn'⟩⟩⟩ := runAccess_more hq hr <;> simp only [hn] at h
  · refine ⟨hmem ▸ hm, ?_⟩
    simp only [walkOk, hn']
    omega
  · refine ⟨hmem ▸ hm, ?_⟩
    simp only [walkOk, hn']
    omega
  · refine ⟨wf_of_write hm (by omega) hmem, ?_⟩
    cases n <;> simp only [walkOk, hn', Run.next, and_true] <;> omega
  · refine ⟨wf_of_write hm (by omega) hmem, ?_⟩
    cases n <;> simp only [walkOk, hn', Run.next, and_true] <;> omega

/-- A packet begins inside the windows of its walk; one that skips begins no run (R114 to R119). -/
theorem startPacket_keeps {b : Byte} {write : Bool} {o : Operands} {p q : Prog} (hs : p.cur.consumed ≤ o.srcLen)
    (hd : p.cur.produced ≤ o.dstLen) (hr : p.cur.run = .none) (hq : startPacket (decodeControl b) write o p = .more q) :
    walkOk o q.cur ∧ (write = false → q.cur.run = .none) := by
  rcases decodeControl_cases b with ⟨c, -, hb⟩ | ⟨c, -, hc, hb⟩ | hb <;> rw [hb] at hq
  · rcases startLiteral_cases c write o p with ⟨-, h'⟩ | ⟨-, -, h'⟩ | ⟨hn, hn', h'⟩ <;>
      rw [startPacket, h'] at hq <;> cases hq
    cases write
    · simp [walkOk, hr]
      omega
    · simp [walkOk]
      omega
  · rcases startRepeat_cases c write o p with ⟨-, h'⟩ | ⟨-, -, h'⟩ | ⟨hn, hn', h'⟩ <;>
      rw [startPacket, h'] at hq <;> cases hq
    cases write
    · simp [walkOk, hr]
      omega
    · simp [walkOk]
      omega
  · cases hq
    simp [walkOk, hr, hs, hd]

/-- A turn of a walk keeps it inside its windows (R117). The destination window matters only while a run is in progress. -/
theorem walkTurn_keeps {write : Bool} {x : Ctx} {p q : Prog}
    (hdst : p.cur.run = .none ∨ x.ops.dstBase + x.ops.dstLen ≤ 2 ^ 32) (hm : Memory.wf p.mem = true)
    (h : walkOk x.ops p.cur) (hq : walkTurn write x p = .more q) :
    Memory.wf q.mem = true ∧ walkOk x.ops q.cur ∧ (write = false → p.cur.run = .none → q.cur.run = .none) := by
  rcases walkTurn_more hq with ⟨hr, hq⟩ | ⟨hr, hd, hs, -, hq⟩
  · obtain ⟨hm', hk⟩ := runAccess_keeps (hdst.resolve_left hr) hm h hr hq
    exact ⟨hm', hk, fun _ hn => absurd hn hr⟩
  · obtain ⟨-, -, -, hmem⟩ := startPacket_more (by simpa using hr) hq
    obtain ⟨hk, hn⟩ := startPacket_keeps (by simp; omega) (by simp; omega) (by simpa using hr) hq
    exact ⟨hmem ▸ hm, hk, fun hw _ => hn hw⟩

/-! ### The transpose -/

/-- Every byte a group stores lies in the row of a plane, below `2 ^ 32` once the checks have passed (R142, R146). -/
theorem groupStores_mem_lt {o : Operands} {g : Nat} {px : List Byte} (hc : transposeCheck o = none) (hg : g < o.groups)
    {c : Host.Cell} (h : c ∈ groupStores o g px) : c.1 < 2 ^ 32 := by
  obtain ⟨-, -, -, hrow, -⟩ := (transposeCheck_none_iff o).1 hc
  simp only [groupStores, List.mem_flatMap, List.mem_range, List.mem_cons, List.not_mem_nil, or_false] at h
  obtain ⟨p, hp, rfl | rfl⟩ := h
  · have := hrow p hp
    simp only [Operands.rowBytes] at this ⊢
    omega
  · have := hrow p hp
    simp only [Operands.rowBytes] at this ⊢
    omega

/-- A pixel more, read or padded, keeps a row in place (R143). -/
theorem rowOk_withPixel {o : Operands} {p : Prog} {k : Nat} {b : Byte} (h : rowOk o p.cur) (hg : p.cur.group < o.groups)
    (hs : p.cur.stores = []) (hl : p.cur.pixels.length < 16)
    (hk : k = min o.width (16 * p.cur.group + p.cur.pixels.length + 1)) :
    rowOk o { (p.withPixel b).cur with consumed := k } := by
  obtain ⟨hg', -, -, -, hstores⟩ := h
  rw [if_pos hs] at hstores
  refine ⟨hg', fun he => absurd he (Nat.ne_of_lt hg), ?_, ?_, ?_⟩
  · simp
    omega
  · simp [hk, Nat.add_assoc]
  · simp [hs, hstores]

/-- The plane bytes of a group are at hand when its pixels are known; with one plane at least there are some (R142, R146). -/
theorem rowOk_withStores {o : Operands} {p : Prog} (hc : transposeCheck o = none) (h : rowOk o p.cur)
    (hg : p.cur.group < o.groups) (hs : p.cur.stores = []) (hl : p.cur.pixels.length = 16) :
    rowOk o (p.withStores (groupStores o p.cur.group p.cur.pixels)).cur := by
  obtain ⟨hdepth, -⟩ := (transposeCheck_none_iff o).1 hc
  obtain ⟨hg', -, hlen, hcons, hprod⟩ := h
  rw [if_pos hs] at hprod
  have hlen' := groupStores_length o p.cur.group p.cur.pixels
  cases hst : groupStores o p.cur.group p.cur.pixels with
  | nil =>
    rw [hst] at hlen'
    simp at hlen'
    omega
  | cons c cs =>
    refine ⟨hg', fun he => absurd he (Nat.ne_of_lt hg), hlen, hcons, ?_⟩
    simp only [withStores_stores, withStores_cons_pixels, withStores_cons_group, withStores_produced, reduceCtorEq, if_false]
    exact ⟨hl, 0, by simp [hst], by omega⟩

/-- A plane byte less to write, and the next group after the last (R146, R147). -/
theorem rowOk_stored {o : Operands} {p : Prog} {m : Memory} {c : Host.Cell} {cs : List Host.Cell} (h : rowOk o p.cur)
    (hg : p.cur.group < o.groups) (hs : p.cur.stores = c :: cs) : rowOk o ((p.withStores cs).stored m).cur := by
  obtain ⟨hg', -, hlen, hcons, hstores⟩ := h
  rw [hs, if_neg (List.cons_ne_nil _ _)] at hstores
  obtain ⟨hl, k, hk, hprod⟩ := hstores
  have hcs : cs = (groupStores o p.cur.group p.cur.pixels).drop (k + 1) := by
    rw [← List.drop_drop, ← hk, List.drop_one, List.tail_cons]
  have hn := congrArg List.length hk
  rw [List.length_drop, groupStores_length, List.length_cons] at hn
  cases cs with
  | nil =>
    refine ⟨hg, fun _ => ⟨rfl, rfl⟩, by simp, ?_, ?_⟩
    · simp [hcons, hl]
      omega
    · simp only [stored_stores, withStores_stores, if_true, stored_produced, withStores_produced, stored_group,
        withStores_nil_group, hprod, Nat.mul_add]
      simp at hn
      omega
  | cons c' cs =>
    refine ⟨hg', fun he => absurd he (Nat.ne_of_lt hg), hlen, hcons, ?_⟩
    simp only [stored_stores, withStores_stores, reduceCtorEq, if_false, stored_pixels, withStores_cons_pixels, stored_group,
      withStores_cons_group, stored_produced, withStores_produced]
    exact ⟨hl, k + 1, hcs, by omega⟩

/-- An access of a row keeps it in place (R147). -/
theorem groupTurn_keeps {x : Ctx} {p q : Prog} (hc : transposeCheck x.ops = none) (hm : Memory.wf p.mem = true)
    (h : rowOk x.ops p.cur) (hq : groupTurn x p = .more q) : Memory.wf q.mem = true ∧ rowOk x.ops q.cur := by
  obtain ⟨-, -, hlen, hcons, hstores⟩ := id h
  obtain ⟨hg, ⟨a, b, cs, hs, -, hq⟩ | ⟨hs, hl, hw, -, rfl⟩ | ⟨hs, hl, hw, rfl⟩ | ⟨hs, hl, rfl⟩⟩ := groupTurn_more hq
  · rw [hs, if_neg (List.cons_ne_nil _ _)] at hstores
    obtain ⟨-, k, hk, -⟩ := hstores
    have ha : a < 2 ^ 32 := groupStores_mem_lt hc hg (c := (a, b)) (List.mem_of_mem_drop (hk ▸ List.mem_cons_self))
    rcases hq with rfl | rfl
    · exact ⟨Memory.wf_write hm ha b, rowOk_stored h hg hs⟩
    · exact ⟨hm, rowOk_stored h hg hs⟩
  · exact ⟨hm, rowOk_withPixel h hg hs hl (by rw [took_consumed, hcons]; omega)⟩
  · exact ⟨hm, rowOk_withPixel (k := p.cur.consumed) h hg hs hl (by rw [hcons]; omega)⟩
  · exact ⟨(withStores_mem p _).symm ▸ hm, rowOk_withStores hc h hg hs (by omega)⟩

/-! ### The animator -/

/-- The cursor condition of the animator, as `cursorOk` has it: the table has its `N` entries (R168). -/
theorem tableTurn_keeps {blended : Bool} {x : Ctx} {p q : Prog}
    (h : p.cur.rangeIx ≤ x.ops.nRanges ∧ (p.cur.started = true → p.cur.table.length = x.ops.nColors))
    (hq : tableTurn blended x p = .more q) :
    q.mem = p.mem ∧ q.cur.rangeIx ≤ x.ops.nRanges ∧ (q.cur.started = true → q.cur.table.length = x.ops.nColors) := by
  obtain ⟨hk, hmem, ⟨-, hq⟩ | ⟨-, hq⟩⟩ := tableTurn_more hq <;> rw [hq]
  · refine ⟨hmem, h.1, fun hs => ?_⟩
    simpa using h.2 hs
  · exact ⟨hmem, hk, h.2⟩

/-! ### Every command -/

/-- Every unit of a command keeps memory canonical and the cursors in place. What the animator needs is that issue has latched the
base colours it reads (R51, R160). -/
theorem unit_keeps (i : Instr) {x : Ctx}
    (hpal : i = .animate ∨ i = .animateBlend → x.ops.basePal.length = min x.ops.nColors 256) {p q : Prog}
    (h : (commandOf i).Holds x.ops (cursorOk x.ops · i) p) (hu : (commandOf i).unit x p = .more q) :
    (commandOf i).Holds x.ops (cursorOk x.ops · i) q := by
  have htable : ∀ b, x.ops.basePal.length = min x.ops.nColors 256 → animateCheck x.ops = none →
      (startTable x.ops Cursor.fresh).rangeIx ≤ x.ops.nRanges ∧ (b = true →
        (startTable x.ops Cursor.fresh).table.length = x.ops.nColors) := fun b hlen hc => by
    obtain ⟨hn, -⟩ := (animateCheck_none_iff _).1 hc
    exact ⟨Nat.zero_le _, fun _ => by simp only [startTable]; omega⟩
  cases i with
  | nop => exact h.unit (fun _ => ⟨rfl, rfl⟩) (fun _ _ _ _ _ _ hq => by cases hq) hu
  | skip => exact h.unit (fun _ => ⟨rfl, rfl⟩) (fun _ _ _ _ _ _ hq => by cases hq) hu
  | illegal w => exact h.unit (fun _ => ⟨rfl, rfl⟩) (fun _ _ _ _ _ _ hq => by cases hq) hu
  | copy =>
    refine h.unit (fun _ => ?_) (fun p q hc hm hs hk hq => ?_) hu
    · show copyOk x.ops { startCopy x.ops Cursor.fresh with started := true }
      cases hd : x.ops.dstLen with
      | zero => simp [copyOk, startCopy, Cursor.fresh, Run.next, hd]
      | succ n => simp [copyOk, startCopy, Cursor.fresh, Run.next, hd]
    · have hmove : moveCheck x.ops = none := (Option.or_eq_none_iff.1 hc).1
      exact ⟨(copyTurn_ends p q hq).2.trans hs, copyTurn_keeps hmove hm hk hq⟩
  | rleDecode =>
    refine h.unit (fun _ => ⟨Nat.zero_le _, Nat.zero_le _, trivial⟩) (fun p q hc hm hs hk hq => ?_) hu
    obtain ⟨-, hdst, -⟩ := (moveCheck_none_iff _).1 hc
    obtain ⟨hm', hk', -⟩ := walkTurn_keeps (.inr hdst) hm hk hq
    exact ⟨(walkTurn_ends p q hq).2.trans hs, hm', hk'⟩
  | rleSkip =>
    refine h.unit (fun _ => ⟨⟨Nat.zero_le _, Nat.zero_le _, trivial⟩, rfl⟩) (fun p q hc hm hs hk hq => ?_) hu
    obtain ⟨hm', hk', hr⟩ := walkTurn_keeps (.inl hk.2) hm hk.1 hq
    exact ⟨(walkTurn_ends p q hq).2.trans hs, hm', hk', hr rfl hk.2⟩
  | transposeRow =>
    refine h.unit (fun hc => ?_) (fun p q hc hm hs hk hq => ⟨(groupTurn_ends p q hq).2.trans hs, groupTurn_keeps hc hm hk hq⟩) hu
    exact ⟨Nat.zero_le _, fun _ => ⟨rfl, rfl⟩, Nat.zero_le _, by simp [commandOf, transposeCommand, keepCursor, Cursor.fresh],
      rfl⟩
  | animate =>
    refine h.unit (fun hc => htable _ (hpal (.inl rfl)) hc) (fun p q _ hm hs hk hq => ?_) hu
    obtain ⟨hmem, hk'⟩ := tableTurn_keeps hk hq
    exact ⟨(tableTurn_ends false x p q hq).2.trans hs, hmem ▸ hm, hk'⟩
  | animateBlend =>
    refine h.unit (fun hc => htable _ (hpal (.inr rfl)) hc) (fun p q _ hm hs hk hq => ?_) hu
    obtain ⟨hmem, hk'⟩ := tableTurn_keeps hk hq
    exact ⟨(tableTurn_ends true x p q hq).2.trans hs, hmem ▸ hm, hk'⟩
  | literal c => exact h.cursor.elim
  | noop => exact h.cursor.elim
  | repeatRun c => exact h.cursor.elim

/-- So does any number of units, and an ending leaves memory canonical. -/
theorem units_keep (i : Instr) {x : Ctx}
    (hpal : i = .animate ∨ i = .animateBlend → x.ops.basePal.length = min x.ops.nColors 256) {n : Nat} {p : Prog}
    (h : (commandOf i).Holds x.ops (cursorOk x.ops · i) p) :
    (∀ q, iterate ((commandOf i).unit x) n p = .more q → (commandOf i).Holds x.ops (cursorOk x.ops · i) q) ∧
    ∀ q e, iterate ((commandOf i).unit x) n p = .done q e → Memory.wf q.mem = true :=
  iterate_induct _ (fun q _ => Memory.wf q.mem = true) (fun _ _ hp hq => unit_keeps i hpal hp hq)
    (fun _ _ _ hp hq => unit_done_mem i hq ▸ hp.wf) h

end Sys2Proof.Machine
end

-- PROOFS, part 3: the register window
section
/-! SUPPORT. What a host access of the register window can do, said once (10_state.md R22, R23, R48). -/

namespace Sys2Proof.Machine

/-! ## The phase -/

theorem idle_or_busy (s : State) : s.engine = .idle ∨ ∃ r, s.engine = .busy r := by
  cases s.engine with
  | idle => exact .inl rfl
  | busy r => exact .inr ⟨r, rfl⟩

theorem isBusy_of_busy {s : State} {r : Running} (he : s.engine = .busy r) : s.isBusy = true := by
  rw [State.isBusy, he]

theorem isBusy_of_idle {s : State} (he : s.engine = .idle) : s.isBusy = false := by
  rw [State.isBusy, he]

theorem busy_of_isBusy {s : State} (h : s.isBusy = true) : ∃ r, s.engine = .busy r := by
  refine (idle_or_busy s).resolve_left fun he => ?_
  rw [isBusy_of_idle he] at h
  cases h

/-! ## The bus -/

/-- The window holds the 0x1000 bytes from `BLOCK_BASE` on (R6, R23). -/
theorem windowOffset_eq_some_iff {p : Platform} {addr : Word} {off : Nat} :
    windowOffset p addr = some off ↔ addr.toNat = p.blockBase.toNat + off ∧ off < 0x1000 := by
  unfold windowOffset Config.windowBytes
  split
  · rename_i h
    simp only [Bool.and_eq_true, decide_eq_true_eq] at h
    simp only [Option.some.injEq]
    omega
  · rename_i h
    simp only [Bool.and_eq_true, decide_eq_true_eq] at h
    simp only [reduceCtorEq, false_iff]
    omega

/-- A 32-bit host write in the window reaches its offset (R23). -/
theorem hostWrite_window {s : State} {addr : Word} {off : Nat} (h : windowAt s addr off) (v : Word) :
    hostWrite addr 4 v s = .next (writeOffset off v s) := by
  obtain ⟨ha, hlt, hmod⟩ := h
  simp [hostWrite, windowOffset_eq_some_iff.2 ⟨ha, hlt⟩, supportedAccess, hmod]

/-- A 32-bit host read in the window is answered what its offset shows (R23). -/
theorem hostRead_window {s : State} {addr : Word} {off : Nat} (h : windowAt s addr off) :
    hostRead addr 4 s = .next { s with lastRead := some (readOffset s off), draws := s.draws + 1 } := by
  obtain ⟨ha, hlt, hmod⟩ := h
  simp [hostRead, windowOffset_eq_some_iff.2 ⟨ha, hlt⟩, supportedAccess, hmod]

/-- Everything a host write that is not refused can do: nothing outside the window, and in it the write at an offset. -/
theorem hostWrite_cases {addr v : Word} {width : Nat} {s t : State} (h : hostWrite addr width v s = .next t) :
    t = s ∨ ∃ off, addr.toNat = s.platform.blockBase.toNat + off ∧ t = writeOffset off v s := by
  unfold hostWrite at h
  split at h
  · cases h
    exact .inl rfl
  · rename_i off ho
    split at h
    · cases h
      exact .inr ⟨off, (windowOffset_eq_some_iff.1 ho).1, rfl⟩
    · cases h

/-- A host read changes the answer and the number of the next draw alone (R23, R65). -/
theorem hostRead_cases {addr : Word} {width : Nat} {s t : State} (h : hostRead addr width s = .next t) :
    t = { s with lastRead := t.lastRead, draws := t.draws } := by
  unfold hostRead at h
  split at h
  · cases h
    rfl
  · split at h <;> cases h
    rfl

/-! ## The register map (R22) -/

theorem ofOffset_rangeBounds {off : Nat} {k : Fin 16} (h : off = 0x100 + 8 * k.val) :
    Reg.ofOffset off = some (.rangeBounds k) := by
  have hk : (off - 0x100) / 8 = k.val := by omega
  unfold Reg.ofOffset
  rw [if_neg (by omega), if_pos (by omega), if_pos (by omega), hk, Fin.ofNat_val_eq_self]

theorem ofOffset_rangeRate {off : Nat} {k : Fin 16} (h : off = 0x104 + 8 * k.val) :
    Reg.ofOffset off = some (.rangeRate k) := by
  have hk : (off - 0x100) / 8 = k.val := by omega
  unfold Reg.ofOffset
  rw [if_neg (by omega), if_pos (by omega), if_neg (by omega), if_pos (by omega), hk, Fin.ofNat_val_eq_self]

theorem ofOffset_basePal {off : Nat} {i : Fin 256} (h : off = 0x400 + 4 * i.val) :
    Reg.ofOffset off = some (.basePal i) := by
  have hi : (off - 0x400) / 4 = i.val := by omega
  unfold Reg.ofOffset
  rw [if_neg (by omega), if_neg (by omega), if_neg (by omega), if_pos (by simp; omega), hi, Fin.ofNat_val_eq_self]

theorem ofOffset_outPal {off : Nat} {i : Fin 256} (h : off = 0x800 + 4 * i.val) :
    Reg.ofOffset off = some (.outPal i) := by
  have hi : (off - 0x800) / 4 = i.val := by omega
  unfold Reg.ofOffset
  rw [if_neg (by omega), if_neg (by omega), if_neg (by omega), if_neg (by simp; omega), if_pos (by simp; omega), hi,
    Fin.ofNat_val_eq_self]

/-- Every register is found at its offset. -/
@[simp] theorem Reg.ofOffset_offset (r : Reg) : Reg.ofOffset r.offset = some r := by
  cases r with
  | rangeBounds k => exact ofOffset_rangeBounds rfl
  | rangeRate k => exact ofOffset_rangeRate rfl
  | basePal i => exact ofOffset_basePal rfl
  | outPal i => exact ofOffset_outPal rfl
  | _ => rfl

/-- And nowhere else. -/
theorem Reg.offset_of_ofOffset {off : Nat} {r : Reg} (h : Reg.ofOffset off = some r) : off = r.offset := by
  unfold Reg.ofOffset at h
  split at h
  · have hr := List.find?_some h
    exact (beq_iff_eq.1 hr).symm
  · split at h
    · split at h
      · cases h
        simp only [Reg.offset, Fin.ofNat]
        omega
      · split at h <;> cases h
        simp only [Reg.offset, Fin.ofNat]
        omega
    · split at h
      · cases h
      · split at h
        · rename_i hr
          simp only [Bool.and_eq_true, decide_eq_true_eq] at hr
          cases h
          simp only [Reg.offset, Fin.ofNat]
          omega
        · split at h
          · rename_i hr
            simp only [Bool.and_eq_true, decide_eq_true_eq] at hr
            cases h
            simp only [Reg.offset, Fin.ofNat]
            omega
          · cases h

/-- Offsets are multiples of 4 inside the window. -/
theorem Reg.offset_aligned (r : Reg) : r.offset % 4 = 0 ∧ r.offset < 0x1000 := by
  cases r with
  | rangeBounds k => simp only [Reg.offset]; omega
  | rangeRate k => simp only [Reg.offset]; omega
  | basePal i => simp only [Reg.offset]; omega
  | outPal i => simp only [Reg.offset]; omega
  | _ => decide

@[simp] theorem readOffset_offset (s : State) (r : Reg) : readOffset s r.offset = readReg s r := by
  simp [readOffset]

/-! ## Writes at an offset (R48) -/

/-- A Busy block drops a write to any offset but those of `CTRL` and `STATUS`. -/
theorem writeOffset_busy {s : State} (hb : s.isBusy = true) {off : Nat} (hc : off ≠ 0x004) (hs : off ≠ 0x008) (v : Word) :
    writeOffset off v s = { s with status := s.status.dropped } := by
  simp [writeOffset, hb, acceptsBusyWrite, Reg.offset, hc, hs]

/-- An Idle block takes a write to a register. -/
theorem writeOffset_idle {s : State} (he : s.engine = .idle) (r : Reg) (v : Word) :
    writeOffset r.offset v s = writeReg v s r := by
  simp [writeOffset, isBusy_of_idle he]

/-- An Idle block ignores a write where no register is. -/
theorem writeOffset_idle_none {s : State} (he : s.engine = .idle) {off : Nat} (h : Reg.ofOffset off = none) (v : Word) :
    writeOffset off v s = s := by
  simp [writeOffset, isBusy_of_idle he, h]

/-- `CTRL` takes writes in either phase (R25, R48). -/
theorem writeOffset_ctrl (s : State) (v : Word) : writeOffset 0x004 v s = writeCtrl v s := by
  have : acceptsBusyWrite 0x004 = true := rfl
  rw [writeOffset, this, Bool.not_true, Bool.and_false]
  rfl

/-- `STATUS` takes writes in either phase (R26, R48). -/
theorem writeOffset_status (s : State) (v : Word) : writeOffset 0x008 v s = acknowledge v s := by
  have : acceptsBusyWrite 0x008 = true := rfl
  rw [writeOffset, this, Bool.not_true, Bool.and_false]
  rfl

/-- Everything a write at an offset can do: nothing, a dropped write, or the write of a register that takes it now. -/
theorem writeOffset_cases (off : Nat) (v : Word) (s : State) :
    writeOffset off v s = s ∨ writeOffset off v s = { s with status := s.status.dropped } ∨
    ∃ r : Reg, off = r.offset ∧ (s.engine = .idle ∨ r = .ctrl ∨ r = .status) ∧ writeOffset off v s = writeReg v s r := by
  rcases idle_or_busy s with he | ⟨r, he⟩
  · cases ho : Reg.ofOffset off with
    | none => exact .inl (writeOffset_idle_none he ho v)
    | some r =>
      obtain rfl := Reg.offset_of_ofOffset ho
      exact .inr (.inr ⟨r, rfl, .inl he, writeOffset_idle he r v⟩)
  · by_cases hc : off = 0x004
    · subst hc
      exact .inr (.inr ⟨.ctrl, rfl, .inr (.inl rfl), writeOffset_ctrl s v⟩)
    · by_cases hs : off = 0x008
      · subst hs
        exact .inr (.inr ⟨.status, rfl, .inr (.inr rfl), writeOffset_status s v⟩)
      · exact .inr (.inl (writeOffset_busy (isBusy_of_busy he) hc hs v))

/-- Everything a write of a register can do: the three registers whose writes act, and the others, which hold a value or ignore it. -/
theorem writeReg_cases (v : Word) (s : State) (r : Reg) :
    r = .ctrl ∨ r = .status ∨ r = .cmd ∨
      (r ≠ .ctrl ∧ r ≠ .status ∧ ∃ pa bp, writeReg v s r = { s with params := pa, basePal := bp }) := by
  cases r with
  | ctrl => exact .inl rfl
  | status => exact .inr (.inl rfl)
  | cmd => exact .inr (.inr (.inl rfl))
  | _ => exact .inr (.inr (.inr ⟨by simp, by simp, _, _, rfl⟩))

/-! ## Two things in one step -/

theorem andThen_next {o : Host.Outcome State Fault Refusal} {f : State → Host.Outcome State Fault Refusal} {t : State}
    (h : andThen o f = .next t) : ∃ s, o = .next s ∧ f s = .next t := by
  cases o with
  | next s => exact ⟨s, rfl, h⟩
  | fault r => cases h
  | refused r => cases h

/-- A host write and an engine move in one step are the two in one order or the other (R26, R208). Only a write to `STATUS` is first. -/
theorem sameStep_cases {addr v : Word} {width : Nat} {g : Grant} {s t : State} (h : sameStep addr width v g s = .next t) :
    (addr.toNat = s.platform.blockBase.toNat + 0x008 ∧
      ∃ u, hostWrite addr width v s = .next u ∧ engineStep g u = .next t) ∨
    ∃ u, engineStep g s = .next u ∧ hostWrite addr width v u = .next t := by
  unfold sameStep at h
  split at h
  · rename_i hf
    simp only [hostFirst, beq_iff_eq] at hf
    exact .inl ⟨(windowOffset_eq_some_iff.1 hf).1, andThen_next h⟩
  · exact .inr (andThen_next h)

end Sys2Proof.Machine
end

-- PROOFS, part 4: every step keeps the invariant
section
/-! SUPPORT. The invariant of the machine is kept by every engine move, every host access and every reset. -/

namespace Sys2Proof.Machine

/-! ## The invariant in the two phases -/

theorem inv_of_idle {s : State} (he : s.engine = .idle) (hm : Memory.wf s.mem = true) (hx : s.errCode.toNat ≤ 8) : s.Inv := by
  unfold State.Inv
  rw [he]
  exact ⟨hm, hx, trivial⟩

theorem inv_of_busy {s : State} {r : Running} (he : s.engine = .busy r) (hm : Memory.wf s.mem = true)
    (hx : s.errCode.toNat ≤ 8) (hd : s.status.done = false) (hr : runningOk s r) : s.Inv := by
  unfold State.Inv
  rw [he]
  exact ⟨hm, hx, hd, hr⟩

theorem State.Inv.wf {s : State} (h : s.Inv) : Memory.wf s.mem = true := h.1

theorem State.Inv.errCode_le {s : State} (h : s.Inv) : s.errCode.toNat ≤ 8 := h.2.1

theorem State.Inv.running {s : State} (h : s.Inv) {r : Running} (he : s.engine = .busy r) :
    s.status.done = false ∧ runningOk s r := by
  obtain ⟨-, -, h⟩ := h
  rw [he] at h
  exact h

/-- The invariant is about memory, `ERRCODE`, `CMD`, the parameter registers, the engine and a clear `DONE`. -/
theorem State.Inv.congr {s t : State} (h : s.Inv) (hm : t.mem = s.mem) (hx : t.errCode = s.errCode) (hc : t.cmd = s.cmd)
    (hp : t.params = s.params) (he : t.engine = s.engine) (hd : s.status.done = false → t.status.done = false) : t.Inv := by
  rcases idle_or_busy s with hs | ⟨r, hs⟩
  · exact inv_of_idle (he.trans hs) (hm ▸ h.wf) (hx ▸ h.errCode_le)
  · obtain ⟨hdone, hw, hpar, hrest⟩ := h.running hs
    exact inv_of_busy (he.trans hs) (hm ▸ h.wf) (hx ▸ h.errCode_le) (hd hdone) ⟨hc ▸ hw, hp ▸ hpar, hrest⟩

/-! ## Engine moves -/

/-- Every completion writes a code of R200. -/
theorem Ending.code_le (e : Ending) : e.code.toNat ≤ 8 := by
  cases e with
  | success => exact Nat.zero_le 8
  | failure e => cases e <;> decide
  | busError a => exact Nat.le_refl 8

/-- A running command is where its units can be. -/
theorem holds_of_inv {s : State} {r : Running} (h : s.Inv) (he : s.engine = .busy r) :
    (commandOf (decodeCommand r.word)).Holds r.ops (cursorOk r.ops · (decodeCommand r.word)) ⟨s.mem, r.cur⟩ := by
  obtain ⟨-, -, -, -, -, hfresh, hcheck, hcur⟩ := h.running he
  exact ⟨h.wf, hfresh, hcheck, hcur⟩

/-- Any number of units of the running command keeps the invariant. -/
theorem move_keeps_inv {s : State} {r : Running} (h : s.Inv) (he : s.engine = .busy r) (n : Nat) :
    ((commandOf (decodeCommand r.word)).move n r s).Inv := by
  obtain ⟨hdone, hw, hp, hb, hpal, -⟩ := h.running he
  obtain ⟨hmore, hend⟩ := units_keep (decodeCommand r.word) (x := r.ctx s) (n := n)
    (fun hi => hpal (by simpa [isAnimator] using hi)) (holds_of_inv h he)
  rcases Command.move_cases (decodeCommand r.word) n r s with ⟨p, hit, ht⟩ | ⟨p, e, pa, op, hit, ht⟩ <;> rw [ht]
  · have hold := hmore p hit
    exact inv_of_busy rfl hold.wf h.errCode_le hdone ⟨hw, hp, hb, hpal, hold.fresh, hold.checked, hold.cursor⟩
  · exact inv_of_idle rfl (hend p e hit) e.code_le

theorem engineStep_keeps_inv {s t : State} {g : Grant} (h : s.Inv) (ht : engineStep g s = .next t) : t.Inv := by
  cases he : s.engine with
  | idle =>
    rw [engineStep_idle he] at ht
    cases ht
    exact h
  | busy r =>
    rw [engineStep_busy_next he ht]
    exact move_keeps_inv h he _

/-- What the running command comes to has canonical memory. -/
theorem outcome_wf {s : State} (h : s.Inv) : Memory.wf (outcome s).mem = true := by
  cases he : s.engine with
  | idle =>
    rw [outcome_idle he]
    exact h.wf
  | busy r =>
    rw [outcome, he]
    exact (move_keeps_inv h he _).wf

/-! ## Resets -/

/-- A draw between canonical memories is canonical (R231). -/
theorem abandonedMem_wf {s : State} (h : s.Inv) : Memory.wf (abandonedMem s) = true := by
  cases he : s.engine with
  | idle =>
    rw [abandonedMem, he]
    exact h.wf
  | busy r =>
    obtain ⟨-, -, -, hb, -⟩ := h.running he
    have hlisted : ∀ a ∈ (r.before ++ s.mem ++ (outcome s).mem).map Prod.fst, a < 2 ^ 32 := by
      intro a ha
      simp only [List.map_append, List.mem_append] at ha
      rcases ha with (ha | ha) | ha
      · exact Memory.wfFrom_mem_lt hb ha
      · exact Memory.wfFrom_mem_lt h.wf ha
      · exact Memory.wfFrom_mem_lt (outcome_wf h) ha
    rw [abandonedMem, he]
    exact Memory.wf_mix (Memory.wf_mix h.wf _ _ hlisted) _ _ hlisted

theorem softReset_inv {s : State} (h : s.Inv) : (softReset s).Inv :=
  inv_of_idle rfl (abandonedMem_wf h) (Nat.zero_le 8)

theorem powerOnReset_inv {s : State} (h : s.Inv) : (powerOnReset s).Inv :=
  inv_of_idle rfl h.wf (Nat.zero_le 8)

/-! ## Host accesses -/

/-- A command at its issue is in place: its checks are still to come, its cursors at their start (R201, R202). -/
theorem issue_inv {s : State} (w : Word) (hm : Memory.wf s.mem = true) (hx : s.errCode.toNat ≤ 8) : (issue w s).Inv := by
  have hcur : cursorOk (latch w s) Cursor.fresh (decodeCommand w) := by
    have hbits := decodeCommand_bits w
    cases hd : decodeCommand w with
    | nop => exact ⟨rfl, rfl⟩
    | skip => exact ⟨rfl, rfl⟩
    | illegal v => exact ⟨rfl, rfl⟩
    | copy => exact ⟨rfl, fun hs => by cases hs⟩
    | rleDecode => exact ⟨Nat.zero_le _, Nat.zero_le _, trivial⟩
    | rleSkip => exact ⟨⟨Nat.zero_le _, Nat.zero_le _, trivial⟩, rfl⟩
    | transposeRow => exact ⟨Nat.zero_le _, fun _ => ⟨rfl, rfl⟩, Nat.zero_le _, by simp [Cursor.fresh], rfl⟩
    | animate => exact ⟨Nat.zero_le _, fun hs => by cases hs⟩
    | animateBlend => exact ⟨Nat.zero_le _, fun hs => by cases hs⟩
    | literal c => rw [hd] at hbits; cases hbits
    | noop => rw [hd] at hbits; cases hbits
    | repeatRun c => rw [hd] at hbits; cases hbits
  refine inv_of_busy (issue_engine w s) hm hx rfl ⟨rfl, rfl, hm, fun ha => ?_, fun _ => rfl, fun hs => (by cases hs), hcur⟩
  rw [fresh_word] at ha
  simp [Running.fresh, latch, ha, Operands.nColors, Config.maxColors]

theorem writeReg_keeps_inv {s : State} (v : Word) (r : Reg) (h : s.Inv) (hr : s.engine = .idle ∨ r = .ctrl ∨ r = .status) :
    (writeReg v s r).Inv := by
  rcases writeReg_cases v s r with rfl | rfl | rfl | ⟨hc, hs, pa, bp, hw⟩
  · show (writeCtrl v s).Inv
    unfold writeCtrl
    split
    · exact softReset_inv h
    · exact h.congr rfl rfl rfl rfl rfl id
  · exact h.congr rfl rfl rfl rfl rfl fun hd => by simp [writeReg, Status.cleared, hd]
  · exact issue_inv v h.wf h.errCode_le
  · rw [hw]
    exact inv_of_idle (hr.resolve_right (not_or.2 ⟨hc, hs⟩)) h.wf h.errCode_le

theorem hostWrite_keeps_inv {s t : State} {addr v : Word} {width : Nat} (h : s.Inv) (ht : hostWrite addr width v s = .next t) :
    t.Inv := by
  rcases hostWrite_cases ht with rfl | ⟨off, -, rfl⟩
  · exact h
  · rcases writeOffset_cases off v s with hw | hw | ⟨r, -, hr, hw⟩ <;> rw [hw]
    · exact h
    · exact h.congr rfl rfl rfl rfl rfl id
    · exact writeReg_keeps_inv v r h hr

theorem hostStores_idle {s : State} (he : s.engine = .idle) (a : Nat) (v : Byte) :
    hostStores a v s = { s with mem := Memory.write s.mem a v } := by
  simp [hostStores, he]

/-- Everything a host write of a byte of system memory can change of a Busy block: the byte, and what the draws of races need
(R241, log 6). -/
theorem hostStores_busy {s : State} {r : Running} (he : s.engine = .busy r) (a : Nat) (v : Byte) :
    ∃ m b st sh d, hostStores a v s = { s with
        mem := m, engine := .busy { r with before := b, stale := st, shielded := sh }, draws := d } ∧
      (m = Memory.write s.mem a v ∨ m = s.mem) ∧ (b = Memory.write r.before a v ∨ b = r.before) := by
  obtain ⟨ie, status, errCode, cmd, result, outCount, faultAddr, params, basePal, outPal, engine, mem⟩ := s
  subst he
  unfold hostStores
  simp only
  split
  · exact ⟨_, _, _, _, _, rfl, .inl rfl, .inl rfl⟩
  · split
    · unfold writeWriteWindow
      split
      · refine ⟨_, _, _, _, _, rfl, ?_, .inl rfl⟩
        split <;> simp
      · exact ⟨_, _, _, _, _, rfl, .inl rfl, .inl rfl⟩
    · exact ⟨_, _, _, _, _, rfl, .inl rfl, .inr rfl⟩

theorem hostStores_keeps_inv {s : State} {a : Nat} (v : Byte) (h : s.Inv) (ha : a < 2 ^ 32) : (hostStores a v s).Inv := by
  cases he : s.engine with
  | idle =>
    rw [hostStores_idle he]
    exact inv_of_idle he (Memory.wf_write h.wf ha v) h.errCode_le
  | busy r =>
    obtain ⟨hdone, hw, hp, hb, hrest⟩ := h.running he
    obtain ⟨m, b, st, sh, d, heq, hm', hb'⟩ := hostStores_busy he a v
    rw [heq]
    exact inv_of_busy rfl (wf_of_write h.wf ha hm') h.errCode_le hdone ⟨hw, hp, wf_of_write hb ha hb', hrest⟩

/-! ## Every step -/

theorem handle_keeps_inv {s t : State} (e : Event) (h : s.Inv) (ht : handle e s = .next t) : t.Inv := by
  cases e with
  | engine g => exact engineStep_keeps_inv h ht
  | hostWrite addr width v => exact hostWrite_keeps_inv h ht
  | hostRead addr width =>
    rw [hostRead_cases ht]
    exact h.congr rfl rfl rfl rfl rfl id
  | sameStep addr width v g =>
    rcases sameStep_cases ht with ⟨-, u, hu, ht⟩ | ⟨u, hu, ht⟩
    · exact engineStep_keeps_inv (hostWrite_keeps_inv h hu) ht
    · exact hostWrite_keeps_inv (engineStep_keeps_inv h hu) ht
  | memWrite addr v =>
    cases ht
    exact hostStores_keeps_inv v h addr.isLt
  | memRead addr =>
    cases ht
    exact h.congr rfl rfl rfl rfl rfl id
  | powerOn =>
    cases ht
    exact powerOnReset_inv h

/-- Settles O9: by the units of the running command for engine moves, and by what each host access can do for the others. -/
theorem stepKeepsTheMachineInvariant : Obligations.StepKeepsTheMachineInvariant := by
  intro s t h ht
  unfold step at ht
  split at ht
  · exact engineStep_keeps_inv (g := .all) h ht
  · rename_i e es _
    have h' : { s with inputs := es }.Inv := h.congr rfl rfl rfl rfl rfl id
    exact handle_keeps_inv e h' ht

end Sys2Proof.Machine
end

-- PROOFS, part 5: what the registers show
section
/-! SUPPORT. What a host read of each register shows, bit by bit and field by field (10_state.md R23 to R47), and what a write of a
parameter register does to it. -/

namespace Sys2Proof.Machine

/-! ## `STATUS` and `CTRL` -/

/-- `STATUS` shows its four bits, and 0 in every other place (R26). -/
theorem statusWord_getLsbD (s : State) (n : Nat) :
    (statusWord s).getLsbD n =
      match n with
      | 0 => s.isBusy
      | 1 => s.status.done
      | 2 => s.status.err
      | 3 => s.status.drop
      | _ => false := by
  simp only [statusWord, BitVec.getLsbD_setWidth, BitVec.getLsbD_append, BitVec.getLsbD_ofBool]
  match n with
  | 0 => simp
  | 1 => simp
  | 2 => simp
  | 3 => simp
  | n + 4 => simp

/-- `CTRL` shows `IE` in bit 0, and 0 in every other place (R25). -/
theorem ctrlWord_getLsbD (s : State) (n : Nat) : (ctrlWord s).getLsbD n = (decide (n = 0) && s.ieShown) := by
  unfold ctrlWord
  cases n with
  | zero => simp
  | succ n => simp

theorem ieShown_idle {s : State} (he : s.engine = .idle) : s.ieShown = s.ie := by
  rw [State.ieShown, he]

theorem ieShown_busy {s : State} {r : Running} (he : s.engine = .busy r) : s.ieShown = r.ieBefore := by
  rw [State.ieShown, he]

/-- A host write to `STATUS` clears the bits written 1 and no other. -/
theorem statusWord_acknowledge (v : Word) (s : State) :
    statusWord (acknowledge v s) = statusWord s &&& ~~~(v &&& 0x0000000E) := by
  have hbusy : (acknowledge v s).isBusy = s.isBusy := rfl
  refine BitVec.eq_of_getLsbD_eq fun n hn => ?_
  rw [BitVec.getLsbD_and, BitVec.getLsbD_not, BitVec.getLsbD_and, statusWord_getLsbD, statusWord_getLsbD, hbusy]
  match n with
  | 0 => simp
  | 1 => simp [Status.cleared]
  | 2 => simp [Status.cleared]
  | 3 => simp [Status.cleared]
  | n + 4 => simp

/-- `CTRL` as it is read with the `IE` that a word has in bit 0. -/
theorem ctrlWord_eq_and_one {s : State} {v : Word} (h : s.ieShown = v.getLsbD 0) : ctrlWord s = v &&& 1 := by
  refine BitVec.eq_of_getLsbD_eq fun n hn => ?_
  rw [ctrlWord_getLsbD, BitVec.getLsbD_and, h]
  cases n with
  | zero => simp
  | succ n => simp

/-! ## The tables -/

/-- A host read of `OUT_PAL` of an Idle block shows the entry (R47). -/
theorem outPalSees_idle {s : State} (he : s.engine = .idle) (i : Nat) : outPalSees s i = s.outPal.get s.draws i := by
  rw [outPalSees, outcome_idle he, ite_self]

/-- `RANGE_BOUNDS[k]` as a number: LOW 7:0, HIGH 15:8, REV 16 (R44). -/
theorem boundsWord_toNat (r : ColourRange) :
    (boundsWord r).toNat = r.low.toNat + 2 ^ 8 * r.high.toNat + 2 ^ 16 * r.rev.toNat := by
  have hl := r.low.isLt
  have hh := r.high.isLt
  have hr := r.rev.toNat_le
  unfold boundsWord
  rw [BitVec.toNat_setWidth, BitVec.toNat_append, BitVec.toNat_append, BitVec.toNat_ofBool,
    ← Nat.shiftLeft_add_eq_or_of_lt hh, ← Nat.shiftLeft_add_eq_or_of_lt hl, Nat.shiftLeft_eq, Nat.shiftLeft_eq]
  omega

/-- `RANGE_BOUNDS[k]` shows the fields of the word written and 0 above them (R44). -/
theorem boundsWord_withBounds (r : ColourRange) (v : Word) : boundsWord (r.withBounds v) = v &&& 0x0001FFFF := by
  have hmask : (0x0001FFFF : Word).toNat = 2 ^ 17 - 1 := rfl
  apply BitVec.eq_of_toNat_eq
  rw [boundsWord_toNat, BitVec.toNat_and, hmask, Nat.and_two_pow_sub_one_eq_mod]
  simp only [ColourRange.withBounds, BitVec.extractLsb'_toNat, BitVec.getLsbD, Nat.toNat_testBit, Nat.shiftRight_eq_div_pow]
  omega

/-- A field of `w` bits shows the low bits of the word written and 0 above them (R23). -/
theorem setWidth_setWidth_eq_and {w : Nat} (hw : w ≤ 32) {m : Word} (hm : m.toNat = 2 ^ w - 1) (v : Word) :
    (v.setWidth w).setWidth 32 = v &&& m := by
  apply BitVec.eq_of_toNat_eq
  have hlt : v.toNat % 2 ^ w < 2 ^ 32 :=
    Nat.lt_of_lt_of_le (Nat.mod_lt _ (Nat.two_pow_pos w)) (Nat.pow_le_pow_right (by decide) hw)
  rw [BitVec.toNat_setWidth, BitVec.toNat_setWidth, BitVec.toNat_and, hm, Nat.and_two_pow_sub_one_eq_mod, Nat.mod_eq_of_lt hlt]

theorem and_fullMask (v : Word) : v &&& 0xFFFFFFFF = v := BitVec.and_allOnes

/-! ## Parameter writes -/

/-- A parameter write is read back in the register's fields (R22, R23). -/
theorem readReg_writeReg_same {reg : Reg} (h : isParameter reg = true) (v : Word) (s : State) :
    readReg (writeReg v s reg) reg = v &&& fieldMask reg := by
  cases reg with
  | tpWidth => exact setWidth_setWidth_eq_and (by decide) rfl v
  | tpDepth => exact setWidth_setWidth_eq_and (by decide) rfl v
  | nColors => exact setWidth_setWidth_eq_and (by decide) rfl v
  | nRanges => exact setWidth_setWidth_eq_and (by decide) rfl v
  | rangeBounds k =>
    simp only [readReg, writeReg, Params.setRange, Fin.getElem_fin, Vector.getElem_set_self]
    exact boundsWord_withBounds _ v
  | rangeRate k =>
    simp only [readReg, writeReg, Params.setRange, Fin.getElem_fin, Vector.getElem_set_self]
    exact setWidth_setWidth_eq_and (by decide) rfl v
  | basePal i =>
    simp only [readReg, writeReg, Palette.get_set, i.isLt, and_self, if_true]
    exact setWidth_setWidth_eq_and (by decide) rfl v
  | id => cases h
  | ctrl => cases h
  | status => cases h
  | errCode => cases h
  | cmd => cases h
  | result => cases h
  | outCount => cases h
  | faultAddr => cases h
  | outPal i => cases h
  | _ => exact (and_fullMask v).symm

/-- And every other register reads as before. -/
theorem readReg_writeReg_other {s : State} (he : s.engine = .idle) {reg other : Reg} (h : isParameter reg = true)
    (hne : other ≠ reg) (v : Word) : readReg (writeReg v s reg) other = readReg s other := by
  obtain ⟨ie, status, errCode, cmd, result, outCount, faultAddr, params, basePal, outPal, engine, mem⟩ := s
  subst he
  cases reg with
  | srcAddr => cases other with | srcAddr => exact absurd rfl hne | _ => rfl
  | srcLen => cases other with | srcLen => exact absurd rfl hne | _ => rfl
  | dstAddr => cases other with | dstAddr => exact absurd rfl hne | _ => rfl
  | dstLen => cases other with | dstLen => exact absurd rfl hne | _ => rfl
  | tpSrc => cases other with | tpSrc => exact absurd rfl hne | _ => rfl
  | tpWidth => cases other with | tpWidth => exact absurd rfl hne | _ => rfl
  | tpDepth => cases other with | tpDepth => exact absurd rfl hne | _ => rfl
  | tpDst => cases other with | tpDst => exact absurd rfl hne | _ => rfl
  | tpPstride => cases other with | tpPstride => exact absurd rfl hne | _ => rfl
  | nColors => cases other with | nColors => exact absurd rfl hne | _ => rfl
  | nRanges => cases other with | nRanges => exact absurd rfl hne | _ => rfl
  | elapsed => cases other with | elapsed => exact absurd rfl hne | _ => rfl
  | rangeBounds k =>
    cases other with
    | rangeBounds j =>
      have hkj : k.val ≠ j.val := fun hv => hne (congrArg Reg.rangeBounds (Fin.ext hv.symm))
      simp [readReg, writeReg, Params.setRange, Vector.getElem_set_ne _ _ hkj]
    | rangeRate j =>
      by_cases hkj : k = j
      · subst hkj
        simp [readReg, writeReg, Params.setRange, ColourRange.withBounds]
      · have hkj' : k.val ≠ j.val := fun hv => hkj (Fin.ext hv)
        simp [readReg, writeReg, Params.setRange, Vector.getElem_set_ne _ _ hkj']
    | _ => rfl
  | rangeRate k =>
    cases other with
    | rangeRate j =>
      have hkj : k.val ≠ j.val := fun hv => hne (congrArg Reg.rangeRate (Fin.ext hv.symm))
      simp [readReg, writeReg, Params.setRange, Vector.getElem_set_ne _ _ hkj]
    | rangeBounds j =>
      by_cases hkj : k = j
      · subst hkj
        simp [readReg, writeReg, Params.setRange, boundsWord]
      · have hkj' : k.val ≠ j.val := fun hv => hkj (Fin.ext hv)
        simp [readReg, writeReg, Params.setRange, Vector.getElem_set_ne _ _ hkj']
    | _ => rfl
  | basePal i =>
    cases other with
    | basePal j =>
      have hij : j.val ≠ i.val := fun hv => hne (congrArg Reg.basePal (Fin.ext hv))
      simp [readReg, writeReg, Palette.get_set, hij]
    | _ => rfl
  | id => cases h
  | ctrl => cases h
  | status => cases h
  | errCode => cases h
  | cmd => cases h
  | result => cases h
  | outCount => cases h
  | faultAddr => cases h
  | outPal i => cases h

/-! ## While a command runs -/

/-- Other cursors and other memory show in no register but the draws of `OUT_PAL` (R49, R243). -/
theorem readReg_while_busy {s : State} {r : Running} (he : s.engine = .busy r) (m : Memory) (c : Cursor) {reg : Reg}
    (h : ∀ i, reg ≠ .outPal i) :
    readReg { s with mem := m, engine := .busy { r with cur := c } } reg = readReg s reg := by
  cases reg with
  | ctrl => simp [readReg, ctrlWord, State.ieShown, he]
  | status => simp [readReg, statusWord, State.isBusy, he]
  | outPal i => exact absurd rfl (h i)
  | _ => rfl

end Sys2Proof.Machine
end

-- PROOFS, part 6: the statements about the register window
section
/-! SUPPORT. The statements about host accesses to the register window (10_state.md R22 to R26, R48, R68). -/

namespace Sys2Proof.Machine

/-- Settles O48: the map by the lemmas about `Reg.offset` and `Reg.ofOffset`, the fields by what each register shows. -/
theorem registerMapIsOneToOne : Obligations.RegisterMapIsOneToOne := by
  refine ⟨rfl, fun k => ⟨rfl, rfl⟩, fun i => ⟨rfl, rfl⟩,
    fun r => ⟨r.offset_aligned.1, r.offset_aligned.2, r.ofOffset_offset⟩, fun off r => Reg.offset_of_ofOffset,
    fun s addr r h => ?_, fun s => ?_⟩
  · rw [hostRead_window h, readOffset_offset]
  · have hwide : ∀ {w : Nat} (x : BitVec w), w ≤ 32 → (x.setWidth 32).toNat = x.toNat := fun x hw =>
      BitVec.toNat_setWidth_of_le hw
    refine ⟨rfl, rfl, rfl, rfl, rfl, rfl, statusWord_getLsbD s 0, statusWord_getLsbD s 1, statusWord_getLsbD s 2,
      statusWord_getLsbD s 3, fun n hn => ?_, fun he => ?_, fun r he => ?_, fun n hn => ?_, rfl, rfl, rfl, rfl, rfl,
      hwide _ (by decide), hwide _ (by decide), rfl, rfl, hwide _ (by decide), hwide _ (by decide), rfl, fun k => ?_,
      fun i => rfl, fun he i => ?_⟩
    · obtain ⟨m, rfl⟩ := Nat.exists_eq_add_of_le' hn
      exact statusWord_getLsbD s (m + 4)
    · exact (ctrlWord_getLsbD s 0).trans (ieShown_idle he)
    · exact (ctrlWord_getLsbD s 0).trans (ieShown_busy he)
    · refine (ctrlWord_getLsbD s n).trans ?_
      simp [Nat.ne_of_gt hn]
    · have hk : s.rangeAt k.val = s.params.ranges[k] := by simp [State.rangeAt]
      rw [hk]
      exact ⟨boundsWord_toNat _, hwide _ (by decide)⟩
    · rw [readReg, outPalSees_idle he]

/-- No register is at the offsets of R68. -/
theorem ofOffset_gap {off : Nat} (h4 : off % 4 = 0)
    (h : (0x044 ≤ off ∧ off ≤ 0x04C) ∨ (0x05C ≤ off ∧ off ≤ 0x0FC) ∨ (0x180 ≤ off ∧ off ≤ 0x3FC) ∨
      (0xC00 ≤ off ∧ off ≤ 0xFFC)) : Reg.ofOffset off = none := by
  cases ho : Reg.ofOffset off with
  | none => rfl
  | some r =>
    obtain rfl := Reg.offset_of_ofOffset ho
    cases r <;> simp only [Reg.offset] at h <;> omega

/-- Settles O49: no register is found at an offset of R68. -/
theorem emptyOffsetsReadZero : Obligations.EmptyOffsetsReadZero := by
  intro s addr v off hw hgap
  have hnone : Reg.ofOffset off = none := ofOffset_gap hw.2.2 hgap
  refine ⟨?_, fun he => ?_⟩
  · rw [hostRead_window hw, readOffset, hnone]
  · rw [hostWrite_window hw, writeOffset_idle_none he hnone]

/-- Settles O50: by what a write of one register does to a read of it and of every other. -/
theorem parameterWritesAreReadBack : Obligations.ParameterWritesAreReadBack := by
  intro s addr v reg he hp hw
  refine ⟨writeReg v s reg, by rw [hostWrite_window hw, writeOffset_idle he], readReg_writeReg_same hp v s,
    fun other hne => readReg_writeReg_other he hp hne v, ?_⟩
  rcases writeReg_cases v s reg with rfl | rfl | rfl | ⟨-, -, pa, bp, h⟩
  · cases hp
  · cases hp
  · cases hp
  · rw [h]
    exact ⟨rfl, he⟩

/-- A read-only register ignores a write (R22). -/
theorem writeReg_readOnly {reg : Reg} (h : isReadOnly reg = true) (v : Word) (s : State) : writeReg v s reg = s := by
  cases reg with
  | id => rfl
  | errCode => rfl
  | result => rfl
  | outCount => rfl
  | faultAddr => rfl
  | outPal i => rfl
  | _ => cases h

/-- Settles O51: a Busy block drops the write, and a read-only register ignores it. -/
theorem ignoredWritesAreIgnored : Obligations.IgnoredWritesAreIgnored := by
  intro s addr v off hw
  refine ⟨fun hb hc hs => ?_, fun reg he hro ho => ?_⟩
  · rw [hostWrite_window hw, writeOffset_busy hb hc hs]
    rfl
  · subst ho
    rw [hostWrite_window hw, writeOffset_idle he, writeReg_readOnly hro]

/-- Settles O52: the access is inside the window and of no kind that the block answers. -/
theorem otherAccessesAreRefused : Obligations.OtherAccessesAreRefused := by
  intro s addr v width off ha hlt hbad
  have ho := windowOffset_eq_some_iff.2 ⟨ha, hlt⟩
  have hno : supportedAccess off width = false := by
    simp only [supportedAccess, Bool.and_eq_false_iff, beq_eq_false_iff_ne, ne_eq]
    exact hbad
  simp [hostWrite, hostRead, ho, hno]

/-- Settles O53: a write to `STATUS` is `acknowledge` in either phase. -/
theorem statusBitsClearByWritingOne : Obligations.StatusBitsClearByWritingOne := by
  intro s addr v hw
  refine ⟨acknowledge v s, ?_, rfl, statusWord_acknowledge v s⟩
  rw [hostWrite_window hw, writeOffset_status]

end Sys2Proof.Machine
end

-- PROOFS, part 7: the statements about a running command and its completion
section
/-! SUPPORT. The statements about engine moves and completions (10_state.md R49, R51, R52; 60_exceptions.md R203, R207, R208;
70_reset_and_hazards.md R243, R244). -/

namespace Sys2Proof.Machine

/-- Settles O47: a move that does not complete changes memory and the cursors. -/
theorem registersWaitForCompletion : Obligations.RegistersWaitForCompletion := by
  intro s t reg g hb ht htb
  obtain ⟨r, he⟩ := busy_of_isBusy hb
  rcases engineStep_busy_cases he ht with ⟨p, rfl⟩ | ⟨p, e, pa, op, -, rfl⟩
  · refine ⟨readReg_while_busy he p.mem p.cur, rfl, fun r' he' => ⟨p.cur, ?_⟩⟩
    rw [he] at he'
    cases he'
    rfl
  · rw [isBusy_of_idle (finish_engine ..)] at htb
    cases htb

/-- Settles O60: while Busy the read is the draw of `outPalSees`, between the entry and the one that `outcome` gives. -/
theorem outPalReadWhileBusyIsOldOrNew : Obligations.OutPalReadWhileBusyIsOldOrNew := by
  intro s t r addr i he hw ht
  have hread : hostRead addr 4 s = .next t := ht
  rw [hostRead_window (off := (Reg.outPal i).offset) hw, readOffset_offset] at hread
  cases hread
  refine ⟨rfl, ?_⟩
  show some ((outPalSees s i.val).setWidth 32) = _ ∨ some ((outPalSees s i.val).setWidth 32) = _
  unfold outPalSees
  split
  · exact .inr rfl
  · exact .inl rfl

/-- Settles O10: by what `exec` of the latched word is. -/
theorem stepRunsTheLatchedCommand : Obligations.StepRunsTheLatchedCommand := by
  refine ⟨fun s r he => ⟨fun hi => ?_, fun es hi => ?_, exec_latched he⟩, fun s he hi => ?_⟩
  · rw [step, hi]
    show runStep s = _
    rw [runStep, he]
  · rw [step, hi]
    show runStep { s with inputs := es } = _
    simp [runStep, he]
  · rw [step, hi]
    show runStep s = _
    rw [runStep, he]

/-! ## A word laid where it is fetched (log 10) -/

theorem rising_clearBytes {m : Memory} (h : Memory.rising 0 m = true) (a n : Nat) :
    Memory.rising 0 (clearBytes a n m) = true := by
  induction n generalizing m with
  | zero => exact h
  | succ n ih => exact ih (Memory.rising_write h (Nat.zero_le _) 0)

/-- What `placeControl` lays: a walk at its first control byte. -/
theorem placeControl_engine (b : Byte) (s : State) :
    ∃ r, (placeControl b s).engine = .busy r ∧ r.word = commandWord .rleDecode ∧
      r.cur = { Cursor.fresh with started := true } ∧ r.ops.srcBase = 0 ∧ r.ops.srcLen = 256 ∧ r.ops.dstLen = 128 ∧
      r.stale = [] :=
  ⟨_, rfl, rfl, rfl, rfl, rfl, rfl, rfl⟩

/-- The control byte laid by `placeControl` is the packet that the walk fetches next. -/
theorem fetchPacket_placeControl {s : State} (h : Memory.wf s.mem = true) (b : Byte) (es : List Event) :
    fetchPacket { placeControl b s with inputs := es } = some (decodeControl b) := by
  obtain ⟨r, he, hword, hcur, hbase, hsl, hdl, hstale⟩ := placeControl_engine b s
  have hdecode : decodeCommand (commandWord .rleDecode) = .rleDecode := by decide
  have hw : walking { placeControl b s with inputs := es } = some (r, true) :=
    walking_eq_some he (by simp [walkOf, hword, hdecode]) (by rw [hcur]) (by rw [hcur]; rfl)
      (by rw [hcur, hdl]; decide) (by rw [hcur, hsl]; decide)
  have hmem : (placeControl b s).mem = Memory.write (clearBytes 0 256 s.mem) 0 b := by
    simp only [placeControl, issue_mem]
  have hread : Memory.read (placeControl b s).mem 0 = b := by
    rw [hmem, Memory.read_write (rising_clearBytes (Memory.rising_of_wf h) 0 256), if_pos rfl]
  have haddr : r.ops.srcBase + r.cur.consumed = 0 := by
    rw [hbase, hcur]
    rfl
  rw [fetchPacket, hw]
  simp only [Running.ctx, hstale, haddr]
  rw [BusView.read_ok (by rfl), BusView.seen_plain, hread]
  rfl

/-- Settles O12: a command word is the latched one, a control byte the one the walk fetches. -/
theorem placedWordIsRunByTheNextStep : Obligations.PlacedWordIsRunByTheNextStep := by
  refine fun s w => ⟨rfl, fun h => ?_⟩
  show packetStep { placeControl (BitVec.ofNat 8 w) s with inputs := s.inputs } = _
  rw [packetStep, fetchPacket_placeControl h]
  rfl

/-! ## The interrupt output (R52, R207) -/

/-- A completion asserts the output if `IE` is set. -/
theorem irqLevel_finish {e : Ending} {c : Cursor} {s : State} (h : s.ie = true) : irqLevel (finish e c s) = true := by
  simp [irqLevel, Status.completed, h]

/-- `exec` of a command word that does not fault completes the command. -/
theorem exec_command_finish {i : Instr} {s t : State} (hi : isCommand i) (h : exec i s = .next t) :
    ∃ e c u, t = finish e c u ∧ u.ie = s.ie := by
  have ht : t = (commandOf i).run (commandWord i) s := by
    by_cases hr : (accept (commandWord i) s).readsUnwritten = false ∨ (i ≠ .animate ∧ i ≠ .animateBlend)
    · rw [exec_command hi s hr] at h
      cases h
      rfl
    · obtain ⟨hr, ha⟩ := not_or.1 hr
      rw [exec_unwritten (by tauto) (by simpa using hr)] at h
      cases h
  have hend : ∀ r u, ∃ e c u', (commandOf i).complete r u = finish e c u' ∧ u'.ie = u.ie := fun r u => by
    obtain ⟨p, e, -, hc⟩ := Command.complete_ends i r u
    obtain ⟨pa, op, hs⟩ := settle_done_finish i r u p e
    exact ⟨e, p.cur, _, hc.trans hs, rfl⟩
  rcases idle_or_busy s with he | ⟨r, he⟩
  · rw [ht, Command.run_idle he]
    exact hend _ (issue (commandWord i) s)
  · rw [ht, Command.run_busy he]
    exact hend r s

/-- No engine move lowers the output, and none moves the window. -/
theorem engineStep_irqLevel {s t : State} {g : Grant} (h : engineStep g s = .next t) :
    (irqLevel s = true → irqLevel t = true) ∧ t.platform = s.platform := by
  rcases idle_or_busy s with he | ⟨r, he⟩
  · rw [engineStep_idle he] at h
    cases h
    exact ⟨id, rfl⟩
  · rcases engineStep_busy_cases he h with ⟨p, rfl⟩ | ⟨p, e, pa, op, -, rfl⟩
    · exact ⟨id, rfl⟩
    · refine ⟨fun hl => irqLevel_finish ?_, rfl⟩
      simp only [irqLevel, Bool.and_eq_true] at hl
      exact hl.1

/-- A host write that lowers the output is one to `CTRL`, `STATUS` or `CMD`. -/
theorem hostWrite_irqLevel {s t : State} {addr v : Word} {width : Nat} (h : hostWrite addr width v s = .next t)
    (hl : irqLevel s = true) (hl' : irqLevel t = false) :
    ∃ off, addr.toNat = s.platform.blockBase.toNat + off ∧ (off = 0x004 ∨ off = 0x008 ∨ off = 0x010) := by
  have hkeep : irqLevel t ≠ irqLevel s := by
    rw [hl, hl']
    decide
  rcases hostWrite_cases h with rfl | ⟨off, ha, rfl⟩
  · exact absurd rfl hkeep
  · refine ⟨off, ha, ?_⟩
    rcases writeOffset_cases off v s with hw | hw | ⟨r, rfl, -, hw⟩ <;> rw [hw] at hkeep
    · exact absurd rfl hkeep
    · exact absurd rfl hkeep
    · rcases writeReg_cases v s r with rfl | rfl | rfl | ⟨-, -, pa, bp, hr⟩
      · exact .inl rfl
      · exact .inr (.inl rfl)
      · exact .inr (.inr rfl)
      · rw [hr] at hkeep
        exact absurd rfl hkeep

theorem hostStores_irqLevel (a : Nat) (v : Byte) (s : State) : irqLevel (hostStores a v s) = irqLevel s := by
  rcases idle_or_busy s with he | ⟨r, he⟩
  · rw [hostStores_idle he]
    rfl
  · obtain ⟨m, b, st, sh, d, heq, -⟩ := hostStores_busy he a v
    rw [heq]
    rfl

/-- Settles O57: every command completes with `DONE` set, and only the writes named can clear what holds the output up. -/
theorem completionRaisesTheInterrupt : Obligations.CompletionRaisesTheInterrupt := by
  refine ⟨fun i s t hi hie h => ?_, fun s addr v hl => ⟨fun hw => ?_, fun hw => ?_⟩, fun e s u hl h hl' => ?_⟩
  · obtain ⟨e, c, u, rfl, hu⟩ := exec_command_finish hi h
    have hlevel := irqLevel_finish (e := e) (c := c) (hu.trans hie)
    exact ⟨hlevel, by simp [irqInput, hlevel]⟩
  · simp only [irqLevel, Bool.and_eq_true] at hl
    refine ⟨acknowledge v s, by rw [hostWrite_window hw, writeOffset_status], ?_⟩
    simp [irqLevel, Status.cleared, hl.1]
  · simp only [irqLevel, Bool.and_eq_true] at hl
    refine ⟨writeCtrl v s, by rw [hostWrite_window hw, writeOffset_ctrl], ?_⟩
    unfold writeCtrl
    cases v.getLsbD 1 with
    | true => exact (Bool.and_false _).symm
    | false =>
      show (v.getLsbD 0 && (s.status.done || s.status.err)) = (v.getLsbD 0 && !false)
      rw [hl.2]
      rfl
  · have hkeep : irqLevel u ≠ irqLevel s := by
      rw [hl, hl']
      decide
    cases e with
    | engine g =>
      rw [(engineStep_irqLevel h).1 hl] at hl'
      cases hl'
    | hostWrite addr width v =>
      obtain ⟨off, ha, ho⟩ := hostWrite_irqLevel h hl hl'
      exact .inr ⟨addr, width, v, off, .inl rfl, ha, ho⟩
    | hostRead addr width =>
      rw [hostRead_cases h] at hkeep
      exact absurd rfl hkeep
    | sameStep addr width v g =>
      refine .inr ⟨addr, width, v, ?_⟩
      rcases sameStep_cases h with ⟨ha, -⟩ | ⟨c, hc, hw⟩
      · exact ⟨0x008, .inr ⟨g, rfl⟩, ha, .inr (.inl rfl)⟩
      · obtain ⟨hlc, hp⟩ := engineStep_irqLevel hc
        obtain ⟨off, ha, ho⟩ := hostWrite_irqLevel hw (hlc hl) hl'
        exact ⟨off, .inr ⟨g, rfl⟩, hp ▸ ha, ho⟩
    | memWrite addr v =>
      cases h
      exact absurd (hostStores_irqLevel addr.toNat v s) hkeep
    | memRead addr =>
      cases h
      exact absurd rfl hkeep
    | powerOn => exact .inl rfl

/-! ## Same-step events (R26, R208) -/

/-- The units of a move, and so their ending, depend on nothing that a write to `STATUS` changes. -/
theorem move_acknowledge {i : Instr} {n : Nat} {r : Running} {s : State} {u : UnitResult}
    (h : iterate ((commandOf i).unit (r.ctx s)) n ⟨s.mem, r.cur⟩ = u) (v : Word) :
    (commandOf i).move n r (acknowledge v s) = settle (commandOf i).onSuccess r (acknowledge v s) u :=
  congrArg (settle (commandOf i).onSuccess r (acknowledge v s)) h

/-- A move that completes a command does so too after a write to `STATUS`: `DONE` ends set, and `ERR` if the code is an error
(R26, R208). -/
theorem engineStep_acknowledge {s c : State} {r : Running} {g : Grant} (he : s.engine = .busy r)
    (h : engineStep g s = .next c) (hc : c.engine = .idle) (v : Word) :
    ∃ t, engineStep g (acknowledge v s) = .next t ∧ t.engine = .idle ∧ t.status.done = true ∧
      (c.errCode ≠ 0 → t.status.err = true) ∧ t.errCode = c.errCode ∧ t.result = c.result := by
  have hr : s.readsUnwritten = false := by
    rcases unlessUnwritten_cases s ((commandOf (decodeCommand r.word)).move (grantedUnits g r s) r s) with ⟨-, h'⟩ | ⟨hr, -⟩
    · rw [engineStep_busy he, h'] at h
      cases h
    · exact hr
  have hr' : (acknowledge v s).readsUnwritten = false := hr
  have ht : engineStep g (acknowledge v s) =
      .next ((commandOf (decodeCommand r.word)).move (grantedUnits g r s) r (acknowledge v s)) := by
    rw [engineStep_busy (s := acknowledge v s) he, unlessUnwritten, hr']
    rfl
  refine ⟨_, ht, ?_⟩
  rcases engineStep_busy_cases he h with ⟨p, rfl⟩ | ⟨p, e, pa, op, hit, rfl⟩
  · cases hc
  · obtain ⟨pa', op', hs⟩ := settle_done_finish (decodeCommand r.word) r (acknowledge v s) p e
    rw [move_acknowledge hit, hs]
    refine ⟨rfl, rfl, fun hne => ?_, rfl, rfl⟩
    have hcode : (e.code != 0) = true := bne_iff_ne.2 hne
    show (_ || e.code != 0) = true
    rw [hcode, Bool.or_true]

/-- Settles O58: a write to `STATUS` counts before the engine's move and one to `CMD` after it. -/
theorem completionWinsTheSameStep : Obligations.CompletionWinsTheSameStep := by
  intro s c addr v g h hb hc
  obtain ⟨r, he⟩ := busy_of_isBusy hb
  refine ⟨fun hw => ?_, fun hw => ?_⟩
  · have hfirst : hostFirst s.platform addr = true := by
      rw [hostFirst, windowOffset_eq_some_iff.2 ⟨hw.1, hw.2.1⟩]
      rfl
    obtain ⟨t, ht, hrest⟩ := engineStep_acknowledge he h hc v
    refine ⟨t, ?_, hrest⟩
    show sameStep addr 4 v g s = _
    rw [sameStep, if_pos hfirst, hostWrite_window hw, writeOffset_status]
    exact ht
  · have hfirst : hostFirst s.platform addr = false := by
      rw [hostFirst, windowOffset_eq_some_iff.2 ⟨hw.1, hw.2.1⟩]
      rfl
    have hwc : windowAt c addr Reg.cmd.offset := by
      rw [windowAt, (engineStep_irqLevel h).2]
      exact hw
    show sameStep addr 4 v g s = _
    rw [sameStep, if_neg (by simp [hfirst]), h]
    show hostWrite addr 4 v c = _
    rw [hostWrite_window hwc, writeOffset_idle hc]
    rfl

/-! ## `CTRL` while a command runs (R25, R49, log 26) -/

/-- No engine move writes `IE`. -/
theorem engineStep_ie {s t : State} {g : Grant} (h : engineStep g s = .next t) : t.ie = s.ie := by
  rcases idle_or_busy s with he | ⟨r, he⟩
  · rw [engineStep_idle he] at h
    cases h
    rfl
  · rcases engineStep_busy_cases he h with ⟨p, rfl⟩ | ⟨p, e, pa, op, -, rfl⟩
    · rfl
    · rfl

/-- Settles O54: `IE` is written at once, and `CTRL` shows it where no command runs. -/
theorem ctrlWriteSetsTheInterruptEnable : Obligations.CtrlWriteSetsTheInterruptEnable := by
  intro s addr v hw hsrst
  have hidle : ∀ t : State, t.engine = .idle → t.ie = v.getLsbD 0 → readReg t .ctrl = v &&& 1 := fun t he hie =>
    ctrlWord_eq_and_one ((ieShown_idle he).trans hie)
  refine ⟨?_, rfl, fun he => hidle _ he rfl, fun hb => ?_⟩
  · rw [hostWrite_window hw, writeOffset_ctrl, writeCtrl, hsrst]
    rfl
  · obtain ⟨r, he⟩ := busy_of_isBusy hb
    refine ⟨?_, ?_, fun g u hu hidle' => hidle u hidle' (engineStep_ie hu)⟩
    · simp [readReg, ctrlWord, State.ieShown, he]
    · obtain ⟨p, e, pa, op, ho⟩ := outcome_finish (s := { s with ie := v.getLsbD 0 }) he
      rw [ho]
      exact hidle _ rfl rfl

end Sys2Proof.Machine
end

-- PROOFS, part 8: where commands store
section
/-! SUPPORT. Where the units of a command store (20_memory.md R61, R66), and the statement about it. -/

namespace Sys2Proof.Machine

/-! ## Where a command may store -/

/-- The addresses that command `i` may have stored to when its cursors are `c`: the destination up to the bytes produced (R114, R115,
R120), the plane rows (R146), and for every other command none. -/
def storeWindow (o : Operands) (c : Cursor) (a : Nat) : Instr → Prop
  | .copy         => o.dstBase ≤ a ∧ a < o.dstBase + c.produced
  | .rleDecode    => o.dstBase ≤ a ∧ a < o.dstBase + c.produced
  | .transposeRow => ∃ p, p < o.depth ∧ o.planeRow p ≤ a ∧ a < o.planeRow p + o.rowBytes
  | _             => False

/-- On its way from `p` to `q` command `i` has changed no byte outside its window, and the window has not lost an address. -/
def StoresInside (i : Instr) (o : Operands) (p q : Prog) : Prop :=
  ∀ a, ¬ storeWindow o q.cur a i → ¬ storeWindow o p.cur a i ∧ Memory.read q.mem a = Memory.read p.mem a

theorem StoresInside.refl (i : Instr) (o : Operands) (p : Prog) : StoresInside i o p p := fun _ h => ⟨h, rfl⟩

theorem StoresInside.trans {i : Instr} {o : Operands} {p q r : Prog} (hpq : StoresInside i o p q) (hqr : StoresInside i o q r) :
    StoresInside i o p r := fun a hr => by
  obtain ⟨hq, hread⟩ := hqr a hr
  obtain ⟨hp, hread'⟩ := hpq a hq
  exact ⟨hp, hread.trans hread'⟩

/-- A part that leaves memory as it is stores inside every window that it leaves or extends. -/
theorem StoresInside.of_mem_eq {i : Instr} {o : Operands} {p q : Prog} (hm : q.mem = p.mem)
    (hw : ∀ a, storeWindow o p.cur a i → storeWindow o q.cur a i) : StoresInside i o p q :=
  fun a h => ⟨fun hp => h (hw a hp), by rw [hm]⟩

/-- The destination window of the codec grows with the bytes produced. -/
theorem storeWindow_produced {i : Instr} (hi : i = .copy ∨ i = .rleDecode) (o : Operands) (c : Cursor) (a : Nat) :
    storeWindow o c a i ↔ o.dstBase ≤ a ∧ a < o.dstBase + c.produced := by
  rcases hi with rfl | rfl <;> exact Iff.rfl

/-- Passing the checks produces nothing. -/
theorem storeWindow_enter (i : Instr) (o : Operands) (c : Cursor) (a : Nat) :
    storeWindow o { (commandOf i).enter o c with started := true } a i ↔ storeWindow o c a i := by
  cases i <;> exact Iff.rfl

/-- A byte written, or lost to a host write of it (R241), leaves every other byte as it was. -/
theorem read_of_write {m m' : Memory} {a b : Nat} {v : Byte} (hm : Memory.wf m = true) (h : m' = Memory.write m a v ∨ m' = m)
    (hne : b ≠ a) : Memory.read m' b = Memory.read m b := by
  rcases h with rfl | rfl
  · rw [Memory.read_write_wf hm, if_neg hne]
  · rfl

/-! ## The codec -/

/-- An access of a run stores at the next output address, which it then counts (R114, R115, R120). -/
theorem runAccess_storesInside {i : Instr} (hi : i = .copy ∨ i = .rleDecode) {x : Ctx} {p q : Prog} (hm : Memory.wf p.mem = true)
    (hr : p.cur.run ≠ .none) (h : runAccess x p = .more q) : StoresInside i x.ops p q := by
  obtain ⟨-, -, ⟨hmem, -, hd, -⟩ | ⟨-, hd, n, b, hmem, -⟩⟩ := runAccess_more h hr
  · exact .of_mem_eq hmem fun a => by simp [storeWindow_produced hi, hd]
  · intro a ha
    simp only [storeWindow_produced hi, hd] at ha ⊢
    exact ⟨by omega, read_of_write hm hmem (by omega)⟩

/-- A packet that begins takes nothing back of what its walk has produced. -/
theorem startPacket_produced_le {b : Byte} {write : Bool} {o : Operands} {p q : Prog}
    (h : startPacket (decodeControl b) write o p = .more q) : p.cur.produced ≤ q.cur.produced := by
  rcases decodeControl_cases b with ⟨c, -, hd⟩ | ⟨c, -, -, hd⟩ | hd <;> rw [hd] at h
  · rcases startLiteral_cases c write o p with ⟨-, h'⟩ | ⟨-, -, h'⟩ | ⟨-, -, h'⟩ <;> rw [startPacket, h'] at h <;> cases h
    cases write <;> simp
  · rcases startRepeat_cases c write o p with ⟨-, h'⟩ | ⟨-, -, h'⟩ | ⟨-, -, h'⟩ <;> rw [startPacket, h'] at h <;> cases h
    cases write <;> simp
  · cases h
    exact Nat.le_refl _

/-- A turn of `RLE_DECODE` stores at the next output address or nowhere (R117). -/
theorem walkTurn_storesInside {write : Bool} {x : Ctx} {p q : Prog} (hm : Memory.wf p.mem = true)
    (h : walkTurn write x p = .more q) : StoresInside .rleDecode x.ops p q := by
  rcases walkTurn_more h with ⟨hr, h⟩ | ⟨hr, -, -, -, h⟩
  · exact runAccess_storesInside (.inr rfl) hm hr h
  · obtain ⟨-, -, -, hmem⟩ := startPacket_more (by simpa using hr) h
    have hd := startPacket_produced_le h
    rw [took_produced] at hd
    refine .of_mem_eq hmem fun a ha => ?_
    obtain ⟨hlo, hhi⟩ := ha
    exact ⟨hlo, by omega⟩

/-- A turn of a walk between two packets, which is what `RLE_SKIP` always is at, stores nowhere (R123). -/
theorem walkTurn_more_mem {write : Bool} {x : Ctx} {p q : Prog} (hr : p.cur.run = .none) (h : walkTurn write x p = .more q) :
    q.mem = p.mem := by
  rcases walkTurn_more h with ⟨hr', -⟩ | ⟨-, -, -, -, h⟩
  · exact absurd hr hr'
  · obtain ⟨-, -, -, hmem⟩ := startPacket_more (by simpa using hr) h
    exact hmem

/-! ## The transpose -/

/-- Every byte a group stores lies in the row of a plane (R141, R146). -/
theorem groupStores_storeWindow {o : Operands} {g : Nat} {px : List Byte} (hg : g < o.groups) (cur : Cursor) {c : Host.Cell}
    (h : c ∈ groupStores o g px) : storeWindow o cur c.1 .transposeRow := by
  simp only [groupStores, List.mem_flatMap, List.mem_range, List.mem_cons, List.not_mem_nil, or_false] at h
  obtain ⟨p, hp, rfl | rfl⟩ := h <;> refine ⟨p, hp, ?_⟩ <;> simp only [Operands.rowBytes] <;> omega

/-- What a row still has to store are bytes of its group (R146, R147). -/
theorem rowOk_stores_mem {o : Operands} {cur : Cursor} (h : rowOk o cur) {c : Host.Cell} (hc : c ∈ cur.stores) :
    c ∈ groupStores o cur.group cur.pixels := by
  obtain ⟨-, -, -, -, hstores⟩ := h
  rw [if_neg (List.ne_nil_of_mem hc)] at hstores
  obtain ⟨-, k, hk, -⟩ := hstores
  exact List.mem_of_mem_drop (hk ▸ hc)

/-- An access of a row stores in a plane row or nowhere (R147). -/
theorem groupTurn_storesInside {x : Ctx} {p q : Prog} (hm : Memory.wf p.mem = true) (h : rowOk x.ops p.cur)
    (hq : groupTurn x p = .more q) : StoresInside .transposeRow x.ops p q := by
  obtain ⟨hg, ⟨a, b, cs, hs, -, hq⟩ | ⟨-, -, -, -, rfl⟩ | ⟨-, -, -, rfl⟩ | ⟨-, -, rfl⟩⟩ := groupTurn_more hq
  · intro a' ha'
    have hin : storeWindow x.ops q.cur a .transposeRow :=
      groupStores_storeWindow hg q.cur (rowOk_stores_mem h (c := (a, b)) (hs ▸ List.mem_cons_self))
    have hne : a' ≠ a := fun heq => ha' (heq ▸ hin)
    have hmem : q.mem = Memory.write p.mem a b ∨ q.mem = p.mem := by
      rcases hq with rfl | rfl
      · exact .inl rfl
      · exact .inr rfl
    exact ⟨ha', read_of_write hm hmem hne⟩
  · exact .of_mem_eq rfl fun _ => id
  · exact .of_mem_eq rfl fun _ => id
  · exact .of_mem_eq (withStores_mem p _) fun _ => id

/-! ## Endings -/

/-- A read that ends the command fails and changes nothing, or what follows it ends the command (R125). -/
theorem takeByte_done {v : BusView} {a : Nat} {p q : Prog} {k : Byte → Prog → UnitResult} {e : Ending}
    (h : takeByte v a p k = .done q e) : q = p ∨ ∃ b, k b p.took = .done q e := by
  rcases takeByte_cases v a p k with ⟨-, h'⟩ | ⟨-, h'⟩ <;> rw [h'] at h
  · cases h
    exact .inl rfl
  · exact .inr ⟨_, h⟩

/-- A write that ends the command changes nothing (R125). -/
theorem putByte_done {v : BusView} {a : Nat} {b : Byte} {p q : Prog} {e : Ending} (h : putByte v a b p = .done q e) : q = p := by
  rcases putByte_cases v a b p with ⟨-, h'⟩ | ⟨-, h' | h'⟩ <;> rw [h'] at h <;> cases h
  rfl

/-- An access that fails is not counted (R125). -/
theorem runAccess_done_produced {x : Ctx} {p q : Prog} {e : Ending} (h : runAccess x p = .done q e) :
    q.cur.produced = p.cur.produced := by
  unfold runAccess at h
  split at h
  · cases h
  · rcases takeByte_done h with rfl | ⟨b, h⟩
    · rfl
    · cases h
  · rw [putByte_done h, withRun_produced]
  · rcases takeByte_done h with rfl | ⟨b, h⟩
    · rfl
    · cases h
  · rw [putByte_done h, withRun_produced]

/-- A turn that ends a walk produces nothing. -/
theorem walkTurn_done_produced {write : Bool} {x : Ctx} {p q : Prog} {e : Ending} (h : walkTurn write x p = .done q e) :
    q.cur.produced = p.cur.produced := by
  unfold walkTurn at h
  split at h
  · split at h
    · split at h
      · rcases takeByte_done h with rfl | ⟨b, h⟩
        · rfl
        · rw [(startPacket_done h).1, took_produced]
      · cases h
        rfl
    · cases h
      rfl
  · exact runAccess_done_produced h

/-- A turn that ends `COPY` produces nothing. -/
theorem copyTurn_done_produced {x : Ctx} {p q : Prog} {e : Ending} (h : copyTurn x p = .done q e) :
    q.cur.produced = p.cur.produced := by
  unfold copyTurn at h
  split at h
  · cases h
    rfl
  · exact runAccess_done_produced h

/-- The unit that ends `COPY` or `RLE_DECODE` produces nothing (R118, R119, R125). -/
theorem unit_done_produced {i : Instr} (hi : i = .copy ∨ i = .rleDecode) {x : Ctx} {p q : Prog} {e : Ending}
    (h : (commandOf i).unit x p = .done q e) : q.cur.produced = p.cur.produced := by
  cases hs : p.cur.started with
  | true =>
    rw [Command.unit_started hs] at h
    rcases hi with rfl | rfl
    · exact copyTurn_done_produced h
    · exact walkTurn_done_produced h
  | false =>
    cases hc : (commandOf i).check x.ops with
    | none =>
      rw [Command.unit_enters hs hc] at h
      cases h
    | some e' =>
      rw [Command.unit_fails hs hc] at h
      cases h
      rfl

/-! ## Every command -/

/-- One turn of a command's work stores inside its window. -/
theorem work_storesInside (i : Instr) {x : Ctx} {p q : Prog} (h : (commandOf i).Holds x.ops (cursorOk x.ops · i) p)
    (hq : (commandOf i).work x p = .more q) : StoresInside i x.ops p q := by
  cases i with
  | nop => cases hq
  | skip => cases hq
  | illegal w => cases hq
  | copy =>
    obtain ⟨hr, hq⟩ := copyTurn_more hq
    exact runAccess_storesInside (.inl rfl) h.wf hr hq
  | rleDecode => exact walkTurn_storesInside h.wf hq
  | rleSkip => exact .of_mem_eq (walkTurn_more_mem h.cursor.2 hq) fun _ => id
  | transposeRow => exact groupTurn_storesInside h.wf h.cursor hq
  | animate => exact .of_mem_eq (tableTurn_keeps h.cursor hq).1 fun _ => id
  | animateBlend => exact .of_mem_eq (tableTurn_keeps h.cursor hq).1 fun _ => id
  | literal c => exact h.cursor.elim
  | noop => exact h.cursor.elim
  | repeatRun c => exact h.cursor.elim

/-- So does one unit that leaves more to do; passing the checks stores nothing (R202). -/
theorem unit_more_storesInside (i : Instr) {x : Ctx} {p q : Prog} (h : (commandOf i).Holds x.ops (cursorOk x.ops · i) p)
    (hu : (commandOf i).unit x p = .more q) : StoresInside i x.ops p q := by
  cases hs : p.cur.started with
  | true => exact work_storesInside i h (Command.unit_started hs ▸ hu)
  | false =>
    cases hc : (commandOf i).check x.ops with
    | some e =>
      rw [Command.unit_fails hs hc] at hu
      cases hu
    | none =>
      rw [Command.unit_enters hs hc] at hu
      cases hu
      exact .of_mem_eq rfl fun a => (storeWindow_enter i x.ops p.cur a).2

/-- So does the unit that ends it. -/
theorem unit_done_storesInside (i : Instr) {x : Ctx} {p q : Prog} {e : Ending} (hu : (commandOf i).unit x p = .done q e) :
    StoresInside i x.ops p q := by
  refine .of_mem_eq (unit_done_mem i hu) fun a => ?_
  by_cases hi : i = .copy ∨ i = .rleDecode
  · rw [storeWindow_produced hi, storeWindow_produced hi, unit_done_produced hi hu]
    exact id
  · obtain ⟨hcopy, hrle⟩ := not_or.1 hi
    cases i with
    | copy => exact absurd rfl hcopy
    | rleDecode => exact absurd rfl hrle
    | _ => exact id

/-- A `COPY` that has started has not produced more than its destination length (R120). -/
theorem copyOk_produced_le {o : Operands} {c : Cursor} (hs : c.started = true) (h : copyOk o c) : c.produced ≤ o.dstLen := by
  unfold copyOk at h
  split at h
  · exact Nat.le_of_eq (h.2 hs)
  · omega
  · omega
  · exact h.elim
  · exact h.elim

/-- The codec never counts more output bytes than its destination has (R118, R120). -/
theorem Command.Holds.produced_le {i : Instr} (hi : i = .copy ∨ i = .rleDecode) {o : Operands} {p : Prog}
    (h : (commandOf i).Holds o (cursorOk o · i) p) : p.cur.produced ≤ o.dstLen := by
  rcases hi with rfl | rfl
  · cases hs : p.cur.started with
    | false =>
      rw [h.fresh hs]
      exact Nat.zero_le _
    | true => exact copyOk_produced_le hs h.cursor
  · obtain ⟨-, hd, -⟩ := h.cursor
    exact hd

/-- All the units of a command store inside its window, and the codec's `OUTCOUNT` does not wrap. -/
theorem units_storeInside (i : Instr) {x : Ctx}
    (hpal : i = .animate ∨ i = .animateBlend → x.ops.basePal.length = min x.ops.nColors 256) {n : Nat} {p q : Prog} {e : Ending}
    (h : (commandOf i).Holds x.ops (cursorOk x.ops · i) p) (hq : iterate ((commandOf i).unit x) n p = .done q e) :
    StoresInside i x.ops p q ∧ (i = .copy ∨ i = .rleDecode → q.cur.produced ≤ x.ops.dstLen) :=
  (iterate_induct (fun p' => (commandOf i).Holds x.ops (cursorOk x.ops · i) p' ∧ StoresInside i x.ops p p')
    (fun q _ => StoresInside i x.ops p q ∧ (i = .copy ∨ i = .rleDecode → q.cur.produced ≤ x.ops.dstLen))
    (fun _ _ hp hu => ⟨unit_keeps i hpal hp.1 hu, hp.2.trans (unit_more_storesInside i hp.1 hu)⟩)
    (fun _ _ _ hp hu => ⟨hp.2.trans (unit_done_storesInside i hu),
      fun hi => unit_done_produced hi hu ▸ hp.1.produced_le hi⟩)
    ⟨h, .refl i x.ops p⟩).2 q e hq

/-! ## A command from its issue to its completion -/

/-- `exec` of a command word that does not fault runs the rule of the command. -/
theorem exec_command_next {i : Instr} {s t : State} (hi : isCommand i) (h : exec i s = .next t) :
    t = (commandOf i).run (commandWord i) s := by
  by_cases hr : (i = .animate ∨ i = .animateBlend) ∧ (accept (commandWord i) s).readsUnwritten = true
  · rw [exec_unwritten hr.1 hr.2] at h
    cases h
  · rw [exec_command hi s (by rw [← Bool.not_eq_true]; tauto)] at h
    cases h
    rfl

/-- On an Idle engine it leaves what an ending of the command's units leaves (R203, R248). -/
theorem exec_command_ends {i : Instr} {s t : State} (hi : isCommand i) (he : s.engine = .idle) (h : exec i s = .next t) :
    ∃ n q e, iterate ((commandOf i).unit ((Running.fresh (commandWord i) s).ctx (issue (commandWord i) s))) n
        ⟨s.mem, Cursor.fresh⟩ = .done q e ∧
      t = settle (commandOf i).onSuccess (Running.fresh (commandWord i) s) (issue (commandWord i) s) (.done q e) := by
  rw [exec_command_next hi h, Command.run_idle he]
  obtain ⟨q, e, hq, ht⟩ := Command.complete_ends i (Running.fresh (commandWord i) s) (issue (commandWord i) s)
  exact ⟨_, q, e, hq, ht⟩

/-- The word of a legal command decodes to it (R81). -/
theorem decodeCommand_commandWord {i : Instr} (hi : isCommand i) (hl : ∀ w, i ≠ .illegal w) :
    decodeCommand (commandWord i) = i := by
  cases i with
  | illegal w => exact absurd rfl (hl w)
  | literal c => cases hi
  | noop => cases hi
  | repeatRun c => cases hi
  | nop => decide
  | copy => decide
  | rleDecode => decide
  | skip => decide
  | rleSkip => decide
  | transposeRow => decide
  | animate => decide
  | animateBlend => decide

/-- At its issue a command is where its units can be, and an animator has latched its base colours. What `ERRCODE` holds then does not
matter, so `issue_inv` is used with it clear. -/
theorem holds_at_issue {i : Instr} {s : State} (hi : isCommand i) (hm : Memory.wf s.mem = true) :
    (commandOf i).Holds (latch (commandWord i) s) (cursorOk (latch (commandWord i) s) · i) ⟨s.mem, Cursor.fresh⟩ ∧
    (i = .animate ∨ i = .animateBlend →
      (latch (commandWord i) s).basePal.length = min (latch (commandWord i) s).nColors 256) := by
  by_cases hl : ∃ w, i = .illegal w
  · obtain ⟨w, rfl⟩ := hl
    exact ⟨⟨hm, fun _ => rfl, fun hs => (by cases hs), rfl, rfl⟩, fun ha => (by simp at ha)⟩
  · have hd := decodeCommand_commandWord hi (not_exists.1 hl)
    have hinv : (issue (commandWord i) { s with errCode := 0 }).Inv := issue_inv _ hm (Nat.zero_le 8)
    obtain ⟨-, -, -, -, hpal, -⟩ := hinv.running (issue_engine ..)
    have hold := holds_of_inv hinv (issue_engine ..)
    rw [fresh_word, hd] at hold
    exact ⟨hold, fun ha => hpal (by simpa [isAnimator, hd] using ha)⟩

/-- The bytes a command changes lie in its window, as its operands and the `OUTCOUNT` it ends with name it. -/
theorem exec_command_storesInside {i : Instr} {s t : State} (hi : isCommand i) (he : s.engine = .idle)
    (hm : Memory.wf s.mem = true) (h : exec i s = .next t) :
    ∃ c, (i = .copy ∨ i = .rleDecode → c.produced = t.outCount.toNat) ∧
      ∀ a, ¬ storeWindow (latch (commandWord i) s) c a i → Memory.read t.mem a = Memory.read s.mem a := by
  obtain ⟨n, q, e, hq, rfl⟩ := exec_command_ends hi he h
  obtain ⟨hold, hpal⟩ := holds_at_issue hi hm
  obtain ⟨hin, hd⟩ := units_storeInside i hpal hold hq
  obtain ⟨pa, op, hs⟩ := settle_done_finish i (Running.fresh (commandWord i) s) (issue (commandWord i) s) q e
  rw [hs]
  refine ⟨q.cur, fun hc => ?_, fun a ha => (hin a ha).2⟩
  have hlt : q.cur.produced < 2 ^ 32 := Nat.lt_of_le_of_lt (hd hc) s.params.dstLen.isLt
  rw [finish_outCount, BitVec.toNat_ofNat, Nat.mod_eq_of_lt hlt]

/-- Settles O45: by the window of each command. -/
theorem commandsStoreOnlyInTheirWindows : Obligations.CommandsStoreOnlyInTheirWindows := by
  intro i s t a hi he hm h
  obtain ⟨c, hout, hin⟩ := exec_command_storesInside hi he hm h
  refine ⟨fun hc ha => hin a ?_, fun hc ha => hin a ?_, fun hcopy hrle hrow => hin a ?_⟩
  · rw [storeWindow_produced hc, hout hc]
    exact ha
  · subst hc
    rintro ⟨p, hp, hrow⟩
    exact ha p hp hrow
  · cases i with
    | copy => exact absurd rfl hcopy
    | rleDecode => exact absurd rfl hrle
    | transposeRow => exact absurd rfl hrow
    | _ => exact id

end Sys2Proof.Machine
end

-- PROOFS, part 9: the encodings
section
/-! SUPPORT. What the decoder gives for every word and control byte, and what a packet's control byte says of it
(30_encoding.md R80 to R98); the statements about both. -/

namespace Sys2Proof.Machine

/-! ## Command words (R80, R81, R85) -/

/-- The three fields make up the word (R80). -/
theorem toNat_eq_fields (w : Word) :
    w.toNat = 256 * (rsvdField w).toNat + 16 * (unitField w).toNat + (funcField w).toNat := by
  have hw := w.isLt
  simp only [rsvdField, unitField, funcField, BitVec.extractLsb'_toNat, Nat.shiftRight_eq_div_pow]
  omega

theorem mem_legalWords {w : Word} :
    w ∈ legalWords ↔ w.toNat = 0x00 ∨ w.toNat = 0x10 ∨ w.toNat = 0x11 ∨ w.toNat = 0x12 ∨ w.toNat = 0x13 ∨
      w.toNat = 0x20 ∨ w.toNat = 0x30 ∨ w.toNat = 0x31 := by
  simp [legalWords, ← BitVec.toNat_inj]

/-- A word that is none of the eight selects the illegal command (R85). -/
theorem decodeCommand_of_not_legal {w : Word} (h : w ∉ legalWords) : decodeCommand w = .illegal w := by
  have hf := toNat_eq_fields w
  rw [mem_legalWords] at h
  unfold decodeCommand
  split
  next hr =>
    have hr0 : (rsvdField w).toNat = 0 := congrArg BitVec.toNat hr
    split
    case h_9 => rfl
    all_goals omega
  next => rfl

/-- The eight legal words select their own commands (R81). -/
theorem decodeCommand_of_legal {w : Word} (h : w ∈ legalWords) :
    decodeCommand w ≠ .illegal w ∧ (decodeCommand w).wellFormed = true ∧ encode (decodeCommand w) = w.toNat := by
  simp only [legalWords, List.mem_cons, List.not_mem_nil, or_false] at h
  rcases h with rfl | rfl | rfl | rfl | rfl | rfl | rfl | rfl <;> exact ⟨by decide, rfl, rfl⟩

theorem decodeCommand_eq_illegal_iff {w : Word} : decodeCommand w = .illegal w ↔ w ∉ legalWords :=
  ⟨fun h hw => (decodeCommand_of_legal hw).1 h, decodeCommand_of_not_legal⟩

theorem wellFormed_illegal {w : Word} : (Instr.illegal w).wellFormed = true ↔ w ∉ legalWords := by
  simp [Instr.wellFormed]

/-! ## Control bytes (R90, R92) -/

theorem wellFormed_literal {c : Nat} : (Instr.literal c).wellFormed = true ↔ c ≤ 127 := by
  simp [Instr.wellFormed]

theorem wellFormed_repeatRun {c : Int} : (Instr.repeatRun c).wellFormed = true ↔ -127 ≤ c ∧ c ≤ -1 := by
  simp [Instr.wellFormed]

theorem decodeControl_literal {b : Byte} (h : b.toNat < 128) : decodeControl b = .literal b.toNat := by
  have hb : b.toInt = b.toNat := BitVec.toInt_eq_toNat_of_lt (by omega)
  simp [decodeControl, hb]

/-- `sext8(b)` of a byte with its top bit set (R90). -/
theorem toInt_of_ge {b : Byte} (h : 128 ≤ b.toNat) : b.toInt = (b.toNat : Int) - 256 := by
  rw [BitVec.toInt_eq_toNat_cond, if_neg (by omega)]
  rfl

theorem decodeControl_noop {b : Byte} (h : b.toNat = 128) : decodeControl b = .noop := by
  rw [decodeControl, toInt_of_ge (by omega), if_neg (by omega), if_neg (by omega)]

theorem decodeControl_repeatRun {b : Byte} (h : 128 < b.toNat) : decodeControl b = .repeatRun ((b.toNat : Int) - 256) := by
  have hb := b.isLt
  rw [decodeControl, toInt_of_ge (by omega), if_neg (by omega), if_pos (by omega)]

/-! ## Decoding and encoding -/

/-- The word of an illegal row or of a legal command decodes to it (R81, R83, R85). -/
theorem decodeCommand_encode {i : Instr} (hi : isCommand i) (hwf : i.wellFormed = true) :
    decodeCommand (BitVec.ofNat 32 (encode i)) = i := by
  by_cases hl : ∃ w, i = .illegal w
  · obtain ⟨w, rfl⟩ := hl
    rw [encode, BitVec.ofNat_toNat, BitVec.setWidth_eq]
    exact decodeCommand_of_not_legal (wellFormed_illegal.1 hwf)
  · exact decodeCommand_commandWord hi (not_exists.1 hl)

/-- The control byte of a literal packet (R90). -/
theorem decodeControl_encode_literal {c : Nat} (h : c ≤ 127) : decodeControl (BitVec.ofNat 8 c) = .literal c := by
  have hc : (BitVec.ofNat 8 c).toNat = c := Nat.mod_eq_of_lt (by omega)
  rw [decodeControl_literal (by omega), hc]

/-- The control byte of a repeat packet, `c mod 256` (R90, R98). -/
theorem decodeControl_encode_repeatRun {c : Int} (h : -127 ≤ c) (h' : c ≤ -1) :
    decodeControl (BitVec.ofNat 8 (256 + c).toNat) = .repeatRun c := by
  have hc : (BitVec.ofNat 8 (256 + c).toNat).toNat = (256 + c).toNat := Nat.mod_eq_of_lt (by omega)
  rw [decodeControl_repeatRun (by omega), hc]
  congr 1
  omega

theorem decodeTableWord_32 (n : Nat) : decodeTableWord 32 n = some (decodeCommand (BitVec.ofNat 32 n)) := rfl

theorem decodeTableWord_8 (n : Nat) : decodeTableWord 8 n = some (decodeControl (BitVec.ofNat 8 n)) := rfl

/-- Settles O3: a command word by its fields, a control byte by its class. -/
theorem encodeThenDecodeGivesTheInstruction : Obligations.EncodeThenDecodeGivesTheInstruction := by
  intro i hwf
  cases i with
  | literal c => exact congrArg some (decodeControl_encode_literal (wellFormed_literal.1 hwf))
  | noop => exact congrArg some (decodeControl_noop rfl)
  | repeatRun c =>
    obtain ⟨hlow, hhigh⟩ := wellFormed_repeatRun.1 hwf
    exact congrArg some (decodeControl_encode_repeatRun hlow hhigh)
  | _ => exact congrArg some (decodeCommand_encode rfl hwf)

/-- Settles O2: the words of R85 are those that are none of the eight of R81. -/
theorem illegalWordsAreThoseOfTheRule : Obligations.IllegalWordsAreThoseOfTheRule := by
  intro w
  rw [decodeCommand_eq_illegal_iff, mem_legalWords]
  omega

/-- Every word decodes to a well-formed command whose word it is (R83). -/
theorem encode_decodeCommand (w : Word) :
    (decodeCommand w).wellFormed = true ∧ encode (decodeCommand w) = w.toNat := by
  by_cases h : w ∈ legalWords
  · exact (decodeCommand_of_legal h).2
  · rw [decodeCommand_of_not_legal h]
    exact ⟨wellFormed_illegal.2 h, rfl⟩

/-- Every control byte decodes to a well-formed packet whose control byte it is (R92). -/
theorem encode_decodeControl (b : Byte) :
    (decodeControl b).wellFormed = true ∧ (decodeControl b).bits = 8 ∧ encode (decodeControl b) = b.toNat := by
  have hb := b.isLt
  rcases Nat.lt_trichotomy b.toNat 128 with h | h | h
  · rw [decodeControl_literal h]
    exact ⟨wellFormed_literal.2 (by omega), rfl, rfl⟩
  · rw [decodeControl_noop h]
    exact ⟨rfl, rfl, h.symm⟩
  · rw [decodeControl_repeatRun h]
    refine ⟨wellFormed_repeatRun.2 (by omega), rfl, ?_⟩
    show (256 + ((b.toNat : Int) - 256)).toNat = b.toNat
    omega

/-- Settles O4. -/
theorem decodeThenEncodeGivesTheWord : Obligations.DecodeThenEncodeGivesTheWord := by
  refine ⟨fun w => ?_, encode_decodeControl⟩
  obtain ⟨hwf, henc⟩ := encode_decodeCommand w
  exact ⟨hwf, decodeCommand_bits w, henc⟩

/-- Settles O1: nine closed words. -/
theorem writtenOutWordsDecode : Obligations.WrittenOutWordsDecode := by
  unfold Obligations.WrittenOutWordsDecode
  decide

/-! ## Packets (R90, R91) -/

theorem StreamItem.valid_lit {bytes : List Byte} :
    (StreamItem.lit bytes).valid = true ↔ 1 ≤ bytes.length ∧ bytes.length ≤ 128 := by
  simp [StreamItem.valid]

theorem StreamItem.valid_rep {n : Nat} {v : Byte} : (StreamItem.rep n v).valid = true ↔ 2 ≤ n ∧ n ≤ 128 := by
  simp [StreamItem.valid]

/-- A valid packet's control byte is the encoding of its instruction (R90). -/
theorem StreamItem.control_toNat {p : StreamItem} (h : p.valid = true) : (p.bytes.getD 0 0).toNat = encode p.instr := by
  refine Nat.mod_eq_of_lt ?_
  cases p with
  | lit bytes =>
    rw [valid_lit] at h
    exact Laws.EncodeFits.literal _ (wellFormed_literal.2 (by omega))
  | rep n v =>
    rw [valid_rep] at h
    exact Laws.EncodeFits.repeatRun _ (wellFormed_repeatRun.2 (by omega))
  | noop => decide

/-- The class of a valid packet and its lengths, from its control byte: below `0x80` it is a literal, above it a repeat (R90, R91). -/
theorem StreamItem.lengths_of_control {p : StreamItem} (h : p.valid = true) {b : Nat} (hb : (p.bytes.getD 0 0).toNat = b) :
    (b < 0x80 → p.output.length = b + 1 ∧ p.bytes.length = b + 2) ∧
    (0x80 < b → p.output.length = 257 - b ∧ p.bytes.length = 2) ∧
    (b = 0x80 → p.output = [] ∧ p.bytes.length = 1) := by
  rw [control_toNat h] at hb
  cases p with
  | lit bytes =>
    rw [valid_lit] at h
    replace hb : bytes.length - 1 = b := hb
    refine ⟨fun _ => ⟨?_, ?_⟩, fun _ => by omega, fun _ => by omega⟩
    · show bytes.length = b + 1
      omega
    · show bytes.length + 1 = b + 2
      omega
  | rep n v =>
    rw [valid_rep] at h
    replace hb : (256 + (1 - (n : Int))).toNat = b := hb
    refine ⟨fun _ => by omega, fun _ => ⟨?_, rfl⟩, fun _ => by omega⟩
    rw [output, List.length_replicate]
    omega
  | noop =>
    replace hb : 0x80 = b := hb
    exact ⟨fun _ => by omega, fun _ => by omega, fun _ => ⟨rfl, rfl⟩⟩

/-- Settles O5. -/
theorem packetLengthsFollowTheControlByte : Obligations.PacketLengthsFollowTheControlByte := by
  refine ⟨fun p hp => ?_, fun p hp => ?_, fun p hp => ?_⟩ <;>
    obtain ⟨hlit, hrep, hnoop⟩ := StreamItem.lengths_of_control hp rfl
  · exact hlit
  · exact hrep
  · exact hnoop

/-! ## `RUN n, v` (R98) -/

theorem expand_append (ps qs : List StreamItem) : expand (ps ++ qs) = expand ps ++ expand qs :=
  List.flatMap_append

/-- Equal repeat packets stand for one long run. -/
theorem expand_replicate_rep (k n : Nat) (v : Byte) :
    expand (List.replicate k (.rep n v)) = List.replicate (k * n) v := by
  rw [expand, List.flatMap_replicate]
  exact List.flatten_replicate_replicate

/-- `RUN n, v` is `n / 128` packets `REP 128, v` and one packet for what is left over. -/
theorem runItems_cases (n : Nat) (v : Byte) :
    ∃ last, runItems n v = List.replicate (n / 128) (.rep 128 v) ++ last ∧
      expand last = List.replicate (n % 128) v ∧ ∀ p ∈ last, p.valid = true := by
  refine ⟨_, rfl, ?_⟩
  split
  next h => simp [h, expand]
  next h =>
    split
    next h1 => simp [h1, expand, StreamItem.output, StreamItem.valid]
    next h1 =>
      have hvalid : (StreamItem.rep (n % 128) v).valid = true := StreamItem.valid_rep.2 (by omega)
      simp [expand, StreamItem.output, hvalid]

/-- Settles O6. -/
theorem runPseudoPacketExpands : Obligations.RunPseudoPacketExpands := by
  intro n v _
  obtain ⟨last, hrun, hexp, hval⟩ := runItems_cases n v
  rw [hrun]
  refine ⟨?_, fun p hp => ?_⟩
  · rw [expand_append, expand_replicate_rep, hexp, List.replicate_append_replicate, Nat.div_add_mod']
  · rcases List.mem_append.1 hp with hp | hp
    · rw [List.eq_of_mem_replicate hp]
      rfl
    · exact hval p hp

end Sys2Proof.Machine
end

-- PROOFS, part 10: the codec, access by access
section
/-! SUPPORT. What one access of a codec command can do, and how each packet begins (40_codec.md R110, R114 to R120, R125): the layer
under the statements about whole packets and whole commands. -/

namespace Sys2Proof.Machine

/-! ## The operands at issue (R110) -/

@[simp] theorem latch_params (w : Word) (s : State) : (latch w s).params = s.params := rfl
@[simp] theorem latch_srcBase (w : Word) (s : State) : (latch w s).srcBase = s.srcBase := rfl
@[simp] theorem latch_srcLen (w : Word) (s : State) : (latch w s).srcLen = s.srcLen := rfl
@[simp] theorem latch_dstBase (w : Word) (s : State) : (latch w s).dstBase = s.dstBase := rfl
@[simp] theorem latch_dstLen (w : Word) (s : State) : (latch w s).dstLen = s.dstLen := rfl

@[simp] theorem ctx_ops (r : Running) (s : State) : (r.ctx s).ops = r.ops := rfl

/-- What a command issued in `s` computes from: no byte is raced yet (R241). -/
abbrev issueCtx (w : Word) (s : State) : Ctx := ⟨latch w s, ⟨s.platform, [], []⟩⟩

/-! ## What is left of a run -/

/-- How many source bytes the run in progress still reads. -/
def Run.needs : Run → Nat
  | .none                  => 0
  | .copying more .none    => more + 1
  | .copying more (some _) => more
  | .fetching _            => 1
  | .filling _ _           => 0

/-- How many output bytes the run in progress still writes. -/
def Run.gives : Run → Nat
  | .none           => 0
  | .copying more _ => more + 1
  | .fetching more  => more + 1
  | .filling more _ => more + 1

@[simp] theorem needs_none : Run.needs .none = 0 := rfl
@[simp] theorem gives_none : Run.gives .none = 0 := rfl

/-- `run` reads its next source byte `b` and is `next b` after it (R114, R115, R120). -/
inductive Run.Reads : Run → (Byte → Run) → Prop
  | copy (n : Nat) : Run.Reads (.copying n .none) fun b => .copying n (some b)
  | fetch (n : Nat) : Run.Reads (.fetching n) fun b => .filling n b

/-- `run` writes the output byte `b` and is `next` after it (R114, R115, R120). -/
inductive Run.Writes : Run → Byte → Run → Prop
  | copy (n : Nat) (b : Byte) : Run.Writes (.copying n (some b)) b (Run.next (fun k => .copying k .none) n)
  | fill (n : Nat) (b : Byte) : Run.Writes (.filling n b) b (Run.next (fun k => .filling k b) n)

theorem Run.Reads.left {run : Run} {next : Byte → Run} (h : run.Reads next) (b : Byte) :
    (next b).needs + 1 = run.needs ∧ (next b).gives = run.gives := by
  cases h <;> exact ⟨rfl, rfl⟩

theorem Run.Writes.left {run next : Run} {b : Byte} (h : run.Writes b next) :
    next.needs = run.needs ∧ next.gives + 1 = run.gives := by
  cases h with
  | copy n b => cases n <;> exact ⟨rfl, rfl⟩
  | fill n b => cases n <;> exact ⟨rfl, rfl⟩

/-! ## One access -/

/-- A run in progress is about to read or about to write. -/
theorem Run.reads_or_writes {run : Run} (h : run ≠ .none) :
    (∃ next, run.Reads next) ∨ ∃ b next, run.Writes b next := by
  cases run with
  | none => exact absurd rfl h
  | copying n held =>
    cases held with
    | none => exact .inl ⟨_, .copy n⟩
    | some b => exact .inr ⟨b, _, .copy n b⟩
  | fetching n => exact .inl ⟨_, .fetch n⟩
  | filling n b => exact .inr ⟨b, _, .fill n b⟩

theorem runAccess_reads {x : Ctx} {p : Prog} {next : Byte → Run} (h : p.cur.run.Reads next) :
    runAccess x p = takeByte x.view (x.ops.srcBase + p.cur.consumed) p fun b q => .more (q.withRun (next b)) := by
  generalize hrun : p.cur.run = run at h
  cases h <;> simp only [runAccess, hrun]

theorem runAccess_writes {x : Ctx} {p : Prog} {b : Byte} {next : Run} (h : p.cur.run.Writes b next) :
    runAccess x p = putByte x.view (x.ops.dstBase + p.cur.produced) b (p.withRun next) := by
  generalize hrun : p.cur.run = run at h
  cases h <;> simp only [runAccess, hrun]

/-- The byte that the engine sees at its source cursor: the next control byte or data byte. -/
abbrev nextByte (x : Ctx) (p : Prog) : Byte := x.view.seen p.mem (x.ops.srcBase + p.cur.consumed)

theorem runAccess_read_ok {x : Ctx} {p : Prog} {next : Byte → Run} (h : p.cur.run.Reads next)
    (hb : busError x.view.platform .read (x.ops.srcBase + p.cur.consumed) = false) :
    runAccess x p = .more (p.took.withRun (next (nextByte x p))) := by
  rw [runAccess_reads h, takeByte, BusView.read_ok hb]

theorem runAccess_read_error {x : Ctx} {p : Prog} {next : Byte → Run} (h : p.cur.run.Reads next)
    (hb : busError x.view.platform .read (x.ops.srcBase + p.cur.consumed) = true) :
    runAccess x p = .done p (.busError (x.ops.srcBase + p.cur.consumed)) := by
  rw [runAccess_reads h, takeByte, BusView.read_error hb]

/-- A byte written without a bus error lands, or is lost to a host write of it (R241). -/
theorem runAccess_write_ok {x : Ctx} {p : Prog} {b : Byte} {next : Run} (h : p.cur.run.Writes b next)
    (hb : busError x.view.platform .write (x.ops.dstBase + p.cur.produced) = false) :
    runAccess x p = .more ((p.withRun next).stored
      (if x.view.shielded.contains (x.ops.dstBase + p.cur.produced) then p.mem
        else Memory.write p.mem (x.ops.dstBase + p.cur.produced) b)) := by
  simp [runAccess_writes h, putByte, BusView.write, hb]

theorem runAccess_write_error {x : Ctx} {p : Prog} {b : Byte} {next : Run} (h : p.cur.run.Writes b next)
    (hb : busError x.view.platform .write (x.ops.dstBase + p.cur.produced) = true) :
    runAccess x p = .done (p.withRun next) (.busError (x.ops.dstBase + p.cur.produced)) := by
  rw [runAccess_writes h, putByte, BusView.write_error hb]

/-! ## How a packet begins -/

/-- How many data bytes a packet has after its control byte (R114 to R116). -/
def packetData : Instr → Nat
  | .literal c   => c + 1
  | .repeatRun _ => 1
  | _            => 0

/-- How many output bytes a packet stands for (R114 to R116). -/
def packetOutput : Instr → Nat
  | .literal c   => c + 1
  | .repeatRun c => (1 - c).toNat
  | _            => 0

/-- The run that a packet of a decode begins (R114 to R116). -/
def packetRun : Instr → Run
  | .literal c   => .copying c .none
  | .repeatRun c => .fetching (-c).toNat
  | _            => .none

/-- The run of a well-formed packet moves its bytes. -/
theorem packetRun_left {i : Instr} (h : i.wellFormed = true) :
    (packetRun i).needs = packetData i ∧ (packetRun i).gives = packetOutput i := by
  cases i with
  | repeatRun c =>
    obtain ⟨-, hc⟩ := wellFormed_repeatRun.1 h
    refine ⟨rfl, ?_⟩
    show (-c).toNat + 1 = (1 - c).toNat
    omega
  | _ => exact ⟨rfl, rfl⟩

/-- A run that fits what is left passes its check (R118, R119). -/
theorem runCheck_fits {o : Operands} {n need : Nat} {c : Cursor} (hd : n ≤ o.dstLen - c.produced)
    (hs : need ≤ o.srcLen - c.consumed) : runCheck o n need c = none := by
  rw [runCheck, if_neg (by omega), if_neg (by omega)]

/-- Every packet begins in one way: the check of its run, then the run (decode) or the counting of it (skip) (R114 to R119). -/
theorem startPacket_eq (i : Instr) (write : Bool) (o : Operands) {p : Prog} (hr : p.cur.run = .none) :
    startPacket i write o p =
      match runCheck o (packetOutput i) (packetData i) p.cur with
      | some e => .done p (.failure e)
      | none   => .more (if write then p.withRun (packetRun i) else passOver (packetData i) (packetOutput i) p) := by
  have hrun : p.withRun .none = p := by
    rw [Prog.withRun, ← hr]
  have hnone : UnitResult.more p =
      match runCheck o 0 0 p.cur with
      | some e => .done p (.failure e)
      | none   => .more (if write then p.withRun .none else passOver 0 0 p) := by
    rw [runCheck_fits (Nat.zero_le _) (Nat.zero_le _), hrun]
    cases write <;> rfl
  cases i with
  | literal c =>
    show startLiteral c write o p = _
    rcases runCheck_cases o (c + 1) (c + 1) p.cur with ⟨-, hc⟩ | ⟨-, -, hc⟩ | ⟨-, -, hc⟩ <;>
      cases write <;> simp [startLiteral, packetOutput, packetData, packetRun, hc]
  | repeatRun c =>
    show startRepeat c write o p = _
    rcases runCheck_cases o (1 - c).toNat 1 p.cur with ⟨-, hc⟩ | ⟨-, -, hc⟩ | ⟨-, -, hc⟩ <;>
      cases write <;> simp [startRepeat, packetOutput, packetData, packetRun, hc]
  | _ => exact hnone

/-! ## One turn of a walk (R117), by what it meets -/

theorem walkTurn_run {write : Bool} {x : Ctx} {p : Prog} (hr : p.cur.run ≠ .none) : walkTurn write x p = runAccess x p := by
  rw [walkTurn, if_neg hr]

theorem walkTurn_full {write : Bool} {x : Ctx} {p : Prog} (hr : p.cur.run = .none) (hd : x.ops.dstLen ≤ p.cur.produced) :
    walkTurn write x p = .done p .success := by
  rw [walkTurn, if_pos hr, if_neg (by omega)]

theorem walkTurn_exhausted {write : Bool} {x : Ctx} {p : Prog} (hr : p.cur.run = .none) (hd : p.cur.produced < x.ops.dstLen)
    (hs : x.ops.srcLen ≤ p.cur.consumed) : walkTurn write x p = .done p (.failure .srcOverrun) := by
  rw [walkTurn, if_pos hr, if_pos hd, if_neg (by omega)]

theorem walkTurn_busError {write : Bool} {x : Ctx} {p : Prog} (hr : p.cur.run = .none) (hd : p.cur.produced < x.ops.dstLen)
    (hs : p.cur.consumed < x.ops.srcLen) (hb : busError x.view.platform .read (x.ops.srcBase + p.cur.consumed) = true) :
    walkTurn write x p = .done p (.busError (x.ops.srcBase + p.cur.consumed)) := by
  rw [walkTurn, if_pos hr, if_pos hd, if_pos hs, takeByte, BusView.read_error hb]

theorem walkTurn_packet {write : Bool} {x : Ctx} {p : Prog} (hr : p.cur.run = .none) (hd : p.cur.produced < x.ops.dstLen)
    (hs : p.cur.consumed < x.ops.srcLen) (hb : busError x.view.platform .read (x.ops.srcBase + p.cur.consumed) = false) :
    walkTurn write x p = startPacket (decodeControl (nextByte x p)) write x.ops p.took := by
  rw [walkTurn, if_pos hr, if_pos hd, if_pos hs, takeByte, BusView.read_ok hb]

/-! ## What a completion leaves (R203, R204) -/

/-- A completion of a running command that writes no parameter register and no palette. -/
theorem completed_finish (e : Ending) (c : Cursor) (s : State) (m : Memory) :
    completed s.cmd e.code (e.faultAddr s.faultAddr) c.consumed c.produced s (finish e c { s with mem := m }) :=
  ⟨rfl, rfl, rfl, rfl, rfl, rfl, rfl, rfl, rfl, rfl, rfl, rfl, rfl, rfl⟩

/-- A completion of a command that was issued in `s`. -/
theorem completed_issue (w : Word) (e : Ending) {c : Cursor} {a b : Nat} (ha : c.consumed = a) (hb : c.produced = b) (s : State)
    (m : Memory) (pa : Params) :
    completed w e.code (e.faultAddr s.faultAddr) a b s (finish e c { issue w s with mem := m, params := pa }) := by
  subst ha hb
  exact ⟨rfl, rfl, rfl, rfl, rfl, rfl, rfl, rfl, rfl, rfl, rfl, rfl, rfl, rfl⟩

/-- Only a success runs `onSuccess`. -/
theorem settle_of_ne_success (f : Operands → Cursor → State → State) (r : Running) (s : State) (p : Prog) {e : Ending}
    (he : e ≠ .success) : settle f r s (.done p e) = finish e p.cur { s with mem := p.mem } := by
  cases e with
  | success => exact absurd rfl he
  | failure e => rfl
  | busError a => rfl

/-- A command stopped by its checks (R204). -/
theorem exec_fails_at_once {i : Instr} {s : State} {e : CheckError} (hi : isCommand i) (ha : i ≠ .animate ∧ i ≠ .animateBlend)
    (hs : s.engine = .idle) (he : (commandOf i).check (latch (commandWord i) s) = some e) :
    ∃ t, exec i s = .next t ∧ failsAtOnce (commandWord i) e.code s t := by
  refine ⟨_, exec_command hi s (.inr ha), ?_⟩
  rw [Command.run_fails hs he]
  exact ⟨completed_issue (commandWord i) (.failure e) rfl rfl s s.mem s.params, rfl, rfl, fun _ => rfl⟩

end Sys2Proof.Machine
end

-- PROOFS, part 11: the statements about packets
section
/-! The statements about single packets in a walk (40_codec.md R114 to R119, R125), each from the way a packet begins and, for a
decode, the law of its whole run. -/

namespace Sys2Proof.Machine

/-! ## A packet in a walk -/

theorem walking_of_ready {s : State} {r : Running} {write : Bool} (h : walkReady s r write) : walking s = some (r, write) := by
  obtain ⟨he, hw, hs, hr, hd, hc, -⟩ := h
  exact walking_eq_some he hw hs hr hd hc

/-- The three packets are executed by starting them (R117). -/
theorem exec_packet {i : Instr} (hi : i.bits = 8) (s : State) : exec i s = execPacket (startPacket i) s := by
  cases i with
  | literal c => rfl
  | noop => rfl
  | repeatRun c => rfl
  | _ => cases hi

theorem finishRun_none {x : Ctx} {p : Prog} (h : p.cur.run = .none) : finishRun x (.more p) = .more p := by
  rw [finishRun, h]
  rfl

/-- A command in a walk whose control byte has been consumed. -/
abbrev afterControl (s : State) (r : Running) : Prog := Prog.took ⟨s.mem, r.cur⟩

/-- A packet whose run passes its check goes on with its run, or has counted it (R114 to R116). -/
theorem exec_packet_begins {i : Instr} (hi : i.bits = 8) {s : State} {r : Running} {write : Bool} (h : walkReady s r write)
    (hd : packetOutput i ≤ r.ops.dstLen - r.cur.produced) (hs : packetData i ≤ r.ops.srcLen - (r.cur.consumed + 1)) :
    exec i s = .next (settle keepRegisters r s (finishRun (r.ctx s)
      (.more (if write then (afterControl s r).withRun (packetRun i)
        else passOver (packetData i) (packetOutput i) (afterControl s r))))) := by
  obtain ⟨-, -, -, hr, -⟩ := id h
  have hc : runCheck r.ops (packetOutput i) (packetData i) (afterControl s r).cur = none := runCheck_fits hd hs
  rw [exec_packet hi, execPacket_walking (walking_of_ready h), startPacket_eq i write r.ops (p := afterControl s r) hr, hc]

/-- A packet that has left its walk between two packets has moved memory and the two cursors. -/
theorem walksOn_between {s : State} {r : Running} (hr : r.cur.run = .none) (a b : Nat) (m : Memory) :
    walksOn s r a b m { s with
      mem := m
      engine := .busy { r with cur := { r.cur with consumed := a, produced := b, run := .none } } } := by
  rw [walksOn, ← hr]

/-- A packet that skips moves the cursors and nothing else (R114 to R116). -/
theorem exec_packet_skips {i : Instr} (hi : i.bits = 8) {s : State} {r : Running} (h : walkReady s r false)
    (hd : packetOutput i ≤ r.ops.dstLen - r.cur.produced) (hs : packetData i ≤ r.ops.srcLen - (r.cur.consumed + 1)) :
    ∃ t, exec i s = .next t ∧
      walksOn s r (r.cur.consumed + 1 + packetData i) (r.cur.produced + packetOutput i) s.mem t := by
  obtain ⟨-, -, -, hr, -⟩ := id h
  refine ⟨_, exec_packet_begins hi h hd hs, ?_⟩
  rw [if_neg Bool.false_ne_true, finishRun_none hr]
  rfl

/-- A packet whose run fails its check ends the command there: the control byte is counted, and nothing has moved (R118, R119). -/
theorem exec_packet_fails {i : Instr} (hi : i.bits = 8) {s : State} {r : Running} {write : Bool} (h : walkReady s r write)
    {e : CheckError} (he : runCheck r.ops (packetOutput i) (packetData i) (afterControl s r).cur = some e) :
    ∃ t, exec i s = .next t ∧
      completed s.cmd e.code s.faultAddr (r.cur.consumed + 1) r.cur.produced s t ∧
      t.params = s.params ∧ t.outPal = s.outPal ∧ t.mem = s.mem := by
  obtain ⟨-, -, -, hr, -⟩ := id h
  refine ⟨finish (.failure e) (afterControl s r).cur s, ?_, completed_finish (.failure e) (afterControl s r).cur s s.mem,
    rfl, rfl, rfl⟩
  rw [exec_packet hi, execPacket_walking (walking_of_ready h), startPacket_eq i write r.ops (p := afterControl s r) hr, he]
  rfl

/-! ## The statements -/

/-- Settles O29. -/
theorem packetOutsideAWalkFaults : Obligations.PacketOutsideAWalkFaults := by
  intro s h
  have hpacket : ∀ i : Instr, i.bits = 8 → exec i s = .fault .packetOutsideWalk := fun i hi => by
    rw [exec_packet hi, execPacket_elsewhere h]
  exact ⟨fun c => hpacket _ rfl, fun c => hpacket _ rfl, hpacket _ rfl⟩

/-- Settles O11: without a raced byte the fetched packet is that of the byte in memory. -/
theorem stepRunsTheFetchedPacket : Obligations.StepRunsTheFetchedPacket := by
  intro s r write es h hin hb
  obtain ⟨he, hw, hs, hr, hd, hc, hstale, -⟩ := h
  have hfetch : fetchPacket { s with inputs := es } =
      some (decodeControl (Memory.read s.mem (r.ops.srcBase + r.cur.consumed))) := by
    rw [fetchPacket, walking_eq_some (s := { s with inputs := es }) he hw hs hr hd hc]
    show Option.map decodeControl (BusView.read ⟨s.platform, r.stale, r.shielded⟩ s.mem _) = _
    rw [BusView.read_ok hb, hstale]
    rfl
  rw [step, hin]
  show packetStep _ = _
  rw [packetStep, hfetch]

/-- Settles O26: in both modes a `NOOP` passes its check and begins no run. -/
theorem noopPacketConsumesOneByte : Obligations.NoopPacketConsumesOneByte := by
  intro s r write h
  obtain ⟨-, -, -, hr, -⟩ := id h
  cases write with
  | false => exact exec_packet_skips rfl h (Nat.zero_le _) (Nat.zero_le _)
  | true =>
    refine ⟨_, exec_packet_begins rfl h (Nat.zero_le _) (Nat.zero_le _), ?_⟩
    rw [if_pos rfl, finishRun_none rfl]
    exact walksOn_between hr ..

/-- Settles O24: skip has counted the run, decode copies it by the law of a whole copying run. -/
theorem literalPacketCopiesItsBytes : Obligations.LiteralPacketCopiesItsBytes := by
  intro s r write c h hd hs hbus
  cases write with
  | false =>
    obtain ⟨t, ht, hon⟩ := exec_packet_skips (i := .literal c) rfl h hd hs
    exact ⟨t, s.mem, ht, hon, fun a => by simp⟩
  | true =>
    obtain ⟨-, -, -, hr, -, -, hstale, hshield, hm⟩ := id h
    obtain ⟨hread, hwrite, hdis⟩ := hbus rfl
    obtain ⟨m, hrun, -, hmem⟩ := copying_plain (x := r.ctx s) (p := (afterControl s r).withRun (.copying c .none))
      hstale hshield rfl (Memory.rising_of_wf hm) hread hwrite (fun i j hi hj => by
        show r.ops.srcBase + (r.cur.consumed + 1) + i ≠ r.ops.dstBase + r.cur.produced + j
        omega)
    refine ⟨_, m, exec_packet_begins (i := .literal c) rfl h hd hs, ?_, fun a => ?_⟩
    · rw [if_pos rfl, show packetRun (.literal c) = .copying c .none from rfl, hrun]
      exact walksOn_between hr ..
    · simpa [Nat.add_assoc] using hmem a

/-- A repeat reads its data byte, then fills its run with it (R115). -/
theorem fetching_plain {x : Ctx} (hs : x.view.stale = []) (hh : x.view.shielded = []) {n : Nat} {p : Prog}
    (hrun : p.cur.run = .fetching n) (hm : Memory.rising 0 p.mem = true)
    (hr : busError x.view.platform .read (x.ops.srcBase + p.cur.consumed) = false)
    (hw : ∀ j, j < n + 1 → busError x.view.platform .write (x.ops.dstBase + p.cur.produced + j) = false) :
    ∃ m, finishRun x (.more p) =
        .more ⟨m, { p.cur with
          consumed := p.cur.consumed + 1, produced := p.cur.produced + (n + 1), run := .none }⟩ ∧
      ∀ a, Memory.read m a =
        if x.ops.dstBase + p.cur.produced ≤ a ∧ a < x.ops.dstBase + p.cur.produced + (n + 1) then
          Memory.read p.mem (x.ops.srcBase + p.cur.consumed)
        else Memory.read p.mem a := by
  have hbyte : nextByte x p = Memory.read p.mem (x.ops.srcBase + p.cur.consumed) := by
    simp [nextByte, BusView.seen, hs]
  have hone : runAccess x p =
      .more (p.took.withRun (.filling n (Memory.read p.mem (x.ops.srcBase + p.cur.consumed)))) :=
    hbyte ▸ runAccess_read_ok (hrun ▸ .fetch n) hr
  obtain ⟨m, hfill, -, hmem⟩ := filling_plain (x := x)
    (p := p.took.withRun (.filling n (Memory.read p.mem (x.ops.srcBase + p.cur.consumed)))) hh rfl hm hw
  refine ⟨m, ?_, hmem⟩
  rw [finishRun, hrun, accesses_fetching, iterate_succ_more hone]
  exact hfill

/-- Settles O25: skip has counted the run, decode reads its byte and fills the run with it. -/
theorem repeatPacketFillsItsRun : Obligations.RepeatPacketFillsItsRun := by
  intro s r write c h _ hc hd hs hbus
  cases write with
  | false =>
    obtain ⟨t, ht, hon⟩ := exec_packet_skips (i := .repeatRun c) rfl h hd hs
    exact ⟨t, s.mem, ht, hon, fun a => by simp⟩
  | true =>
    obtain ⟨-, -, -, hr, -, -, hstale, hshield, hm⟩ := id h
    obtain ⟨hread, hwrite⟩ := hbus rfl
    have hn : (1 - c).toNat = (-c).toNat + 1 := by omega
    rw [hn] at hwrite ⊢
    obtain ⟨m, hrun, hmem⟩ := fetching_plain (x := r.ctx s) (p := (afterControl s r).withRun (.fetching (-c).toNat))
      hstale hshield rfl (Memory.rising_of_wf hm) hread hwrite
    refine ⟨_, m, exec_packet_begins (i := .repeatRun c) rfl h hd hs, ?_, fun a => ?_⟩
    · rw [if_pos rfl, show packetRun (.repeatRun c) = .fetching (-c).toNat from rfl, hrun]
      exact walksOn_between hr ..
    · simpa [Nat.add_assoc] using hmem a

theorem runCheck_overshoot {o : Operands} {n need : Nat} {c : Cursor} (h : o.dstLen - c.produced < n) :
    runCheck o n need c = some .overshoot := by
  rw [runCheck, if_pos h]

/-- Settles O27. -/
theorem overshootEndsTheCommand : Obligations.OvershootEndsTheCommand :=
  fun _ _ _ h =>
    ⟨fun c hd => exec_packet_fails (i := .literal c) rfl h (runCheck_overshoot hd),
      fun c _ _ hd => exec_packet_fails (i := .repeatRun c) rfl h (runCheck_overshoot hd)⟩

/-! ## Where a turn ends the command -/

/-- A walk whose next turn ends it is ended by every grant (R247). -/
theorem engineStep_walk_ends {s : State} {r : Running} {write : Bool} (he : s.engine = .busy r) (hw : walkOf r = some write)
    (hs : r.cur.started = true) {p : Prog} {e : Ending} (ht : walkTurn write (r.ctx s) ⟨s.mem, r.cur⟩ = .done p e) (g : Grant) :
    engineStep g s = .next (settle (commandOf (decodeCommand r.word)).onSuccess r s (.done p e)) := by
  have hu : (commandOf (decodeCommand r.word)).unit (r.ctx s) ⟨s.mem, r.cur⟩ = .done p e := by
    rw [Command.unit_started hs, walkOf_work hw, ht]
  have hg : 1 ≤ grantedUnits g r s := by
    cases g with
    | access => exact Nat.le_refl 1
    | packet =>
      show 1 ≤ packetUnits r s
      unfold packetUnits
      split <;> omega
    | all =>
      show 1 ≤ _ + 2
      omega
  rw [engineStep_busy he, unlessUnwritten, readsUnwritten_of_other he (walkOf_not_animator hw), Command.move,
    iterate_done_le ((iterate_one _ _).trans hu) hg]
  rfl

/-- A walk that a check or a bus error stops where it is has changed nothing (R119, R125). -/
theorem engineStep_walk_fails {s : State} {r : Running} {write : Bool} (he : s.engine = .busy r) (hw : walkOf r = some write)
    (hs : r.cur.started = true) {e : Ending} (hne : e ≠ .success)
    (ht : walkTurn write (r.ctx s) ⟨s.mem, r.cur⟩ = .done ⟨s.mem, r.cur⟩ e) (g : Grant) :
    ∃ t, engineStep g s = .next t ∧
      completed s.cmd e.code (e.faultAddr s.faultAddr) r.cur.consumed r.cur.produced s t ∧
      t.params = s.params ∧ t.outPal = s.outPal ∧ t.mem = s.mem := by
  refine ⟨_, engineStep_walk_ends he hw hs ht g, ?_⟩
  rw [settle_of_ne_success _ _ _ _ hne]
  exact ⟨completed_finish e r.cur s s.mem, rfl, rfl, rfl⟩

/-- The check of a run that finds the source exhausted: overshoot comes first (R119). -/
theorem runCheck_exhausted {o : Operands} {n need : Nat} {c : Cursor} (h : o.srcLen - c.consumed < need) :
    ∃ e : CheckError, runCheck o n need c = some e ∧ e.code = if o.dstLen - c.produced < n then 0x06 else 0x05 := by
  rcases runCheck_cases o n need c with ⟨hd, hc⟩ | ⟨hd, -, hc⟩ | ⟨-, hs, -⟩
  · exact ⟨_, hc, by rw [if_pos hd]; rfl⟩
  · exact ⟨_, hc, by rw [if_neg (by omega)]; rfl⟩
  · omega

/-- Settles O28. -/
theorem exhaustedSourceEndsTheCommand : Obligations.ExhaustedSourceEndsTheCommand := by
  intro s r write
  refine ⟨fun h => ⟨fun c hs => ?_, fun c _ _ hs => ?_⟩, fun he hw hstart hr hd hs g => ?_⟩
  · obtain ⟨e, hc, hcode⟩ := runCheck_exhausted (c := (afterControl s r).cur) (n := c + 1) hs
    exact hcode ▸ exec_packet_fails (i := .literal c) rfl h hc
  · obtain ⟨e, hc, hcode⟩ := runCheck_exhausted (c := (afterControl s r).cur) (n := (1 - c).toNat) hs
    exact hcode ▸ exec_packet_fails (i := .repeatRun c) rfl h hc
  · exact engineStep_walk_fails he hw hstart (e := .failure .srcOverrun) (fun h => by cases h)
      (walkTurn_exhausted hr hd (Nat.le_of_eq hs.symm)) g

end Sys2Proof.Machine
end

-- PROOFS, part 12: the statements about the checks of the codec
section
/-! The pre-checks of the four codec commands in their order, and `SKIP`, which is nothing else (40_codec.md R112, R120 to R124,
60_exceptions.md R202). -/

namespace Sys2Proof.Machine

theorem lengthCheck_srcOverrun {o : Operands} (h : o.srcLen < o.dstLen) : lengthCheck o = some .srcOverrun := by
  rw [lengthCheck, if_pos h]

/-- The windows of `COPY` and `RLE_DECODE` pass their pre-checks (R112). -/
theorem moveCheck_pass {o : Operands} (h1 : o.srcBase + o.srcLen ≤ 2 ^ 32) (h2 : o.dstBase + o.dstLen ≤ 2 ^ 32)
    (h : disjointWindows o.srcBase o.srcLen o.dstBase o.dstLen) : moveCheck o = none :=
  (moveCheck_none_iff o).2 ⟨h1, h2, h⟩

/-- Settles O18. -/
theorem copyChecksInOrder : Obligations.CopyChecksInOrder := by
  intro s he
  have hfail : ∀ e, (moveCheck (latch (commandWord .copy) s)).or (lengthCheck (latch (commandWord .copy) s)) = some e →
      ∃ t, exec .copy s = .next t ∧ failsAtOnce 0x00000010 e.code s t :=
    fun e hc => exec_fails_at_once (i := .copy) rfl (by decide) he hc
  refine ⟨fun h => hfail .addr ?_, fun h1 h2 hn hm hlt hlt' => hfail .overlap ?_, fun h1 h2 hdis hlen => hfail .srcOverrun ?_⟩
  · rw [moveCheck_addr (o := latch (commandWord .copy) s) h]
    rfl
  · rw [moveCheck_overlap (o := latch (commandWord .copy) s) h1 h2 ((windowsShare_iff ..).2 ⟨hn, hm, hlt, hlt'⟩)]
    rfl
  · rw [moveCheck_pass (o := latch (commandWord .copy) s) h1 h2 hdis, Option.none_or]
    exact lengthCheck_srcOverrun hlen

/-- Settles O19. -/
theorem walkChecksInOrder : Obligations.WalkChecksInOrder := by
  intro s he
  exact ⟨fun h => exec_fails_at_once (i := .rleDecode) rfl (by decide) he (moveCheck_addr h),
    fun h1 h2 hn hm hlt hlt' => exec_fails_at_once (i := .rleDecode) rfl (by decide) he
      (moveCheck_overlap h1 h2 ((windowsShare_iff ..).2 ⟨hn, hm, hlt, hlt'⟩)),
    fun h => exec_fails_at_once (i := .rleSkip) rfl (by decide) he (skipCheck_addr h)⟩

/-- Where the one unit of work of a `SKIP` leaves the cursors (R122). -/
abbrev afterSkip (s : State) : Cursor := { Cursor.fresh with started := true, consumed := s.dstLen, produced := s.dstLen }

/-- A `SKIP` that passes its checks ends with its first unit of work (R122). -/
theorem exec_skip_works {s : State} (he : s.engine = .idle) (hc : skipCommand.check (latch (commandWord .skip) s) = none) :
    exec .skip s = .next (finish .success (afterSkip s)
      (advanceSource (latch (commandWord .skip) s) (afterSkip s) (issue (commandWord .skip) s))) := by
  show Host.Outcome.next _ = _
  rw [Command.run_works he hc]
  have hu : skipCommand.unit ((Running.fresh (commandWord .skip) s).ctx (issue (commandWord .skip) s))
      ⟨s.mem, { Cursor.fresh with started := true }⟩ =
      .done ⟨s.mem, afterSkip s⟩ .success :=
    Command.unit_started rfl
  exact congrArg (fun u => Host.Outcome.next (settle _ _ _ u)) (iterate_succ_done hu 0)

/-- Settles O20. -/
theorem skipCountsWithoutAccess : Obligations.SkipCountsWithoutAccess := by
  intro s he
  have hpass : ∀ h : s.srcBase + s.srcLen ≤ 2 ^ 32, skipCommand.check (latch (commandWord .skip) s) =
      lengthCheck (latch (commandWord .skip) s) := fun h => by
    show (skipCheck _).or _ = _
    rw [(skipCheck_none_iff (latch (commandWord .skip) s)).2 h, Option.none_or]
  refine ⟨fun h => ?_, fun h hlen => ?_, fun h hlen => ?_⟩
  · refine exec_fails_at_once (i := .skip) (e := .addr) rfl (by decide) he ?_
    show (skipCheck _).or _ = _
    rw [skipCheck_addr (o := latch (commandWord .skip) s) h]
    rfl
  · exact exec_fails_at_once (i := .skip) rfl (by decide) he ((hpass h).trans (lengthCheck_srcOverrun hlen))
  · refine ⟨_, exec_skip_works he ((hpass h).trans ((lengthCheck_none_iff _).2 hlen)),
      completed_issue _ .success rfl rfl s s.mem _, ?_, rfl, fun _ => rfl⟩
    simp

end Sys2Proof.Machine
end

-- PROOFS, part 13: the turns of the codec
section
/-! SUPPORT. Everything a turn of a walk or of `COPY` can do, the limits it keeps (40_codec.md R111, R117 to R120, R125), and the
last turn of a whole command. -/

namespace Sys2Proof.Machine

/-! ## Turns, said once -/

/-- Everything an access of a run that leaves more to do can be. -/
theorem runAccess_more_cases {x : Ctx} {p q : Prog} (hr : p.cur.run ≠ .none) (h : runAccess x p = .more q) :
    (∃ next, p.cur.run.Reads next ∧ busError x.view.platform .read (x.ops.srcBase + p.cur.consumed) = false ∧
      q = p.took.withRun (next (nextByte x p))) ∨
    (∃ b next, p.cur.run.Writes b next ∧ busError x.view.platform .write (x.ops.dstBase + p.cur.produced) = false ∧
      q = (p.withRun next).stored (if x.view.shielded.contains (x.ops.dstBase + p.cur.produced) then p.mem
        else Memory.write p.mem (x.ops.dstBase + p.cur.produced) b)) := by
  rcases Run.reads_or_writes hr with ⟨next, hrun⟩ | ⟨b, next, hrun⟩
  · cases hb : busError x.view.platform .read (x.ops.srcBase + p.cur.consumed) with
    | true =>
      rw [runAccess_read_error hrun hb] at h
      cases h
    | false =>
      rw [runAccess_read_ok hrun hb] at h
      cases h
      exact .inl ⟨next, hrun, rfl, rfl⟩
  · cases hb : busError x.view.platform .write (x.ops.dstBase + p.cur.produced) with
    | true =>
      rw [runAccess_write_error hrun hb] at h
      cases h
    | false =>
      rw [runAccess_write_ok hrun hb] at h
      cases h
      exact .inr ⟨b, next, hrun, rfl, rfl⟩

/-- Everything a turn of a walk that leaves more to do can be: an access of its run, or the begin of the packet that its next byte
selects. -/
theorem walkTurn_more_cases {write : Bool} {x : Ctx} {p q : Prog} (h : walkTurn write x p = .more q) :
    (p.cur.run ≠ .none ∧ runAccess x p = .more q) ∨
    (p.cur.run = .none ∧ p.cur.produced < x.ops.dstLen ∧ p.cur.consumed < x.ops.srcLen ∧
      busError x.view.platform .read (x.ops.srcBase + p.cur.consumed) = false ∧
      packetOutput (decodeControl (nextByte x p)) ≤ x.ops.dstLen - p.cur.produced ∧
      packetData (decodeControl (nextByte x p)) ≤ x.ops.srcLen - (p.cur.consumed + 1) ∧
      q = if write then p.took.withRun (packetRun (decodeControl (nextByte x p)))
        else passOver (packetData (decodeControl (nextByte x p))) (packetOutput (decodeControl (nextByte x p))) p.took) := by
  rcases walkTurn_more h with hrun | ⟨hr, hd, hs, hb, hq⟩
  · exact .inl hrun
  · rw [startPacket_eq _ write x.ops (p := p.took) hr] at hq
    rcases runCheck_cases x.ops (packetOutput (decodeControl (nextByte x p))) (packetData (decodeControl (nextByte x p)))
      p.took.cur with ⟨-, hc⟩ | ⟨-, -, hc⟩ | ⟨hn, hn', hc⟩ <;> rw [hc] at hq <;> cases hq
    exact .inr ⟨hr, hd, hs, hb, hn, hn', rfl⟩

/-- A bus error stops a run at the access that the cursors `c` are at (R125). -/
def BusAt (x : Ctx) (c : Cursor) (e : Ending) : Prop :=
  (busError x.view.platform .read (x.ops.srcBase + c.consumed) = true ∧ e = .busError (x.ops.srcBase + c.consumed) ∧
    ∃ next, c.run.Reads next) ∨
  (busError x.view.platform .write (x.ops.dstBase + c.produced) = true ∧ e = .busError (x.ops.dstBase + c.produced) ∧
    ∃ b next, c.run.Writes b next)

/-- A run ends its command by a bus error alone, which is not counted (R125). -/
theorem runAccess_done_cases {x : Ctx} {p q : Prog} {e : Ending} (h : runAccess x p = .done q e) :
    (∃ run, q = p.withRun run) ∧ BusAt x p.cur e := by
  have hr : p.cur.run ≠ .none := fun hn => by
    rw [runAccess, hn] at h
    cases h
  rcases Run.reads_or_writes hr with ⟨next, hrun⟩ | ⟨b, next, hrun⟩
  · cases hb : busError x.view.platform .read (x.ops.srcBase + p.cur.consumed) with
    | true =>
      rw [runAccess_read_error hrun hb] at h
      cases h
      exact ⟨⟨p.cur.run, rfl⟩, .inl ⟨hb, rfl, next, hrun⟩⟩
    | false =>
      rw [runAccess_read_ok hrun hb] at h
      cases h
  · cases hb : busError x.view.platform .write (x.ops.dstBase + p.cur.produced) with
    | true =>
      rw [runAccess_write_error hrun hb] at h
      cases h
      exact ⟨⟨next, rfl⟩, .inr ⟨hb, rfl, b, next, hrun⟩⟩
    | false =>
      rw [runAccess_write_ok hrun hb] at h
      cases h

/-- Everything a turn of a walk between two packets can end the command with (R113, R118, R119, R125). -/
theorem walkTurn_done_cases {write : Bool} {x : Ctx} {p q : Prog} {e : Ending} (hr : p.cur.run = .none)
    (h : walkTurn write x p = .done q e) :
    (x.ops.dstLen ≤ p.cur.produced ∧ q = p ∧ e = .success) ∨
    (p.cur.produced < x.ops.dstLen ∧ x.ops.srcLen ≤ p.cur.consumed ∧ q = p ∧ e = .failure .srcOverrun) ∨
    (p.cur.produced < x.ops.dstLen ∧ p.cur.consumed < x.ops.srcLen ∧
      busError x.view.platform .read (x.ops.srcBase + p.cur.consumed) = true ∧ q = p ∧
      e = .busError (x.ops.srcBase + p.cur.consumed)) ∨
    (p.cur.produced < x.ops.dstLen ∧ p.cur.consumed < x.ops.srcLen ∧
      busError x.view.platform .read (x.ops.srcBase + p.cur.consumed) = false ∧ q = p.took ∧
      ∃ c, e = .failure c ∧ runCheck x.ops (packetOutput (decodeControl (nextByte x p)))
        (packetData (decodeControl (nextByte x p))) p.took.cur = some c) := by
  by_cases hd : p.cur.produced < x.ops.dstLen
  · by_cases hs : p.cur.consumed < x.ops.srcLen
    · cases hb : busError x.view.platform .read (x.ops.srcBase + p.cur.consumed) with
      | true =>
        rw [walkTurn_busError hr hd hs hb] at h
        cases h
        exact .inr (.inr (.inl ⟨hd, hs, rfl, rfl, rfl⟩))
      | false =>
        rw [walkTurn_packet hr hd hs hb, startPacket_eq _ write x.ops (p := p.took) hr] at h
        cases hc : runCheck x.ops (packetOutput (decodeControl (nextByte x p))) (packetData (decodeControl (nextByte x p)))
          p.took.cur with
        | none =>
          rw [hc] at h
          cases h
        | some c =>
          rw [hc] at h
          cases h
          exact .inr (.inr (.inr ⟨hd, hs, rfl, rfl, c, rfl, rfl⟩))
    · rw [walkTurn_exhausted hr hd (by omega)] at h
      cases h
      exact .inr (.inl ⟨hd, by omega, rfl, rfl⟩)
  · rw [walkTurn_full hr (by omega)] at h
    cases h
    exact .inl ⟨by omega, rfl, rfl⟩

/-! ## The windows are kept (R111, R118, R120) -/

/-- What has been moved, and what the run in progress will still move, lies inside the windows. -/
def Fits (o : Operands) (c : Cursor) : Prop :=
  c.consumed + c.run.needs ≤ o.srcLen ∧ c.produced + c.run.gives ≤ o.dstLen

/-- An access moves a byte that its run had to move: where the run will end stays where it is. -/
theorem runAccess_reach {x : Ctx} {p q : Prog} (hr : p.cur.run ≠ .none) (h : runAccess x p = .more q) :
    q.cur.consumed + q.cur.run.needs = p.cur.consumed + p.cur.run.needs ∧
    q.cur.produced + q.cur.run.gives = p.cur.produced + p.cur.run.gives := by
  rcases runAccess_more_cases hr h with ⟨next, hrun, -, rfl⟩ | ⟨b, next, hrun, -, rfl⟩
  · obtain ⟨hneed, hgive⟩ := hrun.left (nextByte x p)
    simp only [withRun_consumed, took_consumed, withRun_run, withRun_produced, took_produced]
    omega
  · obtain ⟨hneed, hgive⟩ := hrun.left
    simp only [stored_consumed, withRun_consumed, stored_run, withRun_run, stored_produced, withRun_produced]
    omega

theorem decodeControl_wellFormed (b : Byte) : (decodeControl b).wellFormed = true := (encode_decodeControl b).1

/-- A packet that begins: where its run will end, decoding or skipping. -/
theorem packet_reach {write : Bool} {p q : Prog} (hr : p.cur.run = .none) (b : Byte)
    (hq : q = if write then p.took.withRun (packetRun (decodeControl b))
      else passOver (packetData (decodeControl b)) (packetOutput (decodeControl b)) p.took) :
    q.cur.consumed + q.cur.run.needs = p.cur.consumed + 1 + packetData (decodeControl b) ∧
    q.cur.produced + q.cur.run.gives = p.cur.produced + packetOutput (decodeControl b) := by
  obtain ⟨hneed, hgive⟩ := packetRun_left (decodeControl_wellFormed b)
  cases write <;> subst hq
  · simp [hr]
  · simp [hneed, hgive]

theorem walkTurn_keeps_fits {write : Bool} {x : Ctx} {p q : Prog} (hf : Fits x.ops p.cur) (h : walkTurn write x p = .more q) :
    Fits x.ops q.cur := by
  obtain ⟨hs, hd⟩ := hf
  rcases walkTurn_more_cases h with ⟨hr, h⟩ | ⟨hr, hd', hs', -, hout, hdata, hq⟩
  · obtain ⟨hs', hd'⟩ := runAccess_reach hr h
    exact ⟨by omega, by omega⟩
  · obtain ⟨hs'', hd''⟩ := packet_reach hr _ hq
    exact ⟨by omega, by omega⟩

/-- `RLE_SKIP` never is inside a run (R123). -/
theorem walkTurn_skip_between {x : Ctx} {p q : Prog} (hr : p.cur.run = .none) (h : walkTurn false x p = .more q) :
    q.cur.run = .none := by
  rcases walkTurn_more_cases h with ⟨hr', -⟩ | ⟨-, -, -, -, -, -, rfl⟩
  · exact absurd hr hr'
  · exact hr

/-! ## No counted access has met a bus error (R125) -/

/-- The accesses that the cursors count met no bus error. -/
def Clean (x : Ctx) (c : Cursor) : Prop :=
  noBusError x.view.platform .read x.ops.srcBase c.consumed ∧ noBusError x.view.platform .write x.ops.dstBase c.produced

theorem noBusError_succ {pl : Platform} {k : Access} {a n : Nat} (h : noBusError pl k a n) (hb : busError pl k (a + n) = false) :
    noBusError pl k a (n + 1) := fun j hj => by
  rcases Nat.lt_succ_iff_lt_or_eq.1 hj with hj | rfl
  · exact h j hj
  · exact hb

theorem runAccess_keeps_clean {x : Ctx} {p q : Prog} (hc : Clean x p.cur) (hr : p.cur.run ≠ .none) (h : runAccess x p = .more q) :
    Clean x q.cur := by
  obtain ⟨hread, hwrite⟩ := hc
  rcases runAccess_more_cases hr h with ⟨next, -, hb, rfl⟩ | ⟨b, next, -, hb, rfl⟩
  · exact ⟨noBusError_succ hread hb, hwrite⟩
  · exact ⟨hread, noBusError_succ hwrite hb⟩

theorem walkTurn_keeps_clean {x : Ctx} {p q : Prog} (hc : Clean x p.cur) (h : walkTurn true x p = .more q) : Clean x q.cur := by
  rcases walkTurn_more_cases h with ⟨hr, h⟩ | ⟨-, -, -, hb, -, -, rfl⟩
  · exact runAccess_keeps_clean hc hr h
  · exact ⟨noBusError_succ hc.1 hb, hc.2⟩

/-! ## The last turn of a command -/

/-- The three commands that make accesses (R120, R121, R123). -/
abbrev isMover (i : Instr) : Prop := i = .copy ∨ i = .rleDecode ∨ i = .rleSkip

theorem isMover.isCommand {i : Instr} (hi : isMover i) : isCommand i := by
  rcases hi with rfl | rfl | rfl <;> rfl

theorem work_keeps_started {i : Instr} (hi : isMover i) {x : Ctx} {p q : Prog} (h : (commandOf i).work x p = .more q) :
    q.cur.started = p.cur.started := by
  rcases hi with rfl | rfl | rfl
  · exact (copyTurn_ends p q h).2
  · exact (walkTurn_ends p q h).2
  · exact (walkTurn_ends p q h).2

/-- A command in `s` whose checks have passed. -/
abbrev afterChecks (i : Instr) (s : State) : Prog :=
  ⟨s.mem, { (commandOf i).enter (latch (commandWord i) s) Cursor.fresh with started := true }⟩

/-- A command that passes its checks has a last turn, which ends it, and before it holds whatever holds after the checks and is
kept by every turn. -/
theorem exec_mover_last {i : Instr} (hi : isMover i) {s t : State} (he : s.engine = .idle)
    (hc : (commandOf i).check (latch (commandWord i) s) = none) (h : exec i s = .next t) (inv : Prog → Prop)
    (hstart : inv (afterChecks i s))
    (hmore : ∀ p q, inv p → (commandOf i).work (issueCtx (commandWord i) s) p = .more q → inv q) :
    ∃ p q e, inv p ∧ (commandOf i).work (issueCtx (commandWord i) s) p = .done q e ∧
      t = settle (commandOf i).onSuccess (Running.fresh (commandWord i) s) (issue (commandWord i) s) (.done q e) := by
  obtain ⟨n, q, e, hq, ht⟩ := exec_command_ends hi.isCommand he h
  have henter : (commandOf i).unit (issueCtx (commandWord i) s) ⟨s.mem, Cursor.fresh⟩ = .more (afterChecks i s) :=
    Command.unit_enters rfl hc
  cases n with
  | zero => cases hq
  | succ n =>
    rw [show (Running.fresh (commandWord i) s).ctx (issue (commandWord i) s) = issueCtx (commandWord i) s from rfl,
      iterate_succ_more henter] at hq
    obtain ⟨p, hp, hdone⟩ := (iterate_induct (fun p => p.cur.started = true ∧ inv p)
      (fun q e => ∃ p, inv p ∧ (commandOf i).work (issueCtx (commandWord i) s) p = .done q e)
      (fun p q hp hu => by
        rw [Command.unit_started hp.1] at hu
        exact ⟨(work_keeps_started hi hu).trans hp.1, hmore p q hp.2 hu⟩)
      (fun p q e hp hu => ⟨p, hp.2, (Command.unit_started hp.1).symm.trans hu⟩)
      ⟨rfl, hstart⟩).2 q e hq
    exact ⟨p, q, e, hp, hdone, ht⟩

/-- A command whose checks do not pass ends at once, with the code of the check. -/
theorem exec_mover_fails {i : Instr} (hi : isMover i) {s t : State} {e : CheckError} (he : s.engine = .idle)
    (hc : (commandOf i).check (latch (commandWord i) s) = some e) (h : exec i s = .next t) :
    failsAtOnce (commandWord i) e.code s t := by
  obtain ⟨t', ht', hfail⟩ := exec_fails_at_once hi.isCommand (by rcases hi with rfl | rfl | rfl <;> decide) he hc
  rw [h] at ht'
  cases ht'
  exact hfail

end Sys2Proof.Machine
end

-- PROOFS, part 14: moving a known source
section
/-! SUPPORT. What a codec command has done to memory at each of its accesses, when it is known which bytes stand in its source
window and what they stand for (40_codec.md R114 to R117, R120, R125, R127). -/

namespace Sys2Proof.Machine

/-! ## Packets of a stream (R90) -/

/-- The control byte of a valid packet selects it (R90, R92). -/
theorem decodeControl_item {p : StreamItem} (h : p.valid = true) :
    decodeControl (BitVec.ofNat 8 (encode p.instr)) = p.instr := by
  cases p with
  | lit bytes =>
    rw [StreamItem.valid_lit] at h
    exact decodeControl_encode_literal (c := bytes.length - 1) (by omega)
  | rep n v =>
    rw [StreamItem.valid_rep] at h
    exact decodeControl_encode_repeatRun (by omega) (by omega)
  | noop => exact decodeControl_noop rfl

/-- A valid packet's instruction has the lengths of the packet. -/
theorem packet_lengths {p : StreamItem} (h : p.valid = true) :
    packetData p.instr = p.data.length ∧ packetOutput p.instr = p.output.length := by
  cases p with
  | lit bytes =>
    rw [StreamItem.valid_lit] at h
    have hn : bytes.length - 1 + 1 = bytes.length := by omega
    exact ⟨hn, hn⟩
  | rep n v =>
    refine ⟨rfl, ?_⟩
    show (1 - (1 - (n : Int))).toNat = (List.replicate n v).length
    rw [List.length_replicate]
    omega
  | noop => exact ⟨rfl, rfl⟩

/-- A stream that ends with a run stands for at least one byte, unless it is empty. -/
theorem expand_eq_nil {ps : List StreamItem} (hv : ∀ p ∈ ps, p.valid = true) (hl : ps.getLast? ≠ some .noop)
    (h : expand ps = []) : ps = [] := by
  cases hlast : ps.getLast? with
  | none => exact List.getLast?_eq_none_iff.1 hlast
  | some p =>
    have hp : p ∈ ps := List.mem_of_getLast? hlast
    have hout : p.output = [] := List.flatMap_eq_nil_iff.1 h p hp
    have hvalid := hv p hp
    cases p with
    | noop => exact absurd hlast hl
    | lit bytes =>
      rw [show bytes = [] from hout] at hvalid
      cases hvalid
    | rep n v =>
      rw [StreamItem.valid_rep] at hvalid
      have := congrArg List.length hout
      simp [StreamItem.output] at this
      omega

/-! ## What is still to be read and written -/

/-- The run in progress and then the packets of a rest of `ps` read `input` and write `output`. -/
inductive Left (ps : List StreamItem) : Run → List Byte → List Byte → Prop
  | between {rest : List StreamItem} (h : rest <:+ ps) : Left ps .none (assemble rest) (expand rest)
  | copying {rest : List StreamItem} {n : Nat} {bs : List Byte} (h : rest <:+ ps) (hn : bs.length = n + 1) :
      Left ps (.copying n .none) (bs ++ assemble rest) (bs ++ expand rest)
  | holding {rest : List StreamItem} {n : Nat} {b : Byte} {bs : List Byte} (h : rest <:+ ps) (hn : bs.length = n) :
      Left ps (.copying n (some b)) (bs ++ assemble rest) (b :: (bs ++ expand rest))
  | fetching {rest : List StreamItem} (n : Nat) (v : Byte) (h : rest <:+ ps) :
      Left ps (.fetching n) (v :: assemble rest) (List.replicate (n + 1) v ++ expand rest)
  | filling {rest : List StreamItem} (n : Nat) (v : Byte) (h : rest <:+ ps) :
      Left ps (.filling n v) (assemble rest) (List.replicate (n + 1) v ++ expand rest)

/-- A run that is about to copy the bytes `bs`, or has none to copy. -/
theorem Left.next_copying {ps rest : List StreamItem} (h : rest <:+ ps) (bs : List Byte) :
    Left ps (Run.next (fun k => .copying k .none) bs.length) (bs ++ assemble rest) (bs ++ expand rest) := by
  cases bs with
  | nil => exact .between h
  | cons b bs => exact .copying h rfl

/-- A read takes the first byte of the input. -/
theorem Left.read {ps : List StreamItem} {run : Run} {next : Byte → Run} {input output : List Byte}
    (h : Left ps run input output) (hr : run.Reads next) :
    ∃ b input', input = b :: input' ∧ Left ps (next b) input' output := by
  cases hr with
  | copy n =>
    cases h with
    | @copying rest _ bs h hn =>
      cases bs with
      | nil => cases hn
      | cons b bs => exact ⟨b, _, rfl, .holding h (Nat.succ.inj hn)⟩
  | fetch n =>
    cases h with
    | @fetching rest _ v h => exact ⟨v, _, rfl, .filling n v h⟩

/-- A write gives the first byte of the output. -/
theorem Left.write {ps : List StreamItem} {run next : Run} {b : Byte} {input output : List Byte}
    (h : Left ps run input output) (hr : run.Writes b next) :
    ∃ output', output = b :: output' ∧ Left ps next input output' := by
  cases hr with
  | copy n b =>
    cases h with
    | @holding rest _ _ bs h hn =>
      subst hn
      exact ⟨_, rfl, .next_copying h bs⟩
  | fill n _ =>
    cases h with
    | @filling rest _ _ h =>
      refine ⟨List.replicate n b ++ expand rest, rfl, ?_⟩
      cases n with
      | zero => exact .between h
      | succ n => exact .filling n b h

/-- A packet of a decode begins its run (R114 to R116). -/
theorem Left.packet {ps rest : List StreamItem} {p : StreamItem} (h : rest <:+ ps) (hv : p.valid = true) :
    Left ps (packetRun p.instr) (p.data ++ assemble rest) (p.output ++ expand rest) := by
  cases p with
  | lit bytes =>
    rw [StreamItem.valid_lit] at hv
    exact .copying (n := bytes.length - 1) (bs := bytes) h (by omega)
  | rep n v =>
    rw [StreamItem.valid_rep] at hv
    have hn : (-(1 - (n : Int))).toNat + 1 = n := by omega
    have hrun := Left.fetching (-(1 - (n : Int))).toNat v h
    rw [hn] at hrun
    exact hrun
  | noop => exact .between h

/-- Between two packets, with output left, the input is a packet and what follows it. -/
theorem Left.next_packet {ps : List StreamItem} {input output : List Byte} (h : Left ps .none input output)
    (hne : output ≠ []) :
    ∃ p rest, (p :: rest) <:+ ps ∧ input = assemble (p :: rest) ∧ output = expand (p :: rest) := by
  cases h with
  | @between rest h =>
    cases rest with
    | nil => exact absurd rfl hne
    | cons p rest => exact ⟨p, rest, h, rfl, rfl⟩

/-- Without output left, a stream that ends with a run has no input left. -/
theorem Left.finished {ps : List StreamItem} {input : List Byte} (h : Left ps .none input [])
    (hv : ∀ p ∈ ps, p.valid = true) (hl : ps.getLast? ≠ some .noop) : input = [] := by
  generalize hout : ([] : List Byte) = output at h
  cases h with
  | @between rest h =>
    obtain ⟨front, rfl⟩ := h
    have hlast : rest.getLast? ≠ some .noop := fun hn => hl (by rw [List.getLast?_append, hn, Option.some_or])
    rw [expand_eq_nil (fun p hp => hv p (List.mem_append_right _ hp)) hlast hout.symm]
    rfl

/-- What is left of a list that is known from its `k`-th element on. -/
theorem drop_eq_cons {l tail : List Byte} {k : Nat} {b : Byte} (h : l.drop k = b :: tail) :
    k < l.length ∧ l.getD k 0 = b ∧ l.drop (k + 1) = tail := by
  have hlt : k < l.length := by
    by_contra hge
    rw [List.drop_eq_nil_of_le (by omega)] at h
    cases h
  rw [List.drop_eq_getElem_cons hlt] at h
  cases h
  exact ⟨hlt, List.getD_eq_getElem l 0 hlt, rfl⟩

/-! ## Memory at each access -/

/-- The bytes `src` stand at the source cursor of memory `m`, no byte is raced, and a command that writes does so elsewhere
(R112, R241). -/
structure SourceHolds (x : Ctx) (write : Bool) (src : List Byte) (m : Memory) : Prop where
  stale    : x.view.stale = []
  shielded : x.view.shielded = []
  bytes    : holdsBytes m x.ops.srcBase src
  length   : src.length ≤ x.ops.srcLen
  apart    : write = true → disjointWindows x.ops.srcBase x.ops.srcLen x.ops.dstBase x.ops.dstLen

/-- A command that began in memory `m` over the source `src`, which stands for `out`, is at one of its accesses: it has consumed a
front part of `src`, and written (decode) or counted (skip) a front part of `out` and nothing else. -/
structure Moved (x : Ctx) (write : Bool) (ps : List StreamItem) (src out : List Byte) (m : Memory) (p : Prog) : Prop where
  rising  : Memory.rising 0 p.mem = true
  fits    : Fits x.ops p.cur
  taken   : p.cur.consumed ≤ src.length
  between : write = false → p.cur.run = .none
  left    : Left ps p.cur.run (src.drop p.cur.consumed) (out.drop p.cur.produced)
  mem     : ∀ a, Memory.read p.mem a =
    if write = true ∧ x.ops.dstBase ≤ a ∧ a < x.ops.dstBase + p.cur.produced then out.getD (a - x.ops.dstBase) 0
    else Memory.read m a

section
variable {x : Ctx} {write : Bool} {ps : List StreamItem} {src out : List Byte} {m : Memory} {p q : Prog}

/-- At its start a command has moved nothing. -/
theorem Moved.at_start {c : Cursor} (hm : Memory.wf m = true) (hs : c.consumed = 0) (hd : c.produced = 0) (hf : Fits x.ops c)
    (hb : write = false → c.run = .none) (hl : Left ps c.run src out) : Moved x write ps src out m ⟨m, c⟩ := by
  refine ⟨Memory.rising_of_wf hm, hf, hs ▸ Nat.zero_le _, hb, ?_, fun a => (if_neg ?_).symm⟩
  · rw [hs, hd]
    exact hl
  · rintro ⟨-, hlo, hhi⟩
    rw [hd] at hhi
    omega

/-- The engine reads the next byte of the source, whatever it has written. -/
theorem Moved.nextByte_eq (hx : SourceHolds x write src m) (h : Moved x write ps src out m p) {b : Byte} {tail : List Byte}
    (hb : src.drop p.cur.consumed = b :: tail) : nextByte x p = b := by
  obtain ⟨hlt, hget, -⟩ := drop_eq_cons hb
  have hlen := hx.length
  have hout : ¬ (write = true ∧ x.ops.dstBase ≤ x.ops.srcBase + p.cur.consumed ∧
      x.ops.srcBase + p.cur.consumed < x.ops.dstBase + p.cur.produced) := by
    rintro ⟨hw, hlo, hhi⟩
    have hd := h.fits.2
    have := hx.apart hw
    omega
  calc nextByte x p = Memory.read p.mem (x.ops.srcBase + p.cur.consumed) := by simp [nextByte, BusView.seen, hx.stale]
    _ = Memory.read m (x.ops.srcBase + p.cur.consumed) := by rw [h.mem, if_neg hout]
    _ = b := by rw [hx.bytes _ hlt, hget]

/-- An access of a run reads the next byte of the source or writes the next byte of the output. -/
theorem Moved.access (hx : SourceHolds x true src m) (h : Moved x true ps src out m p) (hr : p.cur.run ≠ .none)
    (hq : runAccess x p = .more q) : Moved x true ps src out m q := by
  obtain ⟨hs, hd⟩ := runAccess_reach hr hq
  have hfits : Fits x.ops q.cur := ⟨hs ▸ h.fits.1, hd ▸ h.fits.2⟩
  rcases runAccess_more_cases hr hq with ⟨next, hrun, -, rfl⟩ | ⟨b, next, hrun, -, rfl⟩
  · obtain ⟨b, input, hin, hleft⟩ := h.left.read hrun
    obtain ⟨hlt, -, htail⟩ := drop_eq_cons hin
    rw [h.nextByte_eq hx hin] at hfits ⊢
    refine ⟨h.rising, hfits, hlt, nofun, ?_, h.mem⟩
    show Left ps (next b) (src.drop (p.cur.consumed + 1)) _
    rw [htail]
    exact hleft
  · obtain ⟨output, hout, hleft⟩ := h.left.write hrun
    obtain ⟨-, hget, htail⟩ := drop_eq_cons hout
    rw [hx.shielded, List.contains_nil, if_neg Bool.false_ne_true] at hfits ⊢
    refine ⟨Memory.rising_write h.rising (Nat.zero_le _) b, hfits, h.taken, nofun, ?_, fun a => ?_⟩
    · show Left ps next _ (out.drop (p.cur.produced + 1))
      rw [htail]
      exact hleft
    · show Memory.read (Memory.write p.mem (x.ops.dstBase + p.cur.produced) b) a = if true = true ∧ x.ops.dstBase ≤ a ∧
        a < x.ops.dstBase + (p.cur.produced + 1) then out.getD (a - x.ops.dstBase) 0 else Memory.read m a
      rw [Memory.read_write h.rising, h.mem a]
      simp only [true_and]
      by_cases ha : a = x.ops.dstBase + p.cur.produced
      · rw [if_pos ha, if_pos (by omega), ha, Nat.add_sub_cancel_left, hget]
      · rw [if_neg ha]
        exact if_congr (by omega) rfl rfl

/-- Between two packets of a known stream, with output left: the packet that the next byte selects is the next of the stream. -/
theorem Moved.at_packet (hx : SourceHolds x write src m) (h : Moved x write ps src out m p)
    (hv : ∀ i ∈ ps, i.valid = true) (hr : p.cur.run = .none) (hd : p.cur.produced < out.length) :
    ∃ i rest, (i :: rest) <:+ ps ∧ i.valid = true ∧ decodeControl (nextByte x p) = i.instr ∧
      p.cur.consumed < src.length ∧ src.drop (p.cur.consumed + 1) = i.data ++ assemble rest ∧
      out.drop p.cur.produced = i.output ++ expand rest := by
  have hleft := h.left
  rw [hr] at hleft
  obtain ⟨i, rest, hsuf, hin, hout⟩ := hleft.next_packet (by simpa using hd)
  have hvalid := hv i (hsuf.subset List.mem_cons_self)
  obtain ⟨hlt, -, htail⟩ := drop_eq_cons hin
  exact ⟨i, rest, hsuf, hvalid, h.nextByte_eq hx hin ▸ decodeControl_item hvalid, hlt, htail, hout⟩

/-- A turn of a walk over a known stream. -/
theorem Moved.turn (hx : SourceHolds x write src m) (h : Moved x write ps src out m p) (hv : ∀ i ∈ ps, i.valid = true)
    (hlen : x.ops.dstLen ≤ out.length) (hq : walkTurn write x p = .more q) : Moved x write ps src out m q := by
  have hfits := walkTurn_keeps_fits h.fits hq
  rcases walkTurn_more_cases hq with ⟨hr, hrun⟩ | ⟨hr, hd, -, -, -, -, rfl⟩
  · cases write with
    | false => exact absurd (h.between rfl) hr
    | true => exact h.access hx hr hrun
  · obtain ⟨i, rest, hsuf, hvalid, hi, hlt, hin, hout⟩ := h.at_packet hx hv hr (by omega)
    have hrest : rest <:+ ps := (List.suffix_cons i rest).trans hsuf
    obtain ⟨hdata, houtput⟩ := packet_lengths hvalid
    rw [hi] at hfits ⊢
    cases write with
    | true =>
      refine ⟨h.rising, hfits, hlt, nofun, ?_, h.mem⟩
      show Left ps (packetRun i.instr) (src.drop (p.cur.consumed + 1)) (out.drop p.cur.produced)
      rw [hin, hout]
      exact .packet hrest hvalid
    | false =>
      have hin' : src.drop (p.cur.consumed + 1 + packetData i.instr) = assemble rest := by
        rw [← List.drop_drop, hin, hdata, List.drop_left]
      have hout' : out.drop (p.cur.produced + packetOutput i.instr) = expand rest := by
        rw [← List.drop_drop, hout, houtput, List.drop_left]
      refine ⟨h.rising, hfits, ?_, fun _ => hr, ?_, fun a => by simpa using h.mem a⟩
      · show p.cur.consumed + 1 + packetData i.instr ≤ src.length
        have := congrArg List.length hin
        rw [List.length_drop, List.length_append] at this
        omega
      · show Left ps p.cur.run (src.drop (p.cur.consumed + 1 + packetData i.instr))
          (out.drop (p.cur.produced + packetOutput i.instr))
        rw [hr, hin', hout']
        exact .between hrest

/-- What can end a walk over a known stream: its success, a bus error, or a last run that overshoots. -/
theorem Moved.turn_ends (hx : SourceHolds x write src m) (h : Moved x write ps src out m p) (hv : ∀ i ∈ ps, i.valid = true)
    (hlen : x.ops.dstLen ≤ out.length) {e : Ending} (hq : walkTurn write x p = .done q e) :
    (q = p ∧ e = .success ∧ p.cur.run = .none ∧ x.ops.dstLen ≤ p.cur.produced) ∨ (∃ a, e = .busError a) ∨
      x.ops.dstLen < out.length := by
  by_cases hr : p.cur.run = .none
  · rcases walkTurn_done_cases hr hq with ⟨hd, rfl, rfl⟩ | ⟨hd, hs, -⟩ | ⟨-, -, -, -, rfl⟩ | ⟨hd, -, -, -, c, -, hc⟩
    · exact .inl ⟨rfl, rfl, hr, hd⟩
    · obtain ⟨-, -, -, -, -, hlt, -⟩ := h.at_packet hx hv hr (by omega)
      have := hx.length
      omega
    · exact .inr (.inl ⟨_, rfl⟩)
    · obtain ⟨i, rest, -, hvalid, hi, hlt, hin, hout⟩ := h.at_packet hx hv hr (by omega)
      obtain ⟨hdata, houtput⟩ := packet_lengths hvalid
      have hin' := congrArg List.length hin
      have hout' := congrArg List.length hout
      rw [List.length_drop, List.length_append] at hin' hout'
      have hsl := hx.length
      rw [hi] at hc
      rcases runCheck_cases x.ops (packetOutput i.instr) (packetData i.instr) p.took.cur with
        ⟨hover, -⟩ | ⟨-, hshort, -⟩ | ⟨-, -, hc'⟩
      · refine .inr (.inr ?_)
        simp only [took_produced] at hover
        omega
      · simp only [took_consumed] at hshort
        omega
      · rw [hc'] at hc
        cases hc
  · rw [walkTurn_run hr] at hq
    obtain ⟨-, ⟨-, he, -⟩ | ⟨-, he, -⟩⟩ := runAccess_done_cases hq
    · exact .inr (.inl ⟨_, he⟩)
    · exact .inr (.inl ⟨_, he⟩)

end

end Sys2Proof.Machine
end

-- PROOFS, part 15: the statements about whole codec commands
section
/-! The statements about `COPY`, `RLE_DECODE` and `RLE_SKIP` from issue to completion (40_codec.md R113, R120 to R128): each
follows from what holds at the last turn of the command. -/

namespace Sys2Proof.Machine

/-! ## `COPY` (R120, R125) -/

/-- The `n` bytes from the source address on. -/
def sourceBytes (s : State) (n : Nat) : List Byte := (List.range n).map fun j => Memory.read s.mem (s.srcBase + j)

@[simp] theorem sourceBytes_length (s : State) (n : Nat) : (sourceBytes s n).length = n := by
  simp [sourceBytes]

theorem sourceBytes_getD (s : State) {n j : Nat} (h : j < n) : (sourceBytes s n).getD j 0 = Memory.read s.mem (s.srcBase + j) := by
  simp [sourceBytes, h]

/-- A `COPY` reads when it has written all it has read. -/
theorem copyOk_reads {o : Operands} {c : Cursor} {next : Byte → Run} (h : copyOk o c) (hr : c.run.Reads next) :
    c.consumed = c.produced ∧ c.produced < o.dstLen := by
  unfold copyOk at h
  generalize c.run = run at h hr
  cases hr with
  | copy n =>
    obtain ⟨heq, hlen⟩ := h
    exact ⟨heq, by omega⟩
  | fetch n => exact h.elim

/-- A `COPY` writes when it has read one byte more than it has written. -/
theorem copyOk_writes {o : Operands} {c : Cursor} {b : Byte} {next : Run} (h : copyOk o c) (hr : c.run.Writes b next) :
    c.consumed = c.produced + 1 ∧ c.produced < o.dstLen := by
  unfold copyOk at h
  generalize c.run = run at h hr
  cases hr with
  | copy n b =>
    obtain ⟨heq, hlen⟩ := h
    exact ⟨heq, by omega⟩
  | fill n b => exact h.elim

/-- A `COPY` whose checks pass. -/
abbrev copyChecked (s : State) : Prop :=
  s.dstLen ≤ s.srcLen ∧ s.srcBase + s.srcLen ≤ 2 ^ 32 ∧ s.dstBase + s.dstLen ≤ 2 ^ 32 ∧
  disjointWindows s.srcBase s.srcLen s.dstBase s.dstLen

/-- Where a `COPY` has ended: with success after its last byte, at a byte it cannot read, or at one it cannot write. -/
def CopyEnds (s : State) (c : Cursor) (e : Ending) : Prop :=
  (e = .success ∧ c.consumed = s.dstLen ∧ c.produced = s.dstLen) ∨
  (busError s.platform .read (s.srcBase + c.produced) = true ∧ e = .busError (s.srcBase + c.produced) ∧
    c.consumed = c.produced ∧ c.produced < s.dstLen) ∨
  (busError s.platform .write (s.dstBase + c.produced) = true ∧ e = .busError (s.dstBase + c.produced) ∧
    c.consumed = c.produced + 1 ∧ c.produced < s.dstLen)

/-- Where a `COPY` is at each of its accesses. -/
structure CopyAt (s : State) (p : Prog) : Prop where
  started : p.cur.started = true
  wf      : Memory.wf p.mem = true
  ok      : copyOk (latch (commandWord .copy) s) p.cur
  clean   : Clean (issueCtx (commandWord .copy) s) p.cur
  moved   : Moved (issueCtx (commandWord .copy) s) true [] (sourceBytes s s.dstLen) (sourceBytes s s.dstLen) s.mem p

theorem copy_sourceHolds {s : State} (h : copyChecked s) :
    SourceHolds (issueCtx (commandWord .copy) s) true (sourceBytes s s.dstLen) s.mem where
  stale    := rfl
  shielded := rfl
  bytes    := fun j hj => (sourceBytes_getD s (by simpa using hj)).symm
  length   := by simpa using h.1
  apart    := fun _ => h.2.2.2

/-- The one run of a `COPY` of `n` bytes (R120). -/
abbrev copyRun (n : Nat) : Run := Run.next (fun k => .copying k .none) n

theorem copyRun_left (n : Nat) : (copyRun n).needs = n ∧ (copyRun n).gives = n := by
  cases n <;> exact ⟨rfl, rfl⟩

theorem fits_copyStart {s : State} (h : s.dstLen ≤ s.srcLen) :
    Fits (latch (commandWord .copy) s) { Cursor.fresh with started := true, run := copyRun s.dstLen } := by
  obtain ⟨hneed, hgive⟩ := copyRun_left s.dstLen
  exact ⟨by rw [hneed]; exact (Nat.zero_add _).trans_le h, by rw [hgive]; exact (Nat.zero_add _).le⟩

/-- What the checks leave a `COPY` to do. -/
theorem copyAt_start {s : State} (hm : Memory.wf s.mem = true) (h : copyChecked s) :
    CopyAt s ⟨s.mem, { Cursor.fresh with started := true, run := copyRun s.dstLen }⟩ := by
  have hleft := Left.next_copying (List.suffix_refl ([] : List StreamItem)) (sourceBytes s s.dstLen)
  have hfits := fits_copyStart h.1
  simp only [assemble, expand, List.flatMap_nil, List.append_nil, sourceBytes_length] at hleft
  refine ⟨rfl, hm, ?_, ⟨nofun, nofun⟩, .at_start hm rfl rfl hfits (fun h => by cases h) hleft⟩
  cases hd : s.dstLen with
  | zero => exact ⟨rfl, fun _ => hd.symm⟩
  | succ n =>
    refine ⟨rfl, ?_⟩
    show 0 + n + 1 = s.dstLen
    omega

theorem moveCheck_of_copyChecked {s : State} (h : copyChecked s) (w : Word) : moveCheck (latch w s) = none := by
  obtain ⟨-, hsrc, hdst, hdis⟩ := h
  exact moveCheck_pass (o := latch w s) hsrc hdst hdis

/-- Every access of a `COPY` keeps it. -/
theorem CopyAt.turn {s : State} {p q : Prog} (h : copyChecked s) (hp : CopyAt s p)
    (hq : copyTurn (issueCtx (commandWord .copy) s) p = .more q) : CopyAt s q := by
  obtain ⟨hr, hrun⟩ := copyTurn_more hq
  obtain ⟨hwf, hok⟩ := copyTurn_keeps (moveCheck_of_copyChecked h _) hp.wf hp.ok hq
  exact ⟨(copyTurn_ends p q hq).2.trans hp.started, hwf, hok, runAccess_keeps_clean hp.clean hr hrun,
    hp.moved.access (copy_sourceHolds h) hr hrun⟩

/-- The last turn of a `COPY` ends it in one of three ways. -/
theorem CopyAt.ends {s : State} {p q : Prog} {e : Ending} (hp : CopyAt s p)
    (hq : copyTurn (issueCtx (commandWord .copy) s) p = .done q e) :
    q.mem = p.mem ∧ q.cur.consumed = p.cur.consumed ∧ q.cur.produced = p.cur.produced ∧ CopyEnds s q.cur e := by
  by_cases hr : p.cur.run = .none
  · rw [copyTurn, if_pos hr] at hq
    cases hq
    have hok := hp.ok
    rw [copyOk, hr] at hok
    obtain ⟨heq, hlen⟩ := hok
    exact ⟨rfl, rfl, rfl, .inl ⟨rfl, heq.trans (hlen hp.started), hlen hp.started⟩⟩
  · rw [copyTurn, if_neg hr] at hq
    obtain ⟨⟨run, rfl⟩, ⟨hb, he, next, hrun⟩ | ⟨hb, he, b, next, hrun⟩⟩ := runAccess_done_cases hq
    · obtain ⟨heq, hlt⟩ := copyOk_reads hp.ok hrun
      rw [heq] at hb he
      exact ⟨rfl, rfl, rfl, .inr (.inl ⟨hb, he, heq, hlt⟩)⟩
    · exact ⟨rfl, rfl, rfl, .inr (.inr ⟨hb, he, copyOk_writes hp.ok hrun⟩)⟩

/-- A `COPY` whose checks pass, from issue to completion: what it has copied, and where it ends. -/
theorem exec_copy_ends {s t : State} (he : s.engine = .idle) (hm : Memory.wf s.mem = true) (h : copyChecked s)
    (ht : exec .copy s = .next t) :
    ∃ q e, t = settle advanceBoth (Running.fresh (commandWord .copy) s) (issue (commandWord .copy) s) (.done q e) ∧
      CopyEnds s q.cur e ∧
      noBusError s.platform .read s.srcBase q.cur.consumed ∧ noBusError s.platform .write s.dstBase q.cur.produced ∧
      ∀ a, Memory.read q.mem a =
        if s.dstBase ≤ a ∧ a < s.dstBase + q.cur.produced then Memory.read s.mem (s.srcBase + (a - s.dstBase))
        else Memory.read s.mem a := by
  have hc : (commandOf .copy).check (latch (commandWord .copy) s) = none :=
    Option.or_eq_none_iff.2 ⟨moveCheck_of_copyChecked h _, (lengthCheck_none_iff _).2 h.1⟩
  obtain ⟨p, q, e, hp, hq, ht⟩ := exec_mover_last (i := .copy) (.inl rfl) he hc ht (CopyAt s) (copyAt_start hm h)
    (fun _ _ hp hq => hp.turn h hq)
  obtain ⟨hmem, hcons, hprod, hend⟩ := hp.ends hq
  obtain ⟨hread, hwrite⟩ := hp.clean
  refine ⟨q, e, ht, hend, hcons ▸ hread, hprod ▸ hwrite, fun a => ?_⟩
  have hlen : p.cur.produced ≤ s.dstLen := Nat.le_of_add_right_le hp.moved.fits.2
  rw [hmem, hprod, hp.moved.mem a]
  simp only [true_and, latch_dstBase]
  split
  · exact sourceBytes_getD s (by omega)
  · rfl

/-- Settles O17: without a bus error a `COPY` can end with its success alone. -/
theorem copyMovesTheBytes : Obligations.CopyMovesTheBytes := by
  intro s ⟨he, hm, hlen, ⟨hsrc, hread⟩, hdst, hwrite, hdis⟩
  obtain ⟨q, e, ht, hend, -, -, hmem⟩ := exec_copy_ends he hm ⟨hlen, hsrc, hdst, hdis⟩ rfl
  refine ⟨_, rfl, ?_⟩
  rw [ht]
  rcases hend with ⟨rfl, hcons, hprod⟩ | ⟨hb, -, -, hlt⟩ | ⟨hb, -, -, hlt⟩
  · rw [hprod] at hmem
    refine ⟨completed_issue _ .success hcons hprod s q.mem _, ?_, rfl, hmem⟩
    simp [hcons]
  · rw [hread _ (by omega)] at hb
    cases hb
  · rw [hwrite _ hlt] at hb
    cases hb

/-- Settles O31: the first access that meets a bus error is the one after those counted. -/
theorem copyKeepsBytesBeforeABusError : Obligations.CopyKeepsBytesBeforeABusError := by
  intro s k he hm hlen hk hsrc hdst hdis hread hwrite
  obtain ⟨q, e, ht, hend, hcr, hcw, hmem⟩ := exec_copy_ends he hm ⟨hlen, hsrc, hdst, hdis⟩ rfl
  have hstop : ∀ a c, q.cur.produced = k → q.cur.consumed = c → e = .busError a →
      ∃ t, exec .copy s = .next t ∧
        completed 0x00000010 0x08 (BitVec.ofNat 32 a) c k s t ∧
        t.params = s.params ∧ t.outPal = s.outPal ∧
        ∀ a, Memory.read t.mem a =
          if s.dstBase ≤ a ∧ a < s.dstBase + k then Memory.read s.mem (s.srcBase + (a - s.dstBase))
          else Memory.read s.mem a := by
    rintro a c rfl rfl rfl
    refine ⟨_, rfl, ?_⟩
    rw [ht]
    exact ⟨completed_issue _ (.busError a) rfl rfl s q.mem s.params, rfl, rfl, hmem⟩
  have hclean : ∀ {a n j}, noBusError s.platform a n j → busError s.platform a (n + k) = true → j ≤ k := by
    intro a n j hn hb
    by_contra hjk
    rw [hn k (by omega)] at hb
    cases hb
  refine ⟨fun hb => ?_, fun hb hb' => ?_⟩
  · have hle := hclean hcr hb
    rcases hend with ⟨-, hcons, -⟩ | ⟨hb', hbus, hcons, -⟩ | ⟨hb', -, hcons, -⟩
    · omega
    · have hkp : q.cur.produced = k := by
        by_contra hne
        rw [hread _ (by omega)] at hb'
        cases hb'
      exact hstop _ k hkp (hcons.trans hkp) (hkp ▸ hbus)
    · rw [hwrite _ (by omega)] at hb'
      cases hb'
  · have hle := hclean hcw hb'
    have hkp : q.cur.produced = k := by
      by_contra hne
      rcases hend with ⟨-, -, hprod⟩ | ⟨hb'', -⟩ | ⟨hb'', -⟩
      · omega
      · rw [hread _ (by omega)] at hb''
        cases hb''
      · rw [hwrite _ (by omega)] at hb''
        cases hb''
    rcases hend with ⟨-, -, hprod⟩ | ⟨hb'', -⟩ | ⟨-, hbus, hcons, -⟩
    · omega
    · rw [hkp, hb] at hb''
      cases hb''
    · exact hstop _ (k + 1) hkp (by omega) (hkp ▸ hbus)

end Sys2Proof.Machine
end

-- PROOFS, part 16: the statements about streams and bus errors
section
/-! The statements about `RLE_DECODE` and `RLE_SKIP` of a stream, and about the bus errors of the codec (40_codec.md R113, R121,
R123 to R128). -/

namespace Sys2Proof.Machine

/-! ## Walks (R117, R121, R123) -/

/-- The two commands that walk, with their modes. -/
abbrev isWalk (i : Instr) (write : Bool) : Prop := (i = .rleDecode ∧ write = true) ∨ (i = .rleSkip ∧ write = false)

/-- A walk at its start (R110). -/
abbrev walkStart (s : State) : Prog := ⟨s.mem, { Cursor.fresh with started := true }⟩

/-- `exec_mover_last` for a walk. -/
theorem exec_walk_last {i : Instr} {write : Bool} (hi : isWalk i write) {s t : State} (he : s.engine = .idle)
    (hc : (commandOf i).check (latch (commandWord i) s) = none) (h : exec i s = .next t) (inv : Prog → Prop)
    (hstart : inv (walkStart s))
    (hmore : ∀ p q, inv p → walkTurn write (issueCtx (commandWord i) s) p = .more q → inv q) :
    ∃ p q e, inv p ∧ walkTurn write (issueCtx (commandWord i) s) p = .done q e ∧
      t = settle (commandOf i).onSuccess (Running.fresh (commandWord i) s) (issue (commandWord i) s) (.done q e) := by
  rcases hi with ⟨rfl, rfl⟩ | ⟨rfl, rfl⟩
  · exact exec_mover_last (i := .rleDecode) (.inr (.inl rfl)) he hc h inv hstart hmore
  · exact exec_mover_last (i := .rleSkip) (.inr (.inr rfl)) he hc h inv hstart hmore

theorem fits_start (o : Operands) : Fits o { Cursor.fresh with started := true } := ⟨Nat.zero_le _, Nat.zero_le _⟩

/-- A walk over a known stream, from issue to completion: what it has moved before its last turn. -/
theorem exec_walk_moved {i : Instr} {write : Bool} (hi : isWalk i write) {s t : State} {ps : List StreamItem}
    (he : s.engine = .idle) (hm : Memory.wf s.mem = true) (hc : (commandOf i).check (latch (commandWord i) s) = none)
    (hx : SourceHolds (issueCtx (commandWord i) s) write (assemble ps) s.mem) (hv : ∀ p ∈ ps, p.valid = true)
    (hlen : s.dstLen ≤ (expand ps).length) (h : exec i s = .next t) :
    ∃ p q e, Moved (issueCtx (commandWord i) s) write ps (assemble ps) (expand ps) s.mem p ∧
      walkTurn write (issueCtx (commandWord i) s) p = .done q e ∧
      t = settle (commandOf i).onSuccess (Running.fresh (commandWord i) s) (issue (commandWord i) s) (.done q e) := by
  have hstart : Moved (issueCtx (commandWord i) s) write ps (assemble ps) (expand ps) s.mem (walkStart s) :=
    .at_start hm rfl rfl (fits_start _) (fun _ => rfl) (.between List.suffix_rfl)
  exact exec_walk_last hi he hc h _ hstart (fun p q hp hq => hp.turn hx hv hlen hq)

/-! ## Where a bus error stops a command (R125) -/

/-- The platform answers the next access of cursors `c`, inside its window, with a bus error at `a`. A write is the next access only
inside a run. -/
def StopsAt (x : Ctx) (c : Cursor) (a : Nat) : Prop :=
  (busError x.view.platform .read (x.ops.srcBase + c.consumed) = true ∧ a = x.ops.srcBase + c.consumed ∧
    c.consumed < x.ops.srcLen) ∨
  (c.run ≠ .none ∧ busError x.view.platform .write (x.ops.dstBase + c.produced) = true ∧ a = x.ops.dstBase + c.produced ∧
    c.produced < x.ops.dstLen)

theorem runAccess_stopsAt {x : Ctx} {p q : Prog} {a : Nat} (hf : Fits x.ops p.cur) (h : runAccess x p = .done q (.busError a)) :
    q.cur.consumed = p.cur.consumed ∧ q.cur.produced = p.cur.produced ∧ StopsAt x p.cur a := by
  obtain ⟨hs, hd⟩ := hf
  obtain ⟨⟨run, rfl⟩, ⟨hb, he, next, hrun⟩ | ⟨hb, he, b, next, hrun⟩⟩ := runAccess_done_cases h
  · obtain ⟨hneed, -⟩ := hrun.left 0
    cases he
    exact ⟨rfl, rfl, .inl ⟨hb, rfl, by omega⟩⟩
  · obtain ⟨-, hgive⟩ := hrun.left
    cases he
    refine ⟨rfl, rfl, .inr ⟨fun hn => ?_, hb, rfl, by omega⟩⟩
    rw [hn, gives_none] at hgive
    omega

theorem walkTurn_stopsAt {write : Bool} {x : Ctx} {p q : Prog} {a : Nat} (hf : Fits x.ops p.cur)
    (h : walkTurn write x p = .done q (.busError a)) :
    q.cur.consumed = p.cur.consumed ∧ q.cur.produced = p.cur.produced ∧ StopsAt x p.cur a := by
  by_cases hr : p.cur.run = .none
  · rcases walkTurn_done_cases hr h with ⟨-, -, he⟩ | ⟨-, -, -, he⟩ | ⟨-, hs, hb, rfl, he⟩ | ⟨-, -, -, -, c, he, -⟩ <;> cases he
    exact ⟨rfl, rfl, .inl ⟨hb, rfl, hs⟩⟩
  · rw [walkTurn_run hr] at h
    exact runAccess_stopsAt hf h

theorem copyTurn_stopsAt {x : Ctx} {p q : Prog} {a : Nat} (hf : Fits x.ops p.cur) (h : copyTurn x p = .done q (.busError a)) :
    q.cur.consumed = p.cur.consumed ∧ q.cur.produced = p.cur.produced ∧ StopsAt x p.cur a := by
  unfold copyTurn at h
  split at h
  · cases h
  · exact runAccess_stopsAt hf h

/-! ## Streams (R127, R128) -/

/-- Without a bus error a walk over a stream that ends with its last run has one ending: success, at the end of the stream. -/
theorem exec_stream_succeeds {i : Instr} {write : Bool} (hi : isWalk i write) {s t : State} {ps : List StreamItem} {k : Nat}
    (hs : streamReady s ps k) (hw : write = true → destReady s) (h : exec i s = .next t) :
    ∃ p : Prog, p.cur.consumed = (assemble ps).length ∧ p.cur.produced = (expand ps).length ∧
      t = settle (commandOf i).onSuccess (Running.fresh (commandWord i) s) (issue (commandWord i) s) (.done p .success) ∧
      ∀ a, Memory.read p.mem a =
        if write = true ∧ s.dstBase ≤ a ∧ a < s.dstBase + s.dstLen then (expand ps).getD (a - s.dstBase) 0
        else Memory.read s.mem a := by
  obtain ⟨he, hm, ⟨hsrc, hread⟩, hv, hlast, hslen, hdlen, hbytes⟩ := hs
  have hc : (commandOf i).check (latch (commandWord i) s) = none := by
    rcases hi with ⟨rfl, rfl⟩ | ⟨rfl, rfl⟩
    · obtain ⟨hdst, -, hdis⟩ := hw rfl
      exact moveCheck_pass (o := latch (commandWord .rleDecode) s) hsrc hdst hdis
    · exact (skipCheck_none_iff _).2 hsrc
  have hx : SourceHolds (issueCtx (commandWord i) s) write (assemble ps) s.mem :=
    ⟨rfl, rfl, hbytes, by rw [latch_srcLen]; omega, fun hw' => (hw hw').2.2⟩
  obtain ⟨p, q, e, hp, hq, ht⟩ := exec_walk_moved hi he hm hc hx hv (Nat.le_of_eq hdlen) h
  obtain ⟨rfl, rfl, hr, hd⟩ | ⟨a, rfl⟩ | hover := hp.turn_ends hx hv (Nat.le_of_eq hdlen) hq
  · have hprod : q.cur.produced = s.dstLen := Nat.le_antisymm (Nat.le_of_add_right_le hp.fits.2) hd
    have hleft := hp.left
    rw [hr, hprod, List.drop_eq_nil_of_le (Nat.le_of_eq hdlen.symm)] at hleft
    have hcons : (assemble ps).length ≤ q.cur.consumed := List.drop_eq_nil_iff.1 (hleft.finished hv hlast)
    exact ⟨q, Nat.le_antisymm hp.taken hcons, hprod.trans hdlen, ht, hprod ▸ hp.mem⟩
  · obtain ⟨-, -, ⟨hb, -, hlt⟩ | ⟨hr, hb, -, hlt⟩⟩ := walkTurn_stopsAt hp.fits hq
    · cases (hread _ hlt).symm.trans hb
    · cases write with
      | false => exact absurd (hp.between rfl) hr
      | true =>
        obtain ⟨-, hwrite, -⟩ := hw rfl
        cases (hwrite _ hlt).symm.trans hb
  · rw [latch_dstLen] at hover
    omega

/-- What `SRC_LEN` has left after a stream and before the `k` bytes that follow it. -/
theorem srcLen_sub {w : Word} {n k : Nat} (h : w.toNat = n + k) : w - BitVec.ofNat 32 n = BitVec.ofNat 32 k := by
  have hw : w = BitVec.ofNat 32 n + BitVec.ofNat 32 k := by
    rw [← BitVec.ofNat_add, ← h, BitVec.ofNat_toNat, BitVec.setWidth_eq]
  rw [hw, add_sub_cancel_left]

/-- Settles O21. -/
theorem decodingAStreamWritesItsOutput : Obligations.DecodingAStreamWritesItsOutput := by
  intro s ps k hs hd
  obtain ⟨p, hcons, hprod, ht, hmem⟩ := exec_stream_succeeds (.inl ⟨rfl, rfl⟩) hs (fun _ => hd) rfl
  obtain ⟨-, -, -, -, -, hlen, -⟩ := hs
  simp only [true_and] at hmem
  refine ⟨_, rfl, ?_⟩
  rw [ht]
  refine ⟨completed_issue _ .success hcons hprod s p.mem _, ?_, rfl, hmem⟩
  simp [commandOf, rleDecodeCommand, hcons, srcLen_sub hlen]

/-- Settles O22. -/
theorem skippingAStreamCountsItsOutput : Obligations.SkippingAStreamCountsItsOutput := by
  intro s ps k hs
  obtain ⟨p, hcons, hprod, ht, hmem⟩ := exec_stream_succeeds (.inr ⟨rfl, rfl⟩) hs nofun rfl
  obtain ⟨-, -, -, -, -, hlen, -⟩ := hs
  simp only [Bool.false_eq_true, false_and, if_false] at hmem
  refine ⟨_, rfl, ?_⟩
  rw [ht]
  refine ⟨completed_issue _ .success hcons hprod s p.mem _, ?_, rfl, hmem⟩
  simp [commandOf, rleSkipCommand, hcons, srcLen_sub hlen]

end Sys2Proof.Machine
end

-- PROOFS, part 17: the statement about bus errors of the codec
section
/-! Where a codec command stops at a bus error, and that it does stop there (40_codec.md R125). -/

namespace Sys2Proof.Machine

/-! ## Codes -/

theorem CheckError.code_ne (e : CheckError) : e.code ≠ 0x00 ∧ e.code ≠ 0x08 := by
  cases e <;> decide

theorem busError_of_code {e : Ending} (h : e.code = 0x08) : ∃ a, e = .busError a := by
  cases e with
  | success => exact absurd h (by decide)
  | failure e => exact absurd h e.code_ne.2
  | busError a => exact ⟨a, rfl⟩

theorem success_of_code {e : Ending} (h : e.code = 0x00) : e = .success := by
  cases e with
  | success => rfl
  | failure e => exact absurd h e.code_ne.1
  | busError a => exact absurd (show (0x08 : BitVec 8) = 0x00 from h) (by decide)

/-! ## The three commands that make accesses -/

/-- The windows of a command whose checks have passed (R112). -/
theorem mover_windows {i : Instr} (hi : isMover i) {o : Operands} (hc : (commandOf i).check o = none) :
    o.srcBase + o.srcLen ≤ 2 ^ 32 ∧
    (i ≠ .rleSkip → o.dstBase + o.dstLen ≤ 2 ^ 32 ∧ disjointWindows o.srcBase o.srcLen o.dstBase o.dstLen) := by
  by_cases hskip : i = .rleSkip
  · subst hskip
    exact ⟨(skipCheck_none_iff o).1 hc, fun h => absurd rfl h⟩
  · have hmove : moveCheck o = none := by
      rcases hi with rfl | rfl | rfl
      · exact (Option.or_eq_none_iff.1 hc).1
      · exact hc
      · exact absurd rfl hskip
    obtain ⟨hsrc, hdst⟩ := (moveCheck_none_iff o).1 hmove
    exact ⟨hsrc, fun _ => hdst⟩

theorem fits_afterChecks {i : Instr} (hi : isMover i) {s : State} (hc : (commandOf i).check (latch (commandWord i) s) = none) :
    Fits (latch (commandWord i) s) (afterChecks i s).cur := by
  rcases hi with rfl | rfl | rfl
  · exact fits_copyStart ((lengthCheck_none_iff _).1 (Option.or_eq_none_iff.1 hc).2)
  · exact fits_start _
  · exact fits_start _

theorem mover_keeps_fits {i : Instr} (hi : isMover i) {x : Ctx} {p q : Prog} (hf : Fits x.ops p.cur)
    (h : (commandOf i).work x p = .more q) : Fits x.ops q.cur := by
  rcases hi with rfl | rfl | rfl
  · obtain ⟨hr, h⟩ := copyTurn_more h
    obtain ⟨hs, hd⟩ := runAccess_reach hr h
    exact ⟨hs ▸ hf.1, hd ▸ hf.2⟩
  · exact walkTurn_keeps_fits hf h
  · exact walkTurn_keeps_fits hf h

theorem mover_stopsAt {i : Instr} (hi : isMover i) {x : Ctx} {p q : Prog} {a : Nat} (hf : Fits x.ops p.cur)
    (h : (commandOf i).work x p = .done q (.busError a)) :
    q.cur.consumed = p.cur.consumed ∧ q.cur.produced = p.cur.produced ∧ StopsAt x p.cur a := by
  rcases hi with rfl | rfl | rfl
  · exact copyTurn_stopsAt hf h
  · exact walkTurn_stopsAt hf h
  · exact walkTurn_stopsAt hf h

/-- A command that ends with `BUS` has passed its checks. -/
theorem check_of_busCode {i : Instr} (hi : isMover i) {s t : State} (he : s.engine = .idle) (h : exec i s = .next t)
    (hcode : t.errCode = 0x08) : (commandOf i).check (latch (commandWord i) s) = none := by
  cases hc : (commandOf i).check (latch (commandWord i) s) with
  | none => rfl
  | some e =>
    obtain ⟨⟨-, -, hcode', -⟩, -⟩ := exec_mover_fails hi he hc h
    exact absurd (hcode'.symm.trans hcode) e.code_ne.2

/-- A command that ends with `BUS` has stopped at its next access. -/
theorem exec_mover_busError {i : Instr} (hi : isMover i) {s t : State} (he : s.engine = .idle) (h : exec i s = .next t)
    (hcode : t.errCode = 0x08) :
    ∃ (c : Cursor) (a : Nat), StopsAt (issueCtx (commandWord i) s) c a ∧ (i = .rleSkip → c.run = .none) ∧
      t.result = BitVec.ofNat 32 c.consumed ∧ t.outCount = BitVec.ofNat 32 c.produced ∧
      t.faultAddr = BitVec.ofNat 32 a ∧ t.params = s.params := by
  have hc := check_of_busCode hi he h hcode
  obtain ⟨p, q, e, ⟨hf, hr⟩, hq, rfl⟩ := exec_mover_last hi he hc h
    (fun p => Fits (latch (commandWord i) s) p.cur ∧ (i = .rleSkip → p.cur.run = .none))
    ⟨fits_afterChecks hi hc, fun h => by subst h; rfl⟩
    (fun p q hp hq => ⟨mover_keeps_fits hi hp.1 hq, fun h => by
      subst h
      exact walkTurn_skip_between (hp.2 rfl) hq⟩)
  obtain ⟨pa, op, hend⟩ := settle_done_finish i (Running.fresh (commandWord i) s) (issue (commandWord i) s) q e
  rw [hend, finish_errCode] at hcode
  obtain ⟨a, rfl⟩ := busError_of_code hcode
  obtain ⟨hcons, hprod, hstop⟩ := mover_stopsAt hi hf hq
  exact ⟨p.cur, a, hstop, hr, by rw [← hcons]; rfl, by rw [← hprod]; rfl, rfl, rfl⟩

theorem toNat_ofNat_lt {n : Nat} (h : n < 2 ^ 32) : (BitVec.ofNat 32 n).toNat = n := Nat.mod_eq_of_lt h

/-- `RLE_DECODE` of a stream that a bus error stops keeps the bytes it wrote (R125). -/
theorem exec_decode_keeps_bytes {s t : State} (he : s.engine = .idle) (h : exec .rleDecode s = .next t) (hcode : t.errCode = 0x08)
    (hm : Memory.wf s.mem = true) {ps : List StreamItem} (hv : ∀ p ∈ ps, p.valid = true) (hs : (assemble ps).length ≤ s.srcLen)
    (hd : s.dstLen ≤ (expand ps).length) (hb : holdsBytes s.mem s.srcBase (assemble ps)) (a : Nat) :
    Memory.read t.mem a =
      if s.dstBase ≤ a ∧ a < s.dstBase + t.outCount.toNat then (expand ps).getD (a - s.dstBase) 0
      else Memory.read s.mem a := by
  have hc := check_of_busCode (i := .rleDecode) (.inr (.inl rfl)) he h hcode
  obtain ⟨-, hdst⟩ := mover_windows (i := .rleDecode) (.inr (.inl rfl)) hc
  have hx : SourceHolds (issueCtx (commandWord .rleDecode) s) true (assemble ps) s.mem :=
    ⟨rfl, rfl, hb, hs, fun _ => (hdst nofun).2⟩
  obtain ⟨p, q, e, hp, hq, rfl⟩ := exec_walk_moved (.inl ⟨rfl, rfl⟩) he hm hc hx hv hd h
  obtain ⟨pa, op, hend⟩ := settle_done_finish .rleDecode (Running.fresh (commandWord .rleDecode) s)
    (issue (commandWord .rleDecode) s) q e
  rw [hend, finish_errCode] at hcode
  obtain ⟨a', rfl⟩ := busError_of_code hcode
  obtain ⟨-, hprod, -⟩ := walkTurn_stopsAt hp.fits hq
  have hlen : p.cur.produced ≤ s.dstLen := Nat.le_of_add_right_le hp.fits.2
  have hout : (BitVec.ofNat 32 q.cur.produced).toNat = p.cur.produced := by
    rw [hprod]
    exact toNat_ofNat_lt (Nat.lt_of_le_of_lt hlen s.params.dstLen.isLt)
  have hmem := hp.mem a
  simp only [true_and, ← walkTurn_done_mem hq] at hmem
  rw [hend, finish_outCount, hout]
  exact hmem

/-! ## The accesses that were counted -/

/-- The last turn of a walk counts no access that met a bus error, and a success has filled the destination (R113, R125). -/
theorem walkTurn_done_clean {x : Ctx} {p q : Prog} {e : Ending} (hf : Fits x.ops p.cur) (hc : Clean x p.cur)
    (h : walkTurn true x p = .done q e) :
    Clean x q.cur ∧ q.cur.consumed ≤ x.ops.srcLen ∧ (e = .success → x.ops.dstLen ≤ q.cur.produced) := by
  obtain ⟨hs, hd⟩ := hf
  by_cases hr : p.cur.run = .none
  · rcases walkTurn_done_cases hr h with ⟨hfull, rfl, rfl⟩ | ⟨-, -, rfl, rfl⟩ | ⟨-, -, -, rfl, rfl⟩ | ⟨-, hs', hb, rfl, c, rfl, -⟩
    · exact ⟨hc, by omega, fun _ => hfull⟩
    · exact ⟨hc, by omega, nofun⟩
    · exact ⟨hc, by omega, nofun⟩
    · exact ⟨⟨noBusError_succ hc.1 hb, hc.2⟩, hs', nofun⟩
  · rw [walkTurn_run hr] at h
    obtain ⟨⟨run, rfl⟩, ⟨-, rfl, -⟩ | ⟨-, rfl, -⟩⟩ := runAccess_done_cases h <;>
      exact ⟨hc, Nat.le_of_add_right_le hs, nofun⟩

/-- So does the last turn of a `COPY`, whose run ends at the end of the destination (R120, R125). -/
theorem copyTurn_done_clean {x : Ctx} {p q : Prog} {e : Ending} (hf : Fits x.ops p.cur) (hc : Clean x p.cur)
    (hlen : p.cur.produced + p.cur.run.gives = x.ops.dstLen) (h : copyTurn x p = .done q e) :
    Clean x q.cur ∧ q.cur.consumed ≤ x.ops.srcLen ∧ (e = .success → x.ops.dstLen ≤ q.cur.produced) := by
  by_cases hr : p.cur.run = .none
  · rw [copyTurn, if_pos hr] at h
    cases h
    rw [hr, gives_none] at hlen
    exact ⟨hc, Nat.le_of_add_right_le hf.1, fun _ => by omega⟩
  · rw [copyTurn, if_neg hr] at h
    obtain ⟨⟨run, rfl⟩, ⟨-, rfl, -⟩ | ⟨-, rfl, -⟩⟩ := runAccess_done_cases h <;>
      exact ⟨hc, Nat.le_of_add_right_le hf.1, nofun⟩

/-- What a `COPY` or `RLE_DECODE` whose checks pass has counted when it ends. -/
theorem exec_writer_clean {i : Instr} (hi : i = .copy ∨ i = .rleDecode) {s t : State} (he : s.engine = .idle)
    (hc : (commandOf i).check (latch (commandWord i) s) = none) (h : exec i s = .next t) :
    ∃ q e, t = settle (commandOf i).onSuccess (Running.fresh (commandWord i) s) (issue (commandWord i) s) (.done q e) ∧
      Clean (issueCtx (commandWord i) s) q.cur ∧ q.cur.consumed ≤ s.srcLen ∧ q.cur.produced ≤ s.dstLen ∧
      (e = .success → s.dstLen ≤ q.cur.produced) := by
  have hmover : isMover i := hi.imp_right .inl
  have hfits := fits_afterChecks hmover hc
  rcases hi with rfl | rfl
  · obtain ⟨p, q, e, ⟨hf, hclean, hlen⟩, hq, ht⟩ := exec_mover_last hmover he hc h
      (fun p => Fits (latch (commandWord .copy) s) p.cur ∧ Clean (issueCtx (commandWord .copy) s) p.cur ∧
        p.cur.produced + p.cur.run.gives = s.dstLen)
      ⟨hfits, ⟨nofun, nofun⟩, (Nat.zero_add _).trans (copyRun_left s.dstLen).2⟩
      (fun p q hp hq => by
        obtain ⟨hf, hclean, hlen⟩ := hp
        obtain ⟨hr, hrun⟩ := copyTurn_more hq
        exact ⟨mover_keeps_fits hmover hf hq, runAccess_keeps_clean hclean hr hrun, (runAccess_reach hr hrun).2.trans hlen⟩)
    obtain ⟨hclean', hs, hfull⟩ := copyTurn_done_clean hf hclean hlen hq
    exact ⟨q, e, ht, hclean', hs, copyTurn_done_produced hq ▸ Nat.le_of_add_right_le hf.2, hfull⟩
  · obtain ⟨p, q, e, ⟨hf, hclean⟩, hq, ht⟩ := exec_mover_last hmover he hc h
      (fun p => Fits (latch (commandWord .rleDecode) s) p.cur ∧ Clean (issueCtx (commandWord .rleDecode) s) p.cur)
      ⟨hfits, nofun, nofun⟩
      (fun p q hp hq => ⟨mover_keeps_fits hmover hp.1 hq, walkTurn_keeps_clean hp.2 hq⟩)
    obtain ⟨hclean', hs, hfull⟩ := walkTurn_done_clean hf hclean hq
    exact ⟨q, e, ht, hclean', hs, walkTurn_done_produced hq ▸ Nat.le_of_add_right_le hf.2, hfull⟩

/-- No access that a `COPY` or `RLE_DECODE` counts has met a bus error, whatever its ending. -/
theorem exec_writer_counts_clean {i : Instr} (hi : i = .copy ∨ i = .rleDecode) {s t : State} (he : s.engine = .idle)
    (h : exec i s = .next t) :
    noBusError s.platform .read s.srcBase t.result.toNat ∧ noBusError s.platform .write s.dstBase t.outCount.toNat ∧
    (t.errCode = 0 → noBusError s.platform .write s.dstBase s.dstLen) := by
  cases hc : (commandOf i).check (latch (commandWord i) s) with
  | some e =>
    obtain ⟨⟨-, -, hcode, -, hres, hout, -⟩, -⟩ := exec_mover_fails (hi.imp_right .inl) he hc h
    rw [hres, hout, hcode]
    exact ⟨nofun, nofun, fun h0 => absurd h0 e.code_ne.1⟩
  | none =>
    obtain ⟨q, e, rfl, ⟨hread, hwrite⟩, hs, hd, hfull⟩ := exec_writer_clean hi he hc h
    obtain ⟨pa, op, hend⟩ := settle_done_finish i (Running.fresh (commandWord i) s) (issue (commandWord i) s) q e
    rw [hend, finish_result, finish_outCount, finish_errCode, toNat_ofNat_lt (Nat.lt_of_le_of_lt hs s.params.srcLen.isLt),
      toNat_ofNat_lt (Nat.lt_of_le_of_lt hd s.params.dstLen.isLt)]
    refine ⟨hread, hwrite, fun h0 j hj => hwrite j ?_⟩
    exact Nat.lt_of_lt_of_le hj (hfull (success_of_code h0))

/-- Settles O30. -/
theorem codecBusErrorStopsAtItsAccess : Obligations.CodecBusErrorStopsAtItsAccess := by
  refine ⟨fun i s t hi he h hcode => ?_, fun i s t hi he h => exec_writer_counts_clean hi he h,
    fun s r write g hready hb => ?_⟩
  · obtain ⟨c, a, hstop, hskip, hres, hout, hfault, hpar⟩ := exec_mover_busError hi he h hcode
    obtain ⟨hsrc, hdst⟩ := mover_windows hi (check_of_busCode hi he h hcode)
    simp only [latch_srcBase, latch_srcLen, latch_dstBase, latch_dstLen] at hsrc hdst
    refine ⟨hpar, ?_, fun hi hm ps hv hs hd hbytes => ?_⟩
    · have hsl := s.params.srcLen.isLt
      have hdl := s.params.dstLen.isLt
      rw [hres, hout, hfault]
      rcases hstop with ⟨hb, rfl, hlt⟩ | ⟨hr, hb, rfl, hlt⟩
      · simp only [latch_srcBase, latch_srcLen] at hb hlt ⊢
        rw [toNat_ofNat_lt (n := c.consumed) (by omega), toNat_ofNat_lt (by omega)]
        exact .inl ⟨hb, rfl, hlt⟩
      · have hne : i ≠ .rleSkip := fun h => hr (hskip h)
        obtain ⟨hdst, -⟩ := hdst hne
        simp only [latch_dstBase, latch_dstLen] at hb hlt ⊢
        rw [toNat_ofNat_lt (n := c.produced) (by omega), toNat_ofNat_lt (n := s.dstBase + c.produced) (by omega)]
        exact .inr ⟨hne, hb, rfl, hlt⟩
    · subst hi
      exact exec_decode_keeps_bytes he h hcode hm hv hs hd hbytes
  · obtain ⟨he, hw, hstart, hr, hd, hs, -⟩ := hready
    exact engineStep_walk_fails he hw hstart (e := .busError (r.ops.srcBase + r.cur.consumed)) nofun
      (walkTurn_busError (x := r.ctx s) hr hd hs hb) g

end Sys2Proof.Machine
end

-- PROOFS, part 18: skipping follows decoding
section
/-! `RLE_SKIP` follows `RLE_DECODE` packet by packet, and `SKIP` ends as `COPY` does (40_codec.md R126). -/

namespace Sys2Proof.Machine

/-! ## The simulation -/

/-- A skip `q`, in memory `m`, stands where the run in progress of the decode `p` will end. -/
structure Follows (m : Memory) (p q : Prog) : Prop where
  mem      : q.mem = m
  started  : q.cur.started = true
  between  : q.cur.run = .none
  consumed : q.cur.consumed = p.cur.consumed + p.cur.run.needs
  produced : q.cur.produced = p.cur.produced + p.cur.run.gives

/-- The skip `y` has the lengths of the decode `x`, and meets no bus error in its source window. -/
structure SameLengths (x y : Ctx) : Prop where
  srcLen : y.ops.srcLen = x.ops.srcLen
  dstLen : y.ops.dstLen = x.ops.dstLen
  clean  : noBusError y.view.platform .read y.ops.srcBase y.ops.srcLen

section
variable {x y : Ctx} {m : Memory} {p p' q : Prog}

/-- While the decode moves the bytes of a run, the skip waits. -/
theorem Follows.access (h : Follows m p q) (hr : p.cur.run ≠ .none) (hp : runAccess x p = .more p') : Follows m p' q := by
  obtain ⟨hs, hd⟩ := runAccess_reach hr hp
  exact ⟨h.mem, h.started, h.between, h.consumed.trans hs.symm, h.produced.trans hd.symm⟩

theorem Follows.cursors (h : Follows m p q) (hr : p.cur.run = .none) :
    q.cur.consumed = p.cur.consumed ∧ q.cur.produced = p.cur.produced := by
  rw [h.consumed, h.produced, hr]
  exact ⟨rfl, rfl⟩

/-- The check of a run depends on the lengths and the two cursors alone. -/
theorem SameLengths.runCheck_eq (hxy : SameLengths x y) {c c' : Cursor} (hs : c'.consumed = c.consumed)
    (hd : c'.produced = c.produced) (n need : Nat) : runCheck y.ops n need c' = runCheck x.ops n need c := by
  rw [runCheck, runCheck, hxy.srcLen, hxy.dstLen, hs, hd]

/-- Where the decode begins a packet, the skip counts it. -/
theorem Follows.packet (hxy : SameLengths x y) (h : Follows m p q) (hr : p.cur.run = .none)
    (hb : p.cur.consumed < x.ops.srcLen → nextByte y q = nextByte x p) (hp : walkTurn true x p = .more p') :
    ∃ q', walkTurn false y q = .more q' ∧ Follows m p' q' := by
  obtain ⟨hcons, hprod⟩ := h.cursors hr
  rcases walkTurn_more_cases hp with ⟨hr', -⟩ | ⟨-, hd, hs, -, hout, hdata, hp'⟩
  · exact absurd hr hr'
  · have hs' : q.cur.consumed < y.ops.srcLen := by rw [hcons, hxy.srcLen]; exact hs
    obtain ⟨hreach, hreach'⟩ := packet_reach (write := true) hr _ hp'
    refine ⟨passOver (packetData (decodeControl (nextByte x p))) (packetOutput (decodeControl (nextByte x p))) q.took, ?_,
      h.mem, h.started, h.between, ?_, ?_⟩
    · rw [walkTurn_packet h.between (by rw [hprod, hxy.dstLen]; exact hd) hs' (hxy.clean _ hs'), hb hs,
        startPacket_eq _ false y.ops (p := q.took) h.between,
        hxy.runCheck_eq (c := p.took.cur) (c' := q.took.cur) (congrArg (· + 1) hcons) hprod,
        runCheck_fits (c := p.took.cur) hout hdata]
      rfl
    · rw [hreach, passOver_consumed, took_consumed, hcons]
    · rw [hreach', passOver_produced, took_produced, hprod]

/-- Where the decode ends between two packets, but for a bus error, the skip ends in the same way. -/
theorem Follows.done (hxy : SameLengths x y) (h : Follows m p q) (hr : p.cur.run = .none)
    (hb : p.cur.consumed < x.ops.srcLen → nextByte y q = nextByte x p) {e : Ending} (he : ∀ a, e ≠ .busError a)
    (hp : walkTurn true x p = .done p' e) :
    ∃ q', walkTurn false y q = .done q' e ∧ q'.cur.consumed = p'.cur.consumed ∧ q'.cur.produced = p'.cur.produced := by
  obtain ⟨hcons, hprod⟩ := h.cursors hr
  have hslen := hxy.srcLen
  have hdlen := hxy.dstLen
  rcases walkTurn_done_cases hr hp with ⟨hd, rfl, rfl⟩ | ⟨hd, hs, rfl, rfl⟩ | ⟨-, -, -, -, rfl⟩ | ⟨hd, hs, -, rfl, c, rfl, hc⟩
  · exact ⟨q, walkTurn_full h.between (by omega), hcons, hprod⟩
  · exact ⟨q, walkTurn_exhausted h.between (by omega) (by omega), hcons, hprod⟩
  · exact absurd rfl (he _)
  · refine ⟨q.took, ?_, congrArg (· + 1) hcons, hprod⟩
    rw [walkTurn_packet h.between (by omega) (by omega) (hxy.clean _ (by omega)), hb hs,
      startPacket_eq _ false y.ops (p := q.took) h.between,
      hxy.runCheck_eq (c := p.took.cur) (c' := q.took.cur) (congrArg (· + 1) hcons) hprod, hc]

end

/-! ## Decode and skip of the same source -/

theorem iterate_done_unique {f : Prog → UnitResult} {m n : Nat} {p q q' : Prog} {e e' : Ending} (h : iterate f m p = .done q e)
    (h' : iterate f n p = .done q' e') : q = q' ∧ e = e' := by
  have heq := (iterate_done_le h (Nat.le_max_left m n)).symm.trans (iterate_done_le h' (Nat.le_max_right m n))
  cases heq
  exact ⟨rfl, rfl⟩

theorem fits_of_walkOk {o : Operands} {c : Cursor} (h : walkOk o c) : Fits o c := by
  obtain ⟨hs, hd, hrun⟩ := h
  unfold Fits
  generalize c.run = run at hrun ⊢
  match run, hrun with
  | .none, _ => exact ⟨hs, hd⟩
  | .copying _ .none, hrun => exact hrun
  | .copying _ (some _), hrun => exact hrun
  | .fetching _, hrun => exact hrun
  | .filling _ _, hrun => exact ⟨hs, hrun⟩

/-- The two states of R126: the same operands and the same source bytes. -/
structure SameSource (s₁ s₂ : State) : Prop where
  idle₁ : s₁.engine = .idle
  idle₂ : s₂.engine = .idle
  wf₁   : Memory.wf s₁.mem = true
  src₁  : sourceReady s₁
  dst₁  : destReady s₁
  src₂  : sourceReady s₂
  base  : s₂.srcBase = s₁.srcBase
  slen  : s₂.srcLen = s₁.srcLen
  dlen  : s₂.dstLen = s₁.dstLen
  bytes : ∀ j, j < s₁.srcLen → Memory.read s₂.mem (s₁.srcBase + j) = Memory.read s₁.mem (s₁.srcBase + j)

section
variable {s₁ s₂ : State}

/-- What the decode computes from, and the skip. -/
abbrev decodeCtx (s : State) : Ctx := issueCtx (commandWord .rleDecode) s
abbrev skipCtx (s : State) : Ctx := issueCtx (commandWord .rleSkip) s

theorem SameSource.lengths (h : SameSource s₁ s₂) : SameLengths (decodeCtx s₁) (skipCtx s₂) :=
  ⟨h.slen, h.dlen, h.src₂.2⟩

/-- The decode at one of its accesses, and the skip that follows it. -/
structure Together (s₁ s₂ : State) (p : Prog) : Prop where
  wf     : Memory.wf p.mem = true
  ok     : walkOk (decodeCtx s₁).ops p.cur
  stores : StoresInside .rleDecode (decodeCtx s₁).ops (walkStart s₁) p
  skip   : ∃ k q, iterate (rleSkipCommand.unit (skipCtx s₂)) k (walkStart s₂) = .more q ∧ Follows s₂.mem p q

/-- Both read the same control byte. -/
theorem Together.nextByte_eq (h : SameSource s₁ s₂) {p q : Prog} (hp : Together s₁ s₂ p) (hq : Follows s₂.mem p q)
    (hr : p.cur.run = .none) (hs : p.cur.consumed < s₁.srcLen) : nextByte (skipCtx s₂) q = nextByte (decodeCtx s₁) p := by
  have hout : ¬ storeWindow (decodeCtx s₁).ops p.cur (s₁.srcBase + p.cur.consumed) .rleDecode := by
    intro hin
    obtain ⟨hlo, hhi⟩ := hin
    obtain ⟨-, hd, -⟩ := hp.ok
    obtain ⟨-, -, hdis⟩ := h.dst₁
    simp only [latch_dstBase, latch_dstLen] at hlo hhi hd
    omega
  calc nextByte (skipCtx s₂) q = Memory.read s₂.mem (s₁.srcBase + p.cur.consumed) := by
        rw [← hq.mem, ← (hq.cursors hr).1, ← h.base]
        rfl
    _ = Memory.read s₁.mem (s₁.srcBase + p.cur.consumed) := h.bytes _ hs
    _ = nextByte (decodeCtx s₁) p := (hp.stores _ hout).2.symm

theorem together_start (h : SameSource s₁ s₂) : Together s₁ s₂ (walkStart s₁) :=
  ⟨h.wf₁, ⟨Nat.zero_le _, Nat.zero_le _, trivial⟩, .refl _ _ _, 0, walkStart s₂, rfl, rfl, rfl, rfl, rfl, rfl⟩

theorem Together.turn (h : SameSource s₁ s₂) {p p' : Prog} (hp : Together s₁ s₂ p)
    (ht : walkTurn true (decodeCtx s₁) p = .more p') : Together s₁ s₂ p' := by
  obtain ⟨hwf, hok, -⟩ := walkTurn_keeps (x := decodeCtx s₁) (.inr h.dst₁.1) hp.wf hp.ok ht
  refine ⟨hwf, hok, hp.stores.trans (walkTurn_storesInside hp.wf ht), ?_⟩
  obtain ⟨k, q, hk, hq⟩ := hp.skip
  by_cases hr : p.cur.run = .none
  · obtain ⟨q', hturn, hq'⟩ := hq.packet h.lengths hr (hp.nextByte_eq h hq hr) ht
    refine ⟨k + 1, q', ?_, hq'⟩
    rw [iterate_add, hk]
    exact (iterate_one _ _).trans ((Command.unit_started hq.started).trans hturn)
  · rw [walkTurn_run hr] at ht
    exact ⟨k, q, hk, hq.access hr ht⟩

/-- The decode ends, and the skip ends with the same ending and the same cursors. -/
theorem Together.done (h : SameSource s₁ s₂) {p p' : Prog} {e : Ending} (hp : Together s₁ s₂ p)
    (ht : walkTurn true (decodeCtx s₁) p = .done p' e) :
    ∃ k q', iterate (rleSkipCommand.unit (skipCtx s₂)) k (walkStart s₂) = .done q' e ∧
      q'.cur.consumed = p'.cur.consumed ∧ q'.cur.produced = p'.cur.produced := by
  have hbus : ∀ a, e ≠ .busError a := by
    rintro a rfl
    obtain ⟨-, -, ⟨hb, -, hlt⟩ | ⟨-, hb, -, hlt⟩⟩ := walkTurn_stopsAt (fits_of_walkOk hp.ok) ht
    · cases (h.src₁.2 _ hlt).symm.trans hb
    · cases (h.dst₁.2.1 _ hlt).symm.trans hb
  by_cases hr : p.cur.run = .none
  · obtain ⟨k, q, hk, hq⟩ := hp.skip
    obtain ⟨q', hturn, hcur⟩ := hq.done h.lengths hr (hp.nextByte_eq h hq hr) hbus ht
    refine ⟨k + 1, q', ?_, hcur⟩
    rw [iterate_add, hk]
    exact (iterate_one _ _).trans ((Command.unit_started hq.started).trans hturn)
  · rw [walkTurn_run hr] at ht
    obtain ⟨-, ⟨-, he, -⟩ | ⟨-, he, -⟩⟩ := runAccess_done_cases ht <;> exact absurd he (hbus _)

/-- `RLE_SKIP` ends as `RLE_DECODE` (R126). -/
theorem SameSource.rleSkip_ends {t u : State} (h : SameSource s₁ s₂) (ht : exec .rleDecode s₁ = .next t)
    (hu : exec .rleSkip s₂ = .next u) : u.errCode = t.errCode ∧ u.result = t.result ∧ u.outCount = t.outCount := by
  have hc₁ : moveCheck (latch (commandWord .rleDecode) s₁) = none :=
    moveCheck_pass (o := latch (commandWord .rleDecode) s₁) h.src₁.1 h.dst₁.1 h.dst₁.2.2
  have hc₂ : skipCheck (latch (commandWord .rleSkip) s₂) = none := (skipCheck_none_iff _).2 h.src₂.1
  obtain ⟨p, p', e, hp, hturn, rfl⟩ := exec_walk_last (.inl ⟨rfl, rfl⟩) h.idle₁ hc₁ ht (Together s₁ s₂) (together_start h)
    (fun _ _ hp hq => hp.turn h hq)
  obtain ⟨k, q', hq', hcons, hprod⟩ := hp.done h hturn
  obtain ⟨n, q, e', hq, rfl⟩ := exec_command_ends (i := .rleSkip) rfl h.idle₂ hu
  have henter : rleSkipCommand.unit (skipCtx s₂) ⟨s₂.mem, Cursor.fresh⟩ = .more (walkStart s₂) := Command.unit_enters rfl hc₂
  obtain ⟨rfl, rfl⟩ := iterate_done_unique hq ((iterate_succ_more henter k).trans hq')
  obtain ⟨pa, op, hend⟩ := settle_done_finish .rleDecode (Running.fresh (commandWord .rleDecode) s₁)
    (issue (commandWord .rleDecode) s₁) p' e'
  obtain ⟨pa', op', hend'⟩ := settle_done_finish .rleSkip (Running.fresh (commandWord .rleSkip) s₂)
    (issue (commandWord .rleSkip) s₂) q e'
  rw [hend, hend', finish_result, finish_result, finish_outCount, finish_outCount, hcons, hprod]
  exact ⟨rfl, rfl, rfl⟩

/-- `SKIP` ends as `COPY` (R126): both succeed over `DST_LEN` bytes, or both find the source too short. -/
theorem SameSource.skip_ends {t u : State} (h : SameSource s₁ s₂) (ht : exec .copy s₁ = .next t) (hu : exec .skip s₂ = .next u) :
    u.errCode = t.errCode ∧ u.result = t.result ∧ u.outCount = t.outCount := by
  obtain ⟨hsrc, hread⟩ := h.src₁
  obtain ⟨hdst, hwrite, hdis⟩ := h.dst₁
  have hsame : ∀ {w w' : Word} {code : BitVec 8} {fault fault' : Word} {n m : Nat}, completed w code fault n m s₁ t →
      completed w' code fault' n m s₂ u → u.errCode = t.errCode ∧ u.result = t.result ∧ u.outCount = t.outCount := by
    rintro w w' code fault fault' n m ⟨-, -, hcode, -, hres, hout, -⟩ ⟨-, -, hcode', -, hres', hout', -⟩
    exact ⟨hcode'.trans hcode.symm, hres'.trans hres.symm, hout'.trans hout.symm⟩
  obtain ⟨-, hshort, hlong⟩ := skipCountsWithoutAccess s₂ h.idle₂
  by_cases hlen : s₁.dstLen ≤ s₁.srcLen
  · obtain ⟨t', ht', hcopy, -⟩ := copyMovesTheBytes s₁ ⟨h.idle₁, h.wf₁, hlen, ⟨hsrc, hread⟩, hdst, hwrite, hdis⟩
    obtain ⟨u', hu', hskip, -⟩ := hlong h.src₂.1 (by rw [h.dlen, h.slen]; exact hlen)
    rw [ht] at ht'
    rw [hu] at hu'
    cases ht'
    cases hu'
    rw [h.dlen] at hskip
    exact hsame hcopy hskip
  · obtain ⟨-, -, hover⟩ := copyChecksInOrder s₁ h.idle₁
    obtain ⟨t', ht', hcopy, -⟩ := hover hsrc hdst hdis (by omega)
    obtain ⟨u', hu', hskip, -⟩ := hshort h.src₂.1 (by rw [h.dlen, h.slen]; omega)
    rw [ht] at ht'
    rw [hu] at hu'
    cases ht'
    cases hu'
    exact hsame hcopy hskip

end

/-- Settles O23: by simulation for the walks, by the statements about each command for `COPY` and `SKIP`. -/
theorem skipEqualsDecode : Obligations.SkipEqualsDecode := by
  intro s₁ s₂ t u he₁ he₂ hm hsrc₁ hdst₁ hsrc₂ hbase hslen hdlen hbytes
  have h : SameSource s₁ s₂ := ⟨he₁, he₂, hm, hsrc₁, hdst₁, hsrc₂, congrArg BitVec.toNat hbase, congrArg BitVec.toNat hslen,
    congrArg BitVec.toNat hdlen, hbytes⟩
  exact ⟨h.rleSkip_ends, h.skip_ends⟩

end Sys2Proof.Machine
end

-- PROOFS, part 19: the transpose network
section
/-! The merge-exchange network of R148 with the permutation of R149, followed bit by bit: every pass moves bits between places, and
the four together, read from the permuted words, are the transpose of R144. -/

namespace Sys2Proof.Machine

/-! ## One pass (R148) -/

/-- The bit at a place of the eight words: the number of its word, and its number in the word. -/
def bitAt (w : List Half) (place : Nat × Nat) : Bool := (w.getD place.1 0).getLsbD place.2

/-- Where a pass finds the bit that it puts at a place. A bit of a lower word that the mask marks and the bit of the upper word `s`
places to its left change places, the others stay. -/
def exchangedPlace (s : Nat) (m : Half) (δ : Nat) (place : Nat × Nat) : Nat × Nat :=
  if place.1 &&& δ = 0 then (if m.getLsbD place.2 then (place.1 + δ, place.2 + s) else place)
  else if m.getLsbD place.2 then place else (place.1 - δ, place.2 - s)

theorem networkPass_getD (s : Nat) (m : Half) (δ : Nat) (w : List Half) {j : Nat} (hj : j < 8) :
    (networkPass s m δ w).getD j 0 =
      if j &&& δ = 0 then w.getD j 0 ^^^ exchangeBits s m (w.getD j 0) (w.getD (j + δ) 0)
      else w.getD j 0 ^^^ (exchangeBits s m (w.getD (j - δ) 0) (w.getD j 0) <<< s) := by
  simp [networkPass, hj]

theorem exchangeBits_getLsbD (s : Nat) (m lower upper : Half) (b : Nat) :
    (exchangeBits s m lower upper).getLsbD b = ((upper.getLsbD (b + s) ^^ lower.getLsbD b) && m.getLsbD b) := by
  simp [exchangeBits, Nat.add_comm]

/-- The lower word of a pair takes the marked bits from the upper one. -/
theorem lower_getLsbD (s : Nat) (m lower upper : Half) (b : Nat) :
    (lower ^^^ exchangeBits s m lower upper).getLsbD b = if m.getLsbD b then upper.getLsbD (b + s) else lower.getLsbD b := by
  rw [BitVec.getLsbD_xor, exchangeBits_getLsbD]
  cases m.getLsbD b
  · simp
  · cases lower.getLsbD b <;> simp

/-- The upper word of a pair takes from the lower one the bits that the mask does not mark, where the mask marks one half of a word
and, shifted, the other. -/
theorem upper_getLsbD {s : Nat} {m : Half} (hm : m <<< s = ~~~m) (lower upper : Half) {b : Nat} (hb : b < 16) :
    (upper ^^^ (exchangeBits s m lower upper <<< s)).getLsbD b =
      if m.getLsbD b then upper.getLsbD b else lower.getLsbD (b - s) := by
  have hhalf : (!decide (b < s) && m.getLsbD (b - s)) = !m.getLsbD b := by
    have hbit := congrArg (BitVec.getLsbD · b) hm
    simpa only [BitVec.getLsbD_shiftLeft, BitVec.getLsbD_not, hb, decide_true, Bool.true_and] using hbit
  have hshift : (exchangeBits s m lower upper <<< s).getLsbD b =
      ((upper.getLsbD b ^^ lower.getLsbD (b - s)) && !m.getLsbD b) := by
    rw [← hhalf, BitVec.getLsbD_shiftLeft, exchangeBits_getLsbD]
    by_cases hs : b < s
    · simp [hs]
    · rw [Nat.sub_add_cancel (Nat.le_of_not_lt hs)]
      simp [hb, hs]
  rw [BitVec.getLsbD_xor, hshift]
  cases m.getLsbD b
  · cases upper.getLsbD b <;> simp
  · simp

/-- What makes a shift, a mask and a distance a pass: the mask and the shifted mask mark the two halves of a word, and the exchange
stays inside the eight words. -/
structure IsPass (s : Nat) (m : Half) (δ : Nat) : Prop where
  halves : m <<< s = ~~~m
  inside : ∀ j, j < 8 → ∀ b, b < 16 → (exchangedPlace s m δ (j, b)).1 < 8 ∧ (exchangedPlace s m δ (j, b)).2 < 16

/-- A pass is its exchange of places. -/
theorem IsPass.bitAt_networkPass {s : Nat} {m : Half} {δ : Nat} (h : IsPass s m δ) (w : List Half) {place : Nat × Nat}
    (hp : place.1 < 8 ∧ place.2 < 16) : bitAt (networkPass s m δ w) place = bitAt w (exchangedPlace s m δ place) := by
  simp only [bitAt, exchangedPlace, networkPass_getD s m δ w hp.1]
  by_cases hlow : place.1 &&& δ = 0
  · rw [if_pos hlow, if_pos hlow, lower_getLsbD]
    cases m.getLsbD place.2 <;> rfl
  · rw [if_neg hlow, if_neg hlow, upper_getLsbD h.halves _ _ hp.2]
    cases m.getLsbD place.2 <;> rfl

/-! ## The four passes, between the load and the permutation -/

theorem isPass_8 : IsPass 8 0x00FF 4 := ⟨by decide, by decide⟩
theorem isPass_4 : IsPass 4 0x0F0F 2 := ⟨by decide, by decide⟩
theorem isPass_2 : IsPass 2 0x3333 1 := ⟨by decide, by decide⟩
theorem isPass_1 : IsPass 1 0x5555 4 := ⟨by decide, by decide⟩

/-- Where the four passes find the bit that they put at a place: back through the passes, the last one first. -/
def loadedPlace (place : Nat × Nat) : Nat × Nat :=
  exchangedPlace 8 0x00FF 4 (exchangedPlace 4 0x0F0F 2 (exchangedPlace 2 0x3333 1 (exchangedPlace 1 0x5555 4 place)))

theorem bitAt_networkPasses (w : List Half) {place : Nat × Nat} (hp : place.1 < 8 ∧ place.2 < 16) :
    bitAt (networkPasses w) place = bitAt w (loadedPlace place) := by
  have h1 := isPass_1.inside _ hp.1 _ hp.2
  have h2 := isPass_2.inside _ h1.1 _ h1.2
  have h4 := isPass_4.inside _ h2.1 _ h2.2
  rw [networkPasses, isPass_1.bitAt_networkPass _ hp, isPass_2.bitAt_networkPass _ h1, isPass_4.bitAt_networkPass _ h2,
    isPass_8.bitAt_networkPass _ h4]
  rfl

/-- Which bit of which pixel the load puts at a place: two pixels to a word, the even one in its high byte. -/
def pixelAtPlace (place : Nat × Nat) : Nat × Nat := (2 * place.1 + (1 - place.2 / 8), place.2 % 8)

theorem bitAt_networkLoad (px : List Byte) {place : Nat × Nat} (hp : place.1 < 8 ∧ place.2 < 16) :
    bitAt (networkLoad px) place = (px.getD (pixelAtPlace place).1 0).getLsbD (pixelAtPlace place).2 := by
  obtain ⟨hj, hb⟩ := hp
  have hget : (networkLoad px).getD place.1 0 = px.getD (2 * place.1) 0 ++ px.getD (2 * place.1 + 1) 0 := by
    simp [networkLoad, hj]
  rw [bitAt, hget, BitVec.getLsbD_append]
  unfold pixelAtPlace
  by_cases hlow : place.2 < 8
  · rw [if_pos hlow, Nat.div_eq_of_lt hlow, Nat.mod_eq_of_lt hlow]
  · rw [if_neg hlow, show place.2 / 8 = 1 by omega, show place.2 % 8 = place.2 - 8 by omega]
    rfl

/-- The permutation and the passes turn the place of bit `b` of plane `p` into that of bit `p` of pixel `15 - b` (R149). -/
theorem pixelAtPlace_planeSource : ∀ p, p < 8 → ∀ b, b < 16 →
    (loadedPlace (planeSource.getD p 0, b)).1 < 8 ∧ (loadedPlace (planeSource.getD p 0, b)).2 < 16 ∧
      planeSource.getD p 0 < 8 ∧ pixelAtPlace (loadedPlace (planeSource.getD p 0, b)) = (15 - b, p) := by
  decide

/-! ## The transpose (R144) -/

theorem planeWord_getLsbD (px : List Byte) (p : Nat) {b : Nat} (hb : b < 16) :
    (planeWord px p).getLsbD b = (px.getD (15 - b) 0).getLsbD p := by
  simp [planeWord, hb]

/-- The network gives the word of each plane. -/
theorem networkPlanes_getD (px : List Byte) {p : Nat} (hp : p < 8) : (networkPlanes px).getD p 0 = planeWord px p := by
  refine BitVec.eq_of_getLsbD_eq fun b hb => ?_
  obtain ⟨hj, hb', hk, hplace⟩ := pixelAtPlace_planeSource p hp b hb
  have hsource : (networkPlanes px).getD p 0 = (networkPasses (networkLoad px)).getD (planeSource.getD p 0) 0 := by
    have hlen : p < planeSource.length := hp
    simp [networkPlanes, hlen]
  calc ((networkPlanes px).getD p 0).getLsbD b
      = bitAt (networkPasses (networkLoad px)) (planeSource.getD p 0, b) := by rw [hsource, bitAt]
    _ = bitAt (networkLoad px) (loadedPlace (planeSource.getD p 0, b)) := bitAt_networkPasses _ ⟨hk, hb⟩
    _ = (px.getD (15 - b) 0).getLsbD p := by rw [bitAt_networkLoad px ⟨hj, hb'⟩, hplace]
    _ = (planeWord px p).getLsbD b := (planeWord_getLsbD px p hb).symm

/-- Settles O34: plane by plane, and bit by bit. -/
theorem networkComputesTheTranspose : Obligations.NetworkComputesTheTranspose := by
  intro px _
  refine List.ext_getElem rfl fun p hp hp' => ?_
  calc (networkPlanes px)[p] = (networkPlanes px).getD p 0 := (List.getD_eq_getElem _ _ hp).symm
    _ = planeWord px p := networkPlanes_getD px hp
    _ = ((List.range 8).map (planeWord px))[p] := by simp

end Sys2Proof.Machine
end

-- PROOFS, part 20: the statements about the checks of the transpose
section
/-! The checks of `TRANSPOSE_ROW` in their order (41_transpose.md R142, R145, 60_exceptions.md R202). -/

namespace Sys2Proof.Machine

/-! ## The operands at issue (R140, R141) -/

@[simp] theorem latch_width (w : Word) (s : State) : (latch w s).width = s.width := rfl
@[simp] theorem latch_depth (w : Word) (s : State) : (latch w s).depth = s.depth := rfl
@[simp] theorem latch_groups (w : Word) (s : State) : (latch w s).groups = s.groups := rfl

/-! ## Each check that fails -/

theorem windowsShare_of_not_disjoint {a n b m : Nat} (h : ¬ disjointWindows a n b m) : windowsShare a n b m = true := by
  rw [← Bool.not_eq_false, windowsShare_false_iff]
  exact h

theorem depthCheck_iff (o : Operands) :
    (decide (o.depth < 1) || decide (Config.maxDepth < o.depth)) = true ↔ o.depth < 1 ∨ 8 < o.depth := by
  rw [Bool.or_eq_true, decide_eq_true_iff, decide_eq_true_iff, Config.maxDepth]

theorem addrCheck_iff (o : Operands) :
    (windowWraps o.pixelBase o.width || (List.range o.depth).any fun p => windowWraps (o.planeRow p) o.rowBytes) = true ↔
      2 ^ 32 < o.pixelBase + o.width ∨ ∃ p, p < o.depth ∧ 2 ^ 32 < o.planeRow p + o.rowBytes := by
  simp only [Bool.or_eq_true, List.any_eq_true, List.mem_range, windowWraps_iff]

theorem transposeCheck_arg {o : Operands} (h : o.depth < 1 ∨ 8 < o.depth) : transposeCheck o = some .arg := by
  rw [transposeCheck, if_pos ((depthCheck_iff o).2 h)]

theorem transposeCheck_addr {o : Operands} (h1 : 1 ≤ o.depth) (h8 : o.depth ≤ 8)
    (h : 2 ^ 32 < o.pixelBase + o.width ∨ ∃ p, p < o.depth ∧ 2 ^ 32 < o.planeRow p + o.rowBytes) :
    transposeCheck o = some .addr := by
  rw [transposeCheck, if_neg (by rw [depthCheck_iff]; omega), if_pos ((addrCheck_iff o).2 h)]

theorem transposeCheck_overlap {o : Operands} (h1 : 1 ≤ o.depth) (h8 : o.depth ≤ 8) (hs : o.pixelBase + o.width ≤ 2 ^ 32)
    (hp : ∀ p, p < o.depth → o.planeRow p + o.rowBytes ≤ 2 ^ 32)
    (h : (∃ p, p < o.depth ∧ ¬ disjointWindows o.pixelBase o.width (o.planeRow p) o.rowBytes) ∨
      (1 < o.depth ∧ 0 < o.rowBytes ∧ o.planeStride < o.rowBytes)) : transposeCheck o = some .overlap := by
  have haddr : ¬ (2 ^ 32 < o.pixelBase + o.width ∨ ∃ p, p < o.depth ∧ 2 ^ 32 < o.planeRow p + o.rowBytes) := by
    rintro (hlt | ⟨p, hpd, hlt⟩)
    · exact absurd hs (Nat.not_le_of_lt hlt)
    · exact absurd (hp p hpd) (Nat.not_le_of_lt hlt)
  rw [transposeCheck, if_neg (by rw [depthCheck_iff]; omega), if_neg (mt (addrCheck_iff o).1 haddr)]
  rcases h with ⟨p, hpd, hnot⟩ | hplanes
  · have hshare : (List.range o.depth).any (fun p => windowsShare o.pixelBase o.width (o.planeRow p) o.rowBytes) = true :=
      List.any_eq_true.2 ⟨p, List.mem_range.2 hpd, windowsShare_of_not_disjoint hnot⟩
    rw [if_pos hshare]
  · simp [hplanes]

/-- When the checks pass (R142, R145). -/
theorem transposeCheck_pass {s : State} (h : transposeReady s) : transposeCheck (latch (commandWord .transposeRow) s) = none := by
  obtain ⟨-, -, h1, h8, hs, -, hp, hstride⟩ := h
  refine (transposeCheck_none_iff _).2 ⟨h1, h8, hs, fun p hpd => (hp p hpd).1, fun p hpd => ?_, ?_⟩
  · exact (windowsShare_false_iff ..).2 (hp p hpd).2.2
  · exact hstride.imp Nat.le_of_eq .inr

/-- Settles O33. -/
theorem transposeChecksInOrder : Obligations.TransposeChecksInOrder := by
  intro s he
  have hfail : ∀ e, transposeCheck (latch (commandWord .transposeRow) s) = some e →
      ∃ t, exec .transposeRow s = .next t ∧ failsAtOnce 0x00000020 e.code s t :=
    fun e hc => exec_fails_at_once (i := .transposeRow) rfl (by decide) he hc
  exact ⟨fun h => hfail .arg (transposeCheck_arg h), fun h1 h8 h => hfail .addr (transposeCheck_addr h1 h8 h),
    fun h1 h8 hs hp h => hfail .overlap (transposeCheck_overlap h1 h8 hs hp h)⟩

end Sys2Proof.Machine
end

-- PROOFS, part 21: the transpose, access by access
section
/-! SUPPORT. The plane bytes of a row in the order in which they are written (20_memory.md R62, R66, 41_transpose.md R146), and what
holds at each access of a row (R143, R147, R151). -/

namespace Sys2Proof.Machine

/-! ## The bytes of a group (R62, R146) -/

/-- Where byte `k` of group `g` is written: the high byte of plane 0's word, its low byte, and so on for each plane. -/
def groupAddr (o : Operands) (g k : Nat) : Nat := o.planeRow (k / 2) + 2 * g + k % 2

/-- Byte `k` of a group with the pixels `px`. -/
def groupByte (px : List Byte) (k : Nat) : Byte := (planeWord px (k / 2)).extractLsb' (8 * (1 - k % 2)) 8

theorem flatMap_range_pair {α : Type} (f : Nat → α) (n : Nat) :
    (List.range n).flatMap (fun p => [f (2 * p), f (2 * p + 1)]) = (List.range (2 * n)).map f := by
  induction n with
  | zero => rfl
  | succ n ih => simp [List.range_succ, Nat.mul_succ, ih]

theorem groupStores_eq_map (o : Operands) (g : Nat) (px : List Byte) :
    groupStores o g px = (List.range (2 * o.depth)).map fun k => (groupAddr o g k, groupByte px k) := by
  rw [← flatMap_range_pair, groupStores]
  have hhalf : ∀ p, (2 * p + 1) / 2 = p := fun p => by omega
  simp [groupAddr, groupByte, hhalf]

/-- The next byte of a group after `k` of them. -/
theorem groupStores_drop {o : Operands} {g k : Nat} {px : List Byte} {c : Host.Cell} {cs : List Host.Cell}
    (h : c :: cs = (groupStores o g px).drop k) : k < 2 * o.depth ∧ c = (groupAddr o g k, groupByte px k) := by
  have hk : k < (groupStores o g px).length := by
    by_contra hle
    rw [List.drop_eq_nil_of_le (Nat.le_of_not_lt hle)] at h
    cases h
  rw [List.drop_eq_getElem_cons hk] at h
  obtain ⟨hc, -⟩ := List.cons.inj h
  exact ⟨groupStores_length o g px ▸ hk, hc.trans (by simp [groupStores_eq_map])⟩

/-- Bit `7 - x` of the high byte of plane `p` is bit `p` of pixel `x`, that of its low byte of pixel `8 + x` (R144). -/
theorem groupByte_getLsbD (px : List Byte) {p h x : Nat} (hh : h < 2) (hx : x < 8) :
    (groupByte px (2 * p + h)).getLsbD (7 - x) = (px.getD (8 * h + x) 0).getLsbD p := by
  have hbit : 8 * (1 - h) + (7 - x) = 15 - (8 * h + x) := by omega
  rw [groupByte, show (2 * p + h) / 2 = p by omega, show (2 * p + h) % 2 = h by omega, BitVec.getLsbD_extractLsb',
    planeWord_getLsbD px p (by omega), hbit, Nat.sub_sub_self (by omega), decide_eq_true (by omega), Bool.true_and]

/-! ## The bytes of a row (R66, R146) -/

/-- How many plane bytes a row has. -/
def rowLength (o : Operands) : Nat := 2 * o.depth * o.groups

/-- Where byte `n` of a row is written: group after group. -/
def storeAddr (o : Operands) (n : Nat) : Nat := groupAddr o (n / (2 * o.depth)) (n % (2 * o.depth))

/-- Pixel `j` of a row in memory `m`, and 0 from `W` on (R143). -/
def rowPixel (o : Operands) (m : Memory) (j : Nat) : Byte := if j < o.width then Memory.read m (o.pixelBase + j) else 0

/-- The first `n` pixels of group `g`. -/
def groupPixels (o : Operands) (m : Memory) (g n : Nat) : List Byte := (List.range n).map fun i => rowPixel o m (16 * g + i)

/-- Byte `n` of the row, computed from the pixels in memory `m`. -/
def rowByte (o : Operands) (m : Memory) (n : Nat) : Byte :=
  groupByte (groupPixels o m (n / (2 * o.depth)) 16) (n % (2 * o.depth))

theorem groupPixels_succ (o : Operands) (m : Memory) (g n : Nat) :
    groupPixels o m g (n + 1) = groupPixels o m g n ++ [rowPixel o m (16 * g + n)] := by
  simp [groupPixels, List.range_succ]

section
variable {o : Operands} {g k : Nat}

theorem index_div (hk : k < 2 * o.depth) : (2 * o.depth * g + k) / (2 * o.depth) = g := by
  rw [Nat.mul_add_div (Nat.zero_lt_of_lt hk), Nat.div_eq_of_lt hk, Nat.add_zero]

theorem index_mod (hk : k < 2 * o.depth) : (2 * o.depth * g + k) % (2 * o.depth) = k := by
  rw [Nat.mul_add_mod, Nat.mod_eq_of_lt hk]

theorem index_lt (hg : g < o.groups) (hk : k < 2 * o.depth) : 2 * o.depth * g + k < rowLength o :=
  calc 2 * o.depth * g + k < 2 * o.depth * (g + 1) := by rw [Nat.mul_succ]; omega
    _ ≤ rowLength o := Nat.mul_le_mul_left _ hg

/-- Every byte of a row is byte `k` of a group `g`. -/
theorem exists_index {n : Nat} (hn : n < rowLength o) : ∃ g k, g < o.groups ∧ k < 2 * o.depth ∧ n = 2 * o.depth * g + k := by
  have hpos : 0 < 2 * o.depth := Nat.pos_of_mul_pos_right (Nat.zero_lt_of_lt hn)
  exact ⟨n / (2 * o.depth), n % (2 * o.depth), Nat.div_lt_of_lt_mul hn, Nat.mod_lt _ hpos, (Nat.div_add_mod _ _).symm⟩

theorem storeAddr_index (hk : k < 2 * o.depth) : storeAddr o (2 * o.depth * g + k) = groupAddr o g k := by
  rw [storeAddr, index_div hk, index_mod hk]

theorem rowByte_index (m : Memory) (hk : k < 2 * o.depth) :
    rowByte o m (2 * o.depth * g + k) = groupByte (groupPixels o m g 16) k := by
  rw [rowByte, index_div hk, index_mod hk]

/-- Byte `h` of the word of plane `p` and group `g`. -/
theorem storeAddr_plane {p h : Nat} (hp : p < o.depth) (hh : h < 2) :
    storeAddr o (2 * o.depth * g + (2 * p + h)) = o.planeRow p + 2 * g + h := by
  rw [storeAddr_index (by omega), groupAddr, show (2 * p + h) / 2 = p by omega, show (2 * p + h) % 2 = h by omega]

theorem rowByte_getLsbD (m : Memory) {p h x : Nat} (hp : p < o.depth) (hh : h < 2) (hx : x < 8) :
    (rowByte o m (2 * o.depth * g + (2 * p + h))).getLsbD (7 - x) =
      (decide (16 * g + 8 * h + x < o.width) && (Memory.read m (o.pixelBase + (16 * g + 8 * h + x))).getLsbD p) := by
  have hpixel : (groupPixels o m g 16).getD (8 * h + x) 0 = rowPixel o m (16 * g + 8 * h + x) := by
    have hlt : 8 * h + x < 16 := by omega
    simp [groupPixels, hlt, Nat.add_assoc]
  rw [rowByte_index m (by omega), groupByte_getLsbD _ hh hx, hpixel, rowPixel]
  by_cases hw : 16 * g + 8 * h + x < o.width <;> simp [hw]

/-- A byte of a row lies in the row of its plane. -/
theorem groupAddr_inRow (hg : g < o.groups) (k : Nat) :
    o.planeRow (k / 2) ≤ groupAddr o g k ∧ groupAddr o g k < o.planeRow (k / 2) + o.rowBytes := by
  unfold groupAddr Operands.rowBytes
  omega

end

section
variable {o : Operands}

/-- The rows of two planes share no byte (R145). -/
theorem planeRow_apart (hc : transposeCheck o = none) {p p' : Nat} (hlt : p < p') (hp' : p' < o.depth) :
    o.planeRow p + o.rowBytes ≤ o.planeRow p' := by
  obtain ⟨-, -, -, -, -, hstride⟩ := (transposeCheck_none_iff o).1 hc
  have hmul : (p + 1) * o.planeStride ≤ p' * o.planeStride := Nat.mul_le_mul_right _ hlt
  rw [Nat.succ_mul] at hmul
  unfold Operands.planeRow
  omega

/-- No two bytes of a row are written at one address (R145). -/
theorem storeAddr_inj (hc : transposeCheck o = none) {n n' : Nat} (hn : n < rowLength o) (hn' : n' < rowLength o)
    (h : storeAddr o n = storeAddr o n') : n = n' := by
  obtain ⟨g, k, hg, hk, rfl⟩ := exists_index hn
  obtain ⟨g', k', hg', hk', rfl⟩ := exists_index hn'
  rw [storeAddr_index hk, storeAddr_index hk'] at h
  obtain ⟨hlo, hhi⟩ := groupAddr_inRow hg k
  obtain ⟨hlo', hhi'⟩ := groupAddr_inRow hg' k'
  rcases Nat.lt_trichotomy (k / 2) (k' / 2) with hlt | heq | hgt
  · have := planeRow_apart hc hlt (by omega)
    omega
  · rw [groupAddr, groupAddr, heq] at h
    obtain rfl : g = g' := by omega
    omega
  · have := planeRow_apart hc hgt (by omega)
    omega

/-- A byte of a row is written below `2 ^ 32` and at no pixel (R142, R145). -/
theorem storeAddr_checked (hc : transposeCheck o = none) {n : Nat} (hn : n < rowLength o) :
    storeAddr o n < 2 ^ 32 ∧ ∀ j, j < o.width → o.pixelBase + j ≠ storeAddr o n := by
  obtain ⟨-, -, -, hrow, hshare, -⟩ := (transposeCheck_none_iff o).1 hc
  obtain ⟨g, k, hg, hk, rfl⟩ := exists_index hn
  rw [storeAddr_index hk]
  obtain ⟨hlo, hhi⟩ := groupAddr_inRow hg k
  have hlt := hrow (k / 2) (by omega)
  have hdis := (windowsShare_false_iff ..).1 (hshare (k / 2) (by omega))
  exact ⟨by omega, fun j hj => by omega⟩

theorem rowLength_lt (hc : transposeCheck o = none) : rowLength o < 2 ^ 32 := by
  obtain ⟨-, hdepth, -⟩ := (transposeCheck_none_iff o).1 hc
  have hwidth : o.width < 2 ^ 16 := o.params.tpWidth.isLt
  have hgroups : o.groups ≤ 4096 := by
    unfold Operands.groups
    omega
  have hle : rowLength o ≤ 16 * 4096 := Nat.mul_le_mul (by omega) hgroups
  omega

/-! ## Where a row is -/

/-- The byte that a row writes next is the one after those it has counted. -/
theorem rowOk_nextStore {c : Cursor} {a : Nat} {b : Byte} {cs : List Host.Cell} (h : rowOk o c) (hs : c.stores = (a, b) :: cs) :
    c.pixels.length = 16 ∧ ∃ k, k < 2 * o.depth ∧ c.produced = 2 * o.depth * c.group + k ∧ a = groupAddr o c.group k ∧
      b = groupByte c.pixels k := by
  obtain ⟨-, -, -, -, hstores⟩ := h
  rw [hs, if_neg (List.cons_ne_nil _ _)] at hstores
  obtain ⟨hl, k, hk, hprod⟩ := hstores
  obtain ⟨hk', hcell⟩ := groupStores_drop hk
  obtain ⟨ha, hb⟩ := Prod.mk.inj hcell
  exact ⟨hl, k, hk', hprod, ha, hb⟩

/-- The pixel that a row reads next is the one after those it has counted. -/
theorem rowOk_nextPixel {c : Cursor} (h : rowOk o c) (hw : 16 * c.group + c.pixels.length < o.width) :
    c.consumed = 16 * c.group + c.pixels.length := by
  obtain ⟨-, -, -, hcons, -⟩ := h
  omega

theorem rowOk_produced_le {c : Cursor} (h : rowOk o c) : c.produced ≤ rowLength o := by
  obtain ⟨hg, hend, -, -, hprod⟩ := id h
  cases hs : c.stores with
  | nil =>
    rw [if_pos hs] at hprod
    exact hprod ▸ Nat.mul_le_mul_left _ hg
  | cons cell cs =>
    obtain ⟨-, k, hk, hprod, -⟩ := rowOk_nextStore h hs
    have hlt : c.group < o.groups := Nat.lt_of_le_of_ne hg fun heq => by
      obtain ⟨-, hnil⟩ := hend heq
      cases hs.symm.trans hnil
    exact hprod ▸ Nat.le_of_lt (index_lt hlt hk)

/-- After its last group a row has counted every pixel and every plane byte. -/
theorem rowOk_finished {c : Cursor} (h : rowOk o c) (hg : o.groups ≤ c.group) :
    c.consumed = o.width ∧ c.produced = rowLength o := by
  obtain ⟨hle, hend, -, hcons, hprod⟩ := h
  have heq : c.group = o.groups := Nat.le_antisymm hle hg
  obtain ⟨hpx, hst⟩ := hend heq
  rw [if_pos hst, heq] at hprod
  refine ⟨?_, hprod⟩
  rw [hcons, heq, hpx, List.length_nil]
  unfold Operands.groups
  omega

end

/-! ## Everything an access of a row can do -/

/-- A plane byte still to be written is written. -/
theorem groupTurn_store {x : Ctx} {p : Prog} {a : Nat} {b : Byte} {cs : List Host.Cell} (hg : p.cur.group < x.ops.groups)
    (hs : p.cur.stores = (a, b) :: cs) : groupTurn x p = putByte x.view a b (p.withStores cs) := by
  rw [groupTurn, if_pos hg, hs]

/-- A row ends after its last group, at a plane byte it cannot write, or at a pixel it cannot read (R147, R151). -/
theorem groupTurn_done_cases {x : Ctx} {p q : Prog} {e : Ending} (h : groupTurn x p = .done q e) :
    (x.ops.groups ≤ p.cur.group ∧ q = p ∧ e = .success) ∨
    (∃ a b cs, p.cur.group < x.ops.groups ∧ p.cur.stores = (a, b) :: cs ∧ busError x.view.platform .write a = true ∧
      q = p.withStores cs ∧ e = .busError a) ∨
    (16 * p.cur.group + p.cur.pixels.length < x.ops.width ∧
      busError x.view.platform .read (x.ops.pixelBase + (16 * p.cur.group + p.cur.pixels.length)) = true ∧ q = p ∧
      e = .busError (x.ops.pixelBase + (16 * p.cur.group + p.cur.pixels.length))) := by
  by_cases hg : p.cur.group < x.ops.groups
  · cases hs : p.cur.stores with
    | cons c cs =>
      obtain ⟨a, b⟩ := c
      rw [groupTurn_store hg hs] at h
      rcases putByte_cases x.view a b (p.withStores cs) with ⟨hb, h'⟩ | ⟨-, h' | h'⟩ <;> rw [h'] at h <;> cases h
      exact .inr (.inl ⟨a, b, cs, hg, rfl, hb, rfl, rfl⟩)
    | nil =>
      rw [groupTurn, if_pos hg, hs] at h
      simp only at h
      split at h
      · split at h
        · rename_i hw
          rcases takeByte_cases x.view (x.ops.pixelBase + (16 * p.cur.group + p.cur.pixels.length)) p
            (fun b q => .more (q.withPixel b)) with ⟨hb, h'⟩ | ⟨-, h'⟩ <;> rw [h'] at h <;> cases h
          exact .inr (.inr ⟨hw, hb, rfl, rfl⟩)
        · cases h
      · cases h
  · rw [groupTurn, if_neg hg] at h
    cases h
    exact .inl ⟨Nat.le_of_not_lt hg, rfl, rfl⟩

/-- Where a row has ended: with success after its last byte, at the pixel after those it counted, or at the plane byte after those it
counted (R66, R151). -/
def RowEnds (x : Ctx) (c : Cursor) (e : Ending) : Prop :=
  (e = .success ∧ c.consumed = x.ops.width ∧ c.produced = rowLength x.ops) ∨
  (busError x.view.platform .read (x.ops.pixelBase + c.consumed) = true ∧ e = .busError (x.ops.pixelBase + c.consumed) ∧
    c.consumed < x.ops.width) ∨
  (busError x.view.platform .write (storeAddr x.ops c.produced) = true ∧ e = .busError (storeAddr x.ops c.produced) ∧
    c.produced < rowLength x.ops)

theorem groupTurn_rowEnds {x : Ctx} {p q : Prog} {e : Ending} (hok : rowOk x.ops p.cur) (h : groupTurn x p = .done q e) :
    RowEnds x p.cur e ∧ q.mem = p.mem ∧ q.cur.consumed = p.cur.consumed ∧ q.cur.produced = p.cur.produced := by
  rcases groupTurn_done_cases h with ⟨hg, rfl, rfl⟩ | ⟨a, b, cs, hg, hs, hb, rfl, rfl⟩ | ⟨hw, hb, rfl, rfl⟩
  · exact ⟨.inl ⟨rfl, rowOk_finished hok hg⟩, rfl, rfl, rfl⟩
  · obtain ⟨-, k, hk, hprod, ha, -⟩ := rowOk_nextStore hok hs
    have haddr : a = storeAddr x.ops p.cur.produced := by rw [hprod, storeAddr_index hk, ha]
    refine ⟨.inr (.inr ⟨haddr ▸ hb, by rw [haddr], hprod ▸ index_lt hg hk⟩), ?_⟩
    simp
  · have hcons := rowOk_nextPixel hok hw
    rw [← hcons] at hb hw
    exact ⟨.inr (.inl ⟨hb, by rw [hcons], hw⟩), rfl, rfl, rfl⟩

/-! ## What every access keeps -/

/-- A row is in place, and the accesses that it has counted met no bus error (R147, R151). -/
structure RowAt (x : Ctx) (p : Prog) : Prop where
  ok     : rowOk x.ops p.cur
  reads  : noBusError x.view.platform .read x.ops.pixelBase p.cur.consumed
  writes : ∀ n, n < p.cur.produced → busError x.view.platform .write (storeAddr x.ops n) = false

theorem RowAt.turn {x : Ctx} {p q : Prog} (hc : transposeCheck x.ops = none) (h : RowAt x p) (hq : groupTurn x p = .more q) :
    RowAt x q := by
  obtain ⟨hok, hreads, hwrites⟩ := h
  obtain ⟨-, -, hlen, hcons, -⟩ := id hok
  obtain ⟨hg, ⟨a, b, cs, hs, hb, hq⟩ | ⟨hs, hl, hw, hb, rfl⟩ | ⟨hs, hl, hw, rfl⟩ | ⟨hs, hl, rfl⟩⟩ := groupTurn_more hq
  · obtain ⟨-, k, hk, hprod, rfl, -⟩ := rowOk_nextStore hok hs
    rw [← storeAddr_index hk, ← hprod] at hb
    obtain ⟨m, rfl⟩ : ∃ m, q = (p.withStores cs).stored m := by
      rcases hq with rfl | rfl
      · exact ⟨_, rfl⟩
      · exact ⟨_, rfl⟩
    refine ⟨rowOk_stored hok hg hs, by simpa using hreads, fun n hn => ?_⟩
    rw [stored_produced, withStores_produced] at hn
    rcases Nat.lt_succ_iff_lt_or_eq.1 hn with hn | rfl
    · exact hwrites n hn
    · exact hb
  · rw [← rowOk_nextPixel hok hw] at hb
    exact ⟨rowOk_withPixel hok hg hs hl (by rw [took_consumed, hcons]; omega), noBusError_succ hreads hb, hwrites⟩
  · exact ⟨rowOk_withPixel (k := p.cur.consumed) hok hg hs hl (by rw [hcons]; omega), hreads, hwrites⟩
  · refine ⟨rowOk_withStores hc hok hg hs (by omega), ?_, ?_⟩
    · simpa using hreads
    · simpa using hwrites

/-- A row has read the pixels that stand in memory `m`, and has written the plane bytes that it counted, and no pixel and no other
plane byte (R143, R146, R151). -/
structure RowMoved (o : Operands) (m : Memory) (p : Prog) : Prop where
  wf     : Memory.wf p.mem = true
  pixels : p.cur.pixels = groupPixels o m p.cur.group p.cur.pixels.length
  source : ∀ j, j < o.width → Memory.read p.mem (o.pixelBase + j) = Memory.read m (o.pixelBase + j)
  bytes  : ∀ n, n < rowLength o →
    Memory.read p.mem (storeAddr o n) = if n < p.cur.produced then rowByte o m n else Memory.read m (storeAddr o n)

section
variable {o : Operands} {m : Memory} {p : Prog}

/-- Going over to the bytes `cs` of a group, or to the next group, keeps what is known of the pixels. -/
theorem withStores_known (h : p.cur.pixels = groupPixels o m p.cur.group p.cur.pixels.length) (cs : List Host.Cell) :
    (p.withStores cs).cur.pixels =
      groupPixels o m (p.withStores cs).cur.group (p.withStores cs).cur.pixels.length := by
  cases cs with
  | nil => rfl
  | cons c cs => exact h

theorem RowMoved.withStores (h : RowMoved o m p) (cs : List Host.Cell) : RowMoved o m (p.withStores cs) :=
  ⟨by simpa using h.wf, withStores_known h.pixels cs, by simpa using h.source, by simpa using h.bytes⟩

/-- The next pixel, read or padded, is the one in `m`. -/
theorem RowMoved.withPixel (h : RowMoved o m p) :
    RowMoved o m (p.withPixel (rowPixel o m (16 * p.cur.group + p.cur.pixels.length))) := by
  refine ⟨h.wf, ?_, h.source, h.bytes⟩
  rw [withPixel_pixels, List.length_append, List.length_singleton, withPixel_group, groupPixels_succ, ← h.pixels]

/-- The next plane byte is the one computed from the pixels in `m`, and it is written at its own address alone. -/
theorem RowMoved.stored (hc : transposeCheck o = none) (h : RowMoved o m p) (hn : p.cur.produced < rowLength o) :
    RowMoved o m (p.stored (Memory.write p.mem (storeAddr o p.cur.produced) (rowByte o m p.cur.produced))) := by
  obtain ⟨haddr, hpixel⟩ := storeAddr_checked hc hn
  refine ⟨Memory.wf_write h.wf haddr _, h.pixels, fun j hj => ?_, fun n hn' => ?_⟩
  · rw [stored_mem, Memory.read_write_wf h.wf, if_neg (hpixel j hj), h.source j hj]
  · rw [stored_mem, Memory.read_write_wf h.wf, stored_produced, h.bytes n hn']
    rcases Nat.lt_trichotomy n p.cur.produced with hlt | rfl | hgt
    · rw [if_neg fun heq => Nat.ne_of_lt hlt (storeAddr_inj hc hn' hn heq), if_pos hlt, if_pos (Nat.lt_succ_of_lt hlt)]
    · rw [if_pos rfl, if_pos (Nat.lt_succ_self _)]
    · rw [if_neg fun heq => Nat.ne_of_gt hgt (storeAddr_inj hc hn' hn heq), if_neg (Nat.lt_asymm hgt),
        if_neg (Nat.not_lt_of_le hgt)]

end

/-- Where no byte is raced, every access of a row keeps it. -/
theorem RowMoved.turn {o : Operands} {pl : Platform} {m : Memory} {p q : Prog} (hc : transposeCheck o = none)
    (hok : rowOk o p.cur) (h : RowMoved o m p) (hq : groupTurn ⟨o, ⟨pl, [], []⟩⟩ p = .more q) : RowMoved o m q := by
  obtain ⟨hg, ⟨a, b, cs, hs, hb, -⟩ | ⟨hs, hl, hw, -, rfl⟩ | ⟨hs, hl, hw, rfl⟩ | ⟨hs, hl, rfl⟩⟩ := groupTurn_more hq
  · rw [groupTurn_store hg hs, putByte_plain hb] at hq
    cases hq
    obtain ⟨hlen, k, hk, hprod, rfl, rfl⟩ := rowOk_nextStore hok hs
    have hn : (p.withStores cs).cur.produced = 2 * o.depth * p.cur.group + k := (withStores_produced p cs).trans hprod
    have hstored := (h.withStores cs).stored hc (hn ▸ index_lt hg hk)
    rwa [hn, storeAddr_index hk, rowByte_index m hk, ← hlen, ← h.pixels] at hstored
  · have hpixel : Memory.read p.mem (o.pixelBase + (16 * p.cur.group + p.cur.pixels.length)) =
        rowPixel o m (16 * p.cur.group + p.cur.pixels.length) := by
      rw [h.source _ hw, rowPixel, if_pos hw]
    rw [BusView.seen_plain, hpixel]
    exact RowMoved.withPixel (p := p.took) ⟨h.wf, h.pixels, h.source, h.bytes⟩
  · have hpixel : (0 : Byte) = rowPixel o m (16 * p.cur.group + p.cur.pixels.length) := by
      rw [rowPixel, if_neg (Nat.not_lt_of_le hw)]
    rw [hpixel]
    exact h.withPixel
  · exact h.withStores _

end Sys2Proof.Machine
end

-- PROOFS, part 22: the statements about a whole row
section
/-! The statements about `TRANSPOSE_ROW` from issue to completion (41_transpose.md R143 to R147, R151, R153): each follows from what
holds at the last access of the row. -/

namespace Sys2Proof.Machine

/-! ## The last access of a row -/

/-- What a `TRANSPOSE_ROW` issued in `s` computes from, and its operands. -/
abbrev rowCtx (s : State) : Ctx := issueCtx (commandWord .transposeRow) s
abbrev rowOps (s : State) : Operands := latch (commandWord .transposeRow) s

/-- What an ending `e` of a row leaves, from the memory and the cursors of its last access. -/
abbrev rowSettle (s : State) (p : Prog) (e : Ending) : State :=
  settle advancePlanes (Running.fresh (commandWord .transposeRow) s) (issue (commandWord .transposeRow) s) (.done p e)

/-- A completion shows of the cursors the two counts alone (R203). -/
theorem rowSettle_congr (s : State) {p q : Prog} (e : Ending) (hm : q.mem = p.mem) (hs : q.cur.consumed = p.cur.consumed)
    (hd : q.cur.produced = p.cur.produced) : rowSettle s q e = rowSettle s p e := by
  cases e <;> simp [rowSettle, finish, advancePlanes, hm, hs, hd]

/-- A row before its first access. -/
abbrev rowStart (s : State) : Prog := ⟨s.mem, { Cursor.fresh with started := true }⟩

theorem rowAt_start (s : State) : RowAt (rowCtx s) (rowStart s) :=
  ⟨⟨Nat.zero_le _, fun _ => ⟨rfl, rfl⟩, Nat.zero_le _, by simp [Cursor.fresh], rfl⟩, nofun, nofun⟩

theorem rowMoved_start {s : State} (hm : Memory.wf s.mem = true) : RowMoved (rowOps s) s.mem (rowStart s) :=
  ⟨hm, rfl, fun _ _ => rfl, fun _ _ => rfl⟩

/-- A `TRANSPOSE_ROW` whose checks pass ends at an access, and what is kept by every access holds there. -/
theorem exec_row_last {s t : State} (he : s.engine = .idle) (hc : transposeCheck (rowOps s) = none)
    (h : exec .transposeRow s = .next t) :
    ∃ p e, RowAt (rowCtx s) p ∧ (Memory.wf s.mem = true → RowMoved (rowOps s) s.mem p) ∧ RowEnds (rowCtx s) p.cur e ∧
      t = rowSettle s p e := by
  obtain ⟨n, q, e, hq, ht⟩ := exec_command_ends (i := .transposeRow) rfl he h
  have henter : transposeCommand.unit (rowCtx s) ⟨s.mem, Cursor.fresh⟩ = .more (rowStart s) := Command.unit_enters rfl hc
  cases n with
  | zero => cases hq
  | succ n =>
    obtain ⟨p, hat, hmoved, hdone⟩ := (iterate_induct
      (fun p => p.cur.started = true ∧ RowAt (rowCtx s) p ∧ (Memory.wf s.mem = true → RowMoved (rowOps s) s.mem p))
      (fun q e => ∃ p, RowAt (rowCtx s) p ∧ (Memory.wf s.mem = true → RowMoved (rowOps s) s.mem p) ∧
        groupTurn (rowCtx s) p = .done q e)
      (fun p q hp hu => by
        obtain ⟨hs, hat, hmoved⟩ := hp
        replace hu := (Command.unit_started hs).symm.trans hu
        exact ⟨(groupTurn_ends p q hu).2.trans hs, hat.turn hc hu, fun hm => (hmoved hm).turn hc hat.ok hu⟩)
      (fun p q e hp hu => by
        obtain ⟨hs, hat, hmoved⟩ := hp
        exact ⟨p, hat, hmoved, (Command.unit_started hs).symm.trans hu⟩)
      ⟨rfl, rowAt_start s, rowMoved_start⟩).2 q e ((iterate_succ_more henter n).symm.trans hq)
    obtain ⟨hends, hm, hs, hd⟩ := groupTurn_rowEnds hat.ok hdone
    exact ⟨p, e, hat, hmoved, hends, ht.trans (rowSettle_congr s e hm hs hd)⟩

/-! ## Plane bytes, by group, plane and half -/

section
variable {s : State} {g p h : Nat}

theorem rowLength_rowOps (s : State) : rowLength (rowOps s) = s.depth * s.rowBytes := by
  rw [rowLength, latch_depth, latch_groups, Nat.mul_comm 2, Nat.mul_assoc]

theorem rowIndex_lt (hg : g < s.groups) (hp : p < s.depth) (hh : h < 2) :
    2 * s.depth * g + (2 * p + h) < rowLength (rowOps s) :=
  index_lt (o := rowOps s) hg (show 2 * p + h < 2 * s.depth by omega)

theorem storeAddr_rowIndex (g : Nat) (hp : p < s.depth) (hh : h < 2) :
    storeAddr (rowOps s) (2 * s.depth * g + (2 * p + h)) = s.planeBase + p * s.planeStride + 2 * g + h :=
  storeAddr_plane (o := rowOps s) hp hh

theorem exists_rowIndex {n : Nat} (hn : n < rowLength (rowOps s)) :
    ∃ g p h, g < s.groups ∧ p < s.depth ∧ h < 2 ∧ n = 2 * s.depth * g + (2 * p + h) := by
  obtain ⟨g, k, hg, hk, rfl⟩ := exists_index hn
  rw [latch_depth] at hk
  exact ⟨g, k / 2, k % 2, hg, by omega, by omega, by rw [latch_depth, Nat.div_add_mod]⟩

/-- Byte `q` of a plane's row belongs to group `q / 2`. -/
theorem half_lt_groups {q : Nat} (hq : q < s.rowBytes) : q / 2 < s.groups := Nat.div_lt_of_lt_mul hq

end

/-- The access at which a row stops with a bus error at `a`: the pixel after those it counted, or the plane byte after those it
counted (R66, R151). -/
abbrev RowStopsAt (s : State) (c : Cursor) (a : Nat) : Prop :=
  (busError s.platform .read (s.pixelBase + c.consumed) = true ∧ a = s.pixelBase + c.consumed ∧ c.consumed < s.width) ∨
  (∃ g p h, g < s.groups ∧ p < s.depth ∧ h < 2 ∧ c.produced = 2 * s.depth * g + 2 * p + h ∧
    busError s.platform .write (s.planeBase + p * s.planeStride + 2 * g + h) = true ∧
    a = s.planeBase + p * s.planeStride + 2 * g + h)

theorem rowEnds_cases {s : State} {c : Cursor} {e : Ending} (hc : transposeCheck (rowOps s) = none) (h : RowEnds (rowCtx s) c e) :
    (e = .success ∧ c.consumed = s.width ∧ c.produced = s.depth * s.rowBytes) ∨
    ∃ a, e = .busError a ∧ a < 2 ^ 32 ∧ RowStopsAt s c a := by
  rcases h with ⟨rfl, hcons, hprod⟩ | ⟨hb, rfl, hlt⟩ | ⟨hb, rfl, hlt⟩
  · exact .inl ⟨rfl, hcons, hprod.trans (rowLength_rowOps s)⟩
  · obtain ⟨-, -, hsrc, -⟩ := (transposeCheck_none_iff _).1 hc
    exact .inr ⟨_, rfl, Nat.lt_of_lt_of_le (Nat.add_lt_add_left hlt _) hsrc, .inl ⟨hb, rfl, hlt⟩⟩
  · obtain ⟨g, p, h, hg, hp, hh, hn⟩ := exists_rowIndex hlt
    have haddr : storeAddr (rowOps s) c.produced = s.planeBase + p * s.planeStride + 2 * g + h := by
      rw [hn, storeAddr_rowIndex g hp hh]
    rw [haddr] at hb
    exact .inr ⟨_, rfl, (storeAddr_checked hc hlt).1, .inr ⟨g, p, h, hg, hp, hh, hn.trans (Nat.add_assoc ..).symm, hb, haddr⟩⟩

/-! ## What a completion shows -/

section
variable {s : State} {p : Prog} {e : Ending}

theorem rowSettle_mem (s : State) (p : Prog) (e : Ending) : (rowSettle s p e).mem = p.mem := by
  cases e <;> rfl

theorem rowSettle_counts (hat : RowAt (rowCtx s) p) (hc : transposeCheck (rowOps s) = none) (e : Ending) :
    (rowSettle s p e).result.toNat = p.cur.consumed ∧ (rowSettle s p e).outCount.toNat = p.cur.produced := by
  obtain ⟨-, -, -, hcons, -⟩ := hat.ok
  have hwidth : s.width < 2 ^ 16 := s.params.tpWidth.isLt
  rw [latch_width] at hcons
  exact ⟨toNat_ofNat_lt (by omega), toNat_ofNat_lt (Nat.lt_of_le_of_lt (rowOk_produced_le hat.ok) (rowLength_lt hc))⟩

/-- A plane byte that a row has counted holds the transposed bits (R144, R146). -/
theorem RowMoved.read_bit (hm : RowMoved (rowOps s) s.mem p) {g pl h x : Nat} (hg : g < s.groups) (hp : pl < s.depth) (hh : h < 2)
    (hx : x < 8) (hn : 2 * s.depth * g + 2 * pl + h < p.cur.produced) :
    (Memory.read p.mem (s.planeBase + pl * s.planeStride + 2 * g + h)).getLsbD (7 - x) =
      (decide (16 * g + 8 * h + x < s.width) && (Memory.read s.mem (s.pixelBase + (16 * g + 8 * h + x))).getLsbD pl) := by
  rw [Nat.add_assoc] at hn
  rw [← storeAddr_rowIndex g hp hh, hm.bytes _ (rowIndex_lt hg hp hh), if_pos hn]
  exact rowByte_getLsbD (o := rowOps s) s.mem hp hh hx

/-- A plane byte that it has not counted is as it was. -/
theorem RowMoved.read_later (hm : RowMoved (rowOps s) s.mem p) {g pl h : Nat} (hg : g < s.groups) (hp : pl < s.depth) (hh : h < 2)
    (hn : p.cur.produced ≤ 2 * s.depth * g + 2 * pl + h) :
    Memory.read p.mem (s.planeBase + pl * s.planeStride + 2 * g + h) =
      Memory.read s.mem (s.planeBase + pl * s.planeStride + 2 * g + h) := by
  rw [Nat.add_assoc] at hn
  rw [← storeAddr_rowIndex g hp hh, hm.bytes _ (rowIndex_lt hg hp hh), if_neg (Nat.not_lt_of_le hn)]

/-- A plane byte that it has counted met no bus error. -/
theorem RowAt.write_clean (hat : RowAt (rowCtx s) p) {g pl h : Nat} (hp : pl < s.depth) (hh : h < 2)
    (hn : 2 * s.depth * g + 2 * pl + h < p.cur.produced) :
    busError s.platform .write (s.planeBase + pl * s.planeStride + 2 * g + h) = false := by
  rw [Nat.add_assoc] at hn
  rw [← storeAddr_rowIndex g hp hh]
  exact hat.writes _ hn

end

/-! ## A row that succeeds (R143 to R147) -/

/-- A `TRANSPOSE_ROW` that is ready meets no error. -/
theorem exec_row_succeeds {s t : State} (hr : transposeReady s) (h : exec .transposeRow s = .next t) :
    ∃ p, RowMoved (rowOps s) s.mem p ∧ p.cur.consumed = s.width ∧ p.cur.produced = s.depth * s.rowBytes ∧
      t = rowSettle s p .success := by
  have hc := transposeCheck_pass hr
  obtain ⟨he, hm, -, -, -, hread, hplanes, -⟩ := hr
  obtain ⟨p, e, -, hmoved, hends, ht⟩ := exec_row_last he hc h
  rcases rowEnds_cases hc hends with ⟨rfl, hcons, hprod⟩ | ⟨a, -, -, ⟨hb, -, hlt⟩ | ⟨g, pl, h, hg, hp, hh, -, hb, -⟩⟩
  · exact ⟨p, hmoved hm, hcons, hprod, ht⟩
  · cases (hread _ hlt).symm.trans hb
  · obtain ⟨-, hwrite, -⟩ := hplanes pl hp
    have hlt : 2 * g + h < s.rowBytes := by
      unfold State.rowBytes
      omega
    rw [Nat.add_assoc _ (2 * g)] at hb
    cases (hwrite _ hlt).symm.trans hb

/-- The bits of the plane rows after a row that succeeds. -/
theorem exec_row_bit {s t : State} (hr : transposeReady s) (h : exec .transposeRow s = .next t) {p q x : Nat} (hp : p < s.depth)
    (hq : q < s.rowBytes) (hx : x < 8) :
    (Memory.read t.mem (s.planeBase + p * s.planeStride + q)).getLsbD (7 - x) =
      (decide (8 * q + x < s.width) && (Memory.read s.mem (s.pixelBase + (8 * q + x))).getLsbD p) := by
  obtain ⟨last, hmoved, -, hprod, rfl⟩ := exec_row_succeeds hr h
  have hh : q % 2 < 2 := Nat.mod_lt q Nat.two_pos
  have hlt := rowIndex_lt (half_lt_groups hq) hp hh
  rw [rowLength_rowOps, ← hprod, ← Nat.add_assoc] at hlt
  have hbit := hmoved.read_bit (half_lt_groups hq) hp hh hx hlt
  rwa [show 16 * (q / 2) + 8 * (q % 2) + x = 8 * q + x by omega, Nat.add_assoc _ (2 * (q / 2)), Nat.div_add_mod,
    ← rowSettle_mem s last .success] at hbit

/-- Settles O32. -/
theorem transposeRowWritesThePlanes : Obligations.TransposeRowWritesThePlanes := by
  intro s hr
  obtain ⟨t, h⟩ : ∃ t, exec .transposeRow s = .next t := ⟨_, rfl⟩
  obtain ⟨he, hm, -⟩ := id hr
  obtain ⟨p, -, hcons, hprod, ht⟩ := exec_row_succeeds hr h
  refine ⟨t, h, ?_, by rw [ht]; rfl, by rw [ht]; rfl, fun p q x hp hq hx => exec_row_bit hr h hp hq hx, fun a ha => ?_⟩
  · rw [ht]
    exact completed_issue _ .success hcons hprod s p.mem _
  · obtain ⟨-, hframe, -⟩ := commandsStoreOnlyInTheirWindows .transposeRow s t a rfl he hm h
    exact hframe rfl ha

/-! ## Recovering the pixels (R153) -/

/-- A number below `2 ^ n` is the sum of its bits. -/
theorem sum_bits (v n : Nat) : ((List.range n).map fun p => v / 2 ^ p % 2 * 2 ^ p).sum = v % 2 ^ n := by
  induction n with
  | zero => simp [Nat.mod_one]
  | succ n ih => rw [List.sum_range_succ, ih, Nat.mod_pow_succ, Nat.mul_comm]

theorem bit_toNat (b : Byte) (i : Nat) : b.toNat / 2 ^ i % 2 = (b.getLsbD i).toNat := (Nat.toNat_testBit b.toNat i).symm

/-- Settles O35. -/
theorem transposeRowIsInvertible : Obligations.TransposeRowIsInvertible := by
  intro s j hr hj hv
  obtain ⟨t, h⟩ : ∃ t, exec .transposeRow s = .next t := ⟨_, rfl⟩
  refine ⟨t, h, ?_⟩
  have hbit : ∀ p ∈ List.range s.depth,
      (Memory.read t.mem (s.planeBase + p * s.planeStride + j / 8)).toNat / 2 ^ (7 - j % 8) % 2 * 2 ^ p =
        (if j < s.width then (Memory.read s.mem (s.pixelBase + j)).toNat else 0) / 2 ^ p % 2 * 2 ^ p := fun p hp => by
    have hq : j / 8 < s.rowBytes := by
      unfold State.rowBytes
      omega
    rw [bit_toNat, exec_row_bit hr h (List.mem_range.1 hp) hq (Nat.mod_lt j (by decide)), Nat.div_add_mod]
    by_cases hw : j < s.width
    · rw [decide_eq_true hw, Bool.true_and, ← bit_toNat, if_pos hw]
    · simp [hw]
  rw [List.map_congr_left hbit, sum_bits, Nat.mod_eq_of_lt]
  by_cases hw : j < s.width
  · rw [if_pos hw]
    exact hv hw
  · rw [if_neg hw]
    exact Nat.two_pow_pos _

/-! ## Bus errors (R151) -/

/-- A `TRANSPOSE_ROW` stopped by its checks (R142, R145, R202). -/
theorem exec_row_fails {s t : State} {e : CheckError} (he : s.engine = .idle) (hc : transposeCheck (rowOps s) = some e)
    (h : exec .transposeRow s = .next t) : failsAtOnce 0x00000020 e.code s t := by
  obtain ⟨t', ht', hfail⟩ := exec_fails_at_once (i := .transposeRow) rfl (by decide) he hc
  rw [h] at ht'
  cases ht'
  exact hfail

/-- A row that ends with `BUS` has passed its checks and stopped at an access. -/
theorem exec_row_busError {s t : State} (he : s.engine = .idle) (h : exec .transposeRow s = .next t) (hcode : t.errCode = 0x08) :
    transposeCheck (rowOps s) = none ∧
    ∃ p a, RowAt (rowCtx s) p ∧ (Memory.wf s.mem = true → RowMoved (rowOps s) s.mem p) ∧ a < 2 ^ 32 ∧ RowStopsAt s p.cur a ∧
      t = rowSettle s p (.busError a) := by
  cases hc : transposeCheck (rowOps s) with
  | some e =>
    obtain ⟨⟨-, -, hcode', -⟩, -⟩ := exec_row_fails he hc h
    exact absurd (hcode'.symm.trans hcode) e.code_ne.2
  | none =>
    obtain ⟨p, e, hat, hmoved, hends, rfl⟩ := exec_row_last he hc h
    rcases rowEnds_cases hc hends with ⟨rfl, -⟩ | ⟨a, rfl, ha, hstop⟩
    · cases hcode
    · exact ⟨rfl, p, a, hat, hmoved, ha, hstop, rfl⟩

/-- No access that a row counts has met a bus error, whatever its ending, and a success has counted them all. -/
theorem exec_row_counts_clean {s t : State} (he : s.engine = .idle) (h : exec .transposeRow s = .next t) :
    noBusError s.platform .read s.pixelBase t.result.toNat ∧
    (∀ g p h, g < s.groups → p < s.depth → h < 2 → 2 * s.depth * g + 2 * p + h < t.outCount.toNat →
      busError s.platform .write (s.planeBase + p * s.planeStride + 2 * g + h) = false) ∧
    (t.errCode = 0 → t.result.toNat = s.width ∧ t.outCount.toNat = s.depth * s.rowBytes) := by
  cases hc : transposeCheck (rowOps s) with
  | some e =>
    obtain ⟨⟨-, -, hcode, -, hres, hout, -⟩, -⟩ := exec_row_fails he hc h
    rw [hres, hout, hcode]
    exact ⟨nofun, nofun, fun h0 => absurd h0 e.code_ne.1⟩
  | none =>
    obtain ⟨p, e, hat, -, hends, rfl⟩ := exec_row_last he hc h
    obtain ⟨hres, hout⟩ := rowSettle_counts hat hc e
    rw [hres, hout]
    refine ⟨hat.reads, fun g pl h _ hp hh hn => hat.write_clean hp hh hn, fun h0 => ?_⟩
    rcases rowEnds_cases hc hends with ⟨-, hcounts⟩ | ⟨a, rfl, -⟩
    · exact hcounts
    · cases h0

/-- Settles O36. -/
theorem transposeBusErrorStopsAtItsAccess : Obligations.TransposeBusErrorStopsAtItsAccess := by
  refine ⟨fun s t he h hcode => ?_, fun s t he h => ?_⟩
  · obtain ⟨hc, p, a, hat, hmoved, ha, hstop, rfl⟩ := exec_row_busError he h hcode
    obtain ⟨hres, hout⟩ := rowSettle_counts hat hc (.busError a)
    have hfault : (rowSettle s p (.busError a)).faultAddr.toNat = a := toNat_ofNat_lt ha
    rw [hres, hout, hfault, rowSettle_mem]
    refine ⟨rfl, hstop, fun hm g pl h hg hp hh => ⟨fun hn x hx => ?_, fun hn => ?_⟩⟩
    · exact (hmoved hm).read_bit hg hp hh hx hn
    · exact (hmoved hm).read_later hg hp hh hn
  · obtain ⟨hread, hwrite, hsuccess⟩ := exec_row_counts_clean he h
    refine ⟨hread, hwrite, fun h0 => ?_⟩
    obtain ⟨hres, hout⟩ := hsuccess h0
    refine ⟨hres ▸ hread, fun p hp j hj => ?_⟩
    have hh : j % 2 < 2 := Nat.mod_lt j Nat.two_pos
    have hlt := rowIndex_lt (half_lt_groups hj) hp hh
    rw [rowLength_rowOps, ← hout, ← Nat.add_assoc] at hlt
    have hclean := hwrite (j / 2) p (j % 2) (half_lt_groups hj) hp hh hlt
    rwa [Nat.add_assoc _ (2 * (j / 2)), Nat.div_add_mod] at hclean

end Sys2Proof.Machine
end

-- PROOFS, part 23: the arithmetic of the animator
section
/-! The arithmetic of the animator: ticks, offsets and weights (42_animator.md R163, R164, R166), blends (R166, R167), and the base
colours that an entry of a range reads (R165, R167, R173). -/

namespace Sys2Proof.Machine

/-! ## Ticks (R163, R164, R166) -/

theorem scaledTicks_toNat (e : Word) (rate : Half) :
    (scaledTicks e rate).toNat =
      (e.toNat / 2 ^ 16 * (rate.toNat * 4) % 2 ^ 32 + e.toNat % 2 ^ 16 * rate.toNat / 2 ^ 14) % 2 ^ 32 := by
  have hrate : (rate.setWidth 32).toNat = rate.toNat := BitVec.toNat_setWidth_of_le (by decide)
  have hrate4 : (rate.setWidth 32 <<< 2).toNat = rate.toNat * 4 := by
    rw [BitVec.toNat_shiftLeft, hrate, Nat.shiftLeft_eq]
    omega
  have hfrac : (e &&& 0xFFFF).toNat = e.toNat % 2 ^ 16 := by
    rw [BitVec.toNat_and]
    exact Nat.and_two_pow_sub_one_eq_mod e.toNat 16
  have hnowrap : e.toNat % 2 ^ 16 * rate.toNat < 2 ^ 32 :=
    Nat.mul_lt_mul'' (c := 2 ^ 16) (d := 2 ^ 16) (Nat.mod_lt _ (by decide)) rate.isLt
  rw [scaledTicks, BitVec.toNat_add, BitVec.toNat_mul, hrate4, BitVec.toNat_ushiftRight, BitVec.toNat_ushiftRight, BitVec.toNat_mul,
    hfrac, hrate, Nat.mod_eq_of_lt hnowrap, Nat.shiftRight_eq_div_pow, Nat.shiftRight_eq_div_pow]

theorem blendWeight_eq (scaled : Word) : blendWeight scaled = scaled.toNat / 2 ^ 8 % 256 := by
  rw [blendWeight, BitVec.toNat_and, BitVec.toNat_ushiftRight, Nat.shiftRight_eq_div_pow]
  exact Nat.and_two_pow_sub_one_eq_mod _ 8

theorem ColourRange.count_eq {r : ColourRange} (h : r.low.toNat ≤ r.high.toNat) :
    r.count = r.high.toNat - r.low.toNat + 1 := by
  rw [ColourRange.count]
  omega

theorem ColourRange.count_pos {r : ColourRange} (h : r.low.toNat ≤ r.high.toNat) : 0 < r.count := by
  rw [ColourRange.count_eq h]
  exact Nat.succ_pos _

/-- Settles O37: each register word as a number. -/
theorem ticksGiveOffsetAndWeight : Obligations.TicksGiveOffsetAndWeight := by
  refine ⟨scaledTicks_toNat, fun scaled r h => ⟨r.count_eq h, r.count_pos h, r.count_le, ?_, ?_⟩, blendWeight_eq⟩
  · rw [cycleOffset, if_pos rfl, BitVec.toNat_ushiftRight, Nat.shiftRight_eq_div_pow]
  · rw [cycleOffset, if_neg Bool.false_ne_true, BitVec.toNat_ushiftRight, Nat.shiftRight_eq_div_pow]

/-! ## Channels (R46, R167) -/

theorem red_toNat (c : Colour) : (red c).toNat = c.toNat / 2 ^ 16 := by
  rw [red, BitVec.extractLsb'_toNat, Nat.shiftRight_eq_div_pow]
  omega

theorem green_toNat (c : Colour) : (green c).toNat = c.toNat / 2 ^ 8 % 256 := by
  rw [green, BitVec.extractLsb'_toNat, Nat.shiftRight_eq_div_pow]

theorem blue_toNat (c : Colour) : (blue c).toNat = c.toNat % 256 := by
  rw [blue, BitVec.extractLsb'_toNat, Nat.shiftRight_zero]

/-- The weights add up to 256, so a weighted channel stays below `256 * 256`. -/
theorem weighted_lt (c0 c1 : Byte) {w : Nat} (hw : w ≤ 255) : c0.toNat * (256 - w) + c1.toNat * w < 2 ^ 16 := by
  have h0 : c0.toNat * (256 - w) ≤ 255 * (256 - w) := Nat.mul_le_mul_right _ (Nat.le_of_lt_succ c0.isLt)
  have h1 : c1.toNat * w ≤ 255 * w := Nat.mul_le_mul_right _ (Nat.le_of_lt_succ c1.isLt)
  omega

theorem blendChannel_toNat (c0 c1 : Byte) {w : Nat} (hw : w ≤ 255) :
    (blendChannel c0 c1 w).toNat = (c0.toNat * (256 - w) + c1.toNat * w) / 256 := by
  have hlt := weighted_lt c0 c1 hw
  rw [blendChannel, BitVec.toNat_ofNat, Nat.shiftRight_eq_div_pow]
  omega

/-- A colour put together from its channels, as a number. -/
theorem appendChannels_toNat (r g b : Byte) :
    (r ++ g ++ b : Colour).toNat = r.toNat * 2 ^ 16 + g.toNat * 2 ^ 8 + b.toNat := by
  rw [BitVec.toNat_append, BitVec.toNat_append, ← Nat.shiftLeft_add_eq_or_of_lt b.isLt, ← Nat.shiftLeft_add_eq_or_of_lt g.isLt,
    Nat.shiftLeft_eq, Nat.shiftLeft_eq]
  omega

theorem blend_toNat (c0 c1 : Colour) (w : Nat) :
    (blend c0 c1 w).toNat =
      (blendChannel (red c0) (red c1) w).toNat * 2 ^ 16 + (blendChannel (green c0) (green c1) w).toNat * 2 ^ 8 +
        (blendChannel (blue c0) (blue c1) w).toNat :=
  appendChannels_toNat _ _ _

/-- Each channel of a blend is the blend of the channels. -/
theorem channels_blend (c0 c1 : Colour) (w : Nat) :
    red (blend c0 c1 w) = blendChannel (red c0) (red c1) w ∧ green (blend c0 c1 w) = blendChannel (green c0) (green c1) w ∧
      blue (blend c0 c1 w) = blendChannel (blue c0) (blue c1) w := by
  have hgreen := (blendChannel (green c0) (green c1) w).isLt
  have hblue := (blendChannel (blue c0) (blue c1) w).isLt
  refine ⟨?_, ?_, ?_⟩ <;> apply BitVec.eq_of_toNat_eq
  · rw [red_toNat, blend_toNat]
    omega
  · rw [green_toNat, blend_toNat]
    omega
  · rw [blue_toNat, blend_toNat]
    omega

/-! ## The packed form (R167) -/

/-- One byte of a number, left in its place. -/
theorem and_byteMask (x k : Nat) : x &&& 0xFF <<< k = x / 2 ^ k % 256 * 2 ^ k := by
  rw [← Nat.shiftLeft_eq, ← Nat.shiftRight_eq_div_pow, ← Nat.and_two_pow_sub_one_eq_mod (x >>> k) 8]
  refine Nat.eq_of_testBit_eq fun i => ?_
  simp only [Nat.testBit_and, Nat.testBit_shiftLeft, Nat.testBit_shiftRight]
  by_cases hk : k ≤ i
  · simp [hk]
  · simp [hk]

theorem and_redBlueMask (x : Nat) : x &&& 0xFF00FF = x / 2 ^ 16 % 256 * 2 ^ 16 + x % 256 := by
  have hmask : 0xFF00FF = 0xFF <<< 16 ||| 0xFF <<< 0 := rfl
  have hblue : x / 2 ^ 0 % 256 * 2 ^ 0 < 2 ^ 16 := by omega
  rw [hmask, Nat.and_or_distrib_left, and_byteMask, and_byteMask, ← Nat.shiftLeft_eq, ← Nat.shiftLeft_add_eq_or_of_lt hblue]
  omega

theorem and_greenMask (x : Nat) : x &&& 0x00FF00 = x / 2 ^ 8 % 256 * 2 ^ 8 :=
  and_byteMask x 8

/-- Red and blue weighed together: blue's carry stays below red, and red's fraction falls outside the mask. -/
theorem packedRedBlue (c0 c1 : Colour) {w : Nat} (hw : w ≤ 255) :
    (((c0 &&& 0xFF00FF).toNat * (0x100 - w) + (c1 &&& 0xFF00FF).toNat * w) >>> 8) &&& 0xFF00FF =
      (blendChannel (red c0) (red c1) w).toNat * 2 ^ 16 + (blendChannel (blue c0) (blue c1) w).toNat := by
  have hmasked : ∀ c : Colour, (c &&& 0xFF00FF).toNat = (red c).toNat * 2 ^ 16 + (blue c).toNat := fun c => by
    rw [red_toNat, blue_toNat, BitVec.toNat_and]
    refine (and_redBlueMask c.toNat).trans ?_
    omega
  have hred := weighted_lt (red c0) (red c1) hw
  have hblue := weighted_lt (blue c0) (blue c1) hw
  have hsum : ((red c0).toNat * 2 ^ 16 + (blue c0).toNat) * (256 - w) + ((red c1).toNat * 2 ^ 16 + (blue c1).toNat) * w =
      ((red c0).toNat * (256 - w) + (red c1).toNat * w) * 2 ^ 16 +
        ((blue c0).toNat * (256 - w) + (blue c1).toNat * w) := by ring
  rw [hmasked, hmasked, hsum, and_redBlueMask, blendChannel_toNat _ _ hw, blendChannel_toNat _ _ hw, Nat.shiftRight_eq_div_pow]
  omega

theorem packedGreen (c0 c1 : Colour) {w : Nat} (hw : w ≤ 255) :
    (((c0 &&& 0x00FF00).toNat * (0x100 - w) + (c1 &&& 0x00FF00).toNat * w) >>> 8) &&& 0x00FF00 =
      (blendChannel (green c0) (green c1) w).toNat * 2 ^ 8 := by
  have hmasked : ∀ c : Colour, (c &&& 0x00FF00).toNat = (green c).toNat * 2 ^ 8 := fun c => by
    rw [green_toNat, BitVec.toNat_and]
    exact and_greenMask c.toNat
  have hgreen := weighted_lt (green c0) (green c1) hw
  have hsum : (green c0).toNat * 2 ^ 8 * (256 - w) + (green c1).toNat * 2 ^ 8 * w =
      ((green c0).toNat * (256 - w) + (green c1).toNat * w) * 2 ^ 8 := by ring
  rw [hmasked, hmasked, hsum, and_greenMask, blendChannel_toNat _ _ hw, Nat.shiftRight_eq_div_pow]
  omega

/-- Green fits between red and blue. -/
theorem or_green (r g b : Byte) :
    r.toNat * 2 ^ 16 + b.toNat ||| g.toNat * 2 ^ 8 = r.toNat * 2 ^ 16 + g.toNat * 2 ^ 8 + b.toNat := by
  have hb : b.toNat < 2 ^ 16 := Nat.lt_trans b.isLt (by decide)
  have hgb : g.toNat * 2 ^ 8 + b.toNat < 2 ^ 16 := by have := g.isLt; have := b.isLt; omega
  calc r.toNat * 2 ^ 16 + b.toNat ||| g.toNat * 2 ^ 8
      = r.toNat <<< 16 ||| (g.toNat <<< 8 ||| b.toNat) := by
        rw [← Nat.shiftLeft_eq, ← Nat.shiftLeft_eq, Nat.shiftLeft_add_eq_or_of_lt hb, Nat.or_assoc, Nat.or_comm b.toNat]
    _ = r.toNat * 2 ^ 16 + g.toNat * 2 ^ 8 + b.toNat := by
        rw [← Nat.shiftLeft_add_eq_or_of_lt b.isLt, Nat.shiftLeft_eq g.toNat, ← Nat.shiftLeft_add_eq_or_of_lt hgb, Nat.shiftLeft_eq,
          Nat.add_assoc]

/-- The source's packed form gives the blend (R167). -/
theorem blendPacked_eq (c0 c1 : Colour) {w : Nat} (hw : w ≤ 255) : blendPacked c0 c1 w = (blend c0 c1 w).toNat := by
  rw [blend_toNat, ← or_green, ← packedRedBlue c0 c1 hw, ← packedGreen c0 c1 hw]
  rfl

/-- Settles O38: channel by channel. -/
theorem blendWeighsEachChannel : Obligations.BlendWeighsEachChannel := by
  intro c0 c1 w hw
  obtain ⟨hred, hgreen, hblue⟩ := channels_blend c0 c1 w
  refine ⟨?_, ?_, ?_, blendPacked_eq c0 c1 hw⟩
  · rw [← red_toNat, hred, blendChannel_toNat _ _ hw, red_toNat, red_toNat]
  · rw [← green_toNat, hgreen, blendChannel_toNat _ _ hw, green_toNat, green_toNat]
  · rw [← blue_toNat, hblue, blendChannel_toNat _ _ hw, blue_toNat, blue_toNat]

/-! ## What an entry reads (R165, R167, R173) -/

section
variable {r : ColourRange} (h : r.low.toNat ≤ r.high.toNat)
include h

/-- An index taken modulo the count of a range stays inside the range (R173). -/
theorem ColourRange.low_add_mod_le (y : Nat) : r.low.toNat + y % r.count ≤ r.high.toNat := by
  have hlt := Nat.mod_lt y (ColourRange.count_pos h)
  rw [ColourRange.count_eq h] at hlt ⊢
  omega

theorem cycleIndex_le_high (off i : Nat) : cycleIndex r off i ≤ r.high.toNat := r.low_add_mod_le h _

theorem predecessorIndex_le_high (off i : Nat) : predecessorIndex r off i ≤ r.high.toNat := r.low_add_mod_le h _

/-- An entry of a range depends on the ticks and on the base colours of the range alone (R173). -/
theorem rangeEntry_congr (blended : Bool) {o o' : Operands} (he : o.params.elapsed = o'.params.elapsed)
    (hb : ∀ j, r.low.toNat ≤ j → j ≤ r.high.toNat → o.basePal.getD j 0 = o'.basePal.getD j 0) (i : Nat) :
    rangeEntry blended o r i = rangeEntry blended o' r i := by
  have hcycle : ∀ off, o.basePal.getD (cycleIndex r off i) 0 = o'.basePal.getD (cycleIndex r off i) 0 := fun off =>
    hb _ (Nat.le_add_right ..) (cycleIndex_le_high h off i)
  have hpred : ∀ off, o.basePal.getD (predecessorIndex r off i) 0 = o'.basePal.getD (predecessorIndex r off i) 0 := fun off =>
    hb _ (Nat.le_add_right ..) (predecessorIndex_le_high h off i)
  simp only [rangeEntry, he, hcycle, hpred]

end

/-- Settles O43: every index read is `low` and something modulo the count. -/
theorem animatorReadsInsideTheRange : Obligations.AnimatorReadsInsideTheRange := by
  intro r h
  refine ⟨fun off i => ?_, fun blended o o' i hp hb => rangeEntry_congr h blended (congrArg Params.elapsed hp) hb i⟩
  have hc := cycleIndex_le_high h off i
  have hp := predecessorIndex_le_high h off i
  exact ⟨⟨_, Nat.mod_lt _ (r.count_pos h), rfl⟩, hc, ⟨_, Nat.mod_lt _ (r.count_pos h), rfl⟩, hp,
    fun n hn => ⟨Nat.lt_of_le_of_lt hc hn, Nat.lt_of_le_of_lt hp hn⟩⟩

end Sys2Proof.Machine
end

-- PROOFS, part 24: the table of the animator
section
/-! The table of the animator, entry by entry (42_animator.md R168 to R171): what each entry has once some of the ranges have been
processed, and that the loop computes it. -/

namespace Sys2Proof.Machine

/-! ## What an entry has after some of the ranges (R170, R171) -/

/-- Entry `i` lies in range `k` of the operands (R170). -/
abbrev Operands.covers (o : Operands) (k i : Nat) : Prop := (o.range k).low.toNat ≤ i ∧ i ≤ (o.range k).high.toNat

/-- Entry `i` of the table once the first `n` ranges have been processed: a later range overwrites an earlier one, and every range
reads the base colours alone (R171). -/
def tableColour (blended : Bool) (o : Operands) : Nat → Nat → Colour
  | 0, i     => o.basePal.getD i 0
  | n + 1, i => if o.covers n i then rangeEntry blended o (o.range n) (i - (o.range n).low.toNat) else tableColour blended o n i

section
variable {blended : Bool} {o : Operands} {n i : Nat}

/-- An entry outside the ranges keeps its base colour (R170). -/
theorem tableColour_uncovered (h : ∀ k, k < n → ¬ o.covers k i) : tableColour blended o n i = o.basePal.getD i 0 := by
  induction n with
  | zero => rfl
  | succ n ih =>
    rw [tableColour, if_neg (h n (Nat.lt_succ_self n))]
    exact ih fun k hk => h k (Nat.lt_succ_of_lt hk)

/-- An entry in ranges has the value of the highest-indexed of them (R171). -/
theorem tableColour_covered {k : Nat} (hk : k < n) (hin : o.covers k i) (hlast : ∀ j, k < j → j < n → ¬ o.covers j i) :
    tableColour blended o n i = rangeEntry blended o (o.range k) (i - (o.range k).low.toNat) := by
  induction n with
  | zero => cases hk
  | succ n ih =>
    rcases Nat.lt_succ_iff_lt_or_eq.1 hk with hlt | rfl
    · rw [tableColour, if_neg (hlast n hlt (Nat.lt_succ_self n))]
      exact ih hlt fun j hj hjn => hlast j hj (Nat.lt_succ_of_lt hjn)
    · rw [tableColour, if_pos hin]

/-- The table depends on the operands of R160 alone (R172). -/
theorem tableColour_congr {o' : Operands} (hr : ∀ k, k < n → o.range k = o'.range k)
    (hfit : ∀ k, k < n → (o.range k).low.toNat ≤ (o.range k).high.toNat) (he : o.params.elapsed = o'.params.elapsed)
    (hb : o.basePal = o'.basePal) : tableColour blended o n i = tableColour blended o' n i := by
  induction n with
  | zero => rw [tableColour, tableColour, hb]
  | succ n ih =>
    have hlast := Nat.lt_succ_self n
    have hrest := ih (fun k hk => hr k (Nat.lt_succ_of_lt hk)) fun k hk => hfit k (Nat.lt_succ_of_lt hk)
    have hentry := rangeEntry_congr (hfit n hlast) blended he (fun j _ _ => congrArg (·.getD j 0) hb)
    rw [hr n hlast] at hentry
    simp only [tableColour, Operands.covers, hrest, hentry, hr n hlast]

end

/-! ## What an entry has inside a range -/

/-- Entry `i` of the table once the first `n` ranges and the first `e` entries of range `n` have been processed (R168). -/
def turnColour (blended : Bool) (o : Operands) (n e i : Nat) : Colour :=
  if o.covers n i ∧ i < (o.range n).low.toNat + e then rangeEntry blended o (o.range n) (i - (o.range n).low.toNat)
  else tableColour blended o n i

section
variable (blended : Bool) (o : Operands) (n i : Nat)

theorem turnColour_zero : turnColour blended o n 0 i = tableColour blended o n i := by
  rw [turnColour, if_neg]
  rintro ⟨⟨hlow, -⟩, hlt⟩
  omega

theorem turnColour_succ {e : Nat} (h : e < (o.range n).count) :
    turnColour blended o n (e + 1) i =
      if (o.range n).low.toNat + e = i then rangeEntry blended o (o.range n) e else turnColour blended o n e i := by
  unfold ColourRange.count at h
  by_cases hi : (o.range n).low.toNat + e = i
  · subst hi
    rw [turnColour, if_pos ⟨⟨by omega, by omega⟩, by omega⟩, if_pos rfl, Nat.add_sub_cancel_left]
  · have hlt : i < (o.range n).low.toNat + (e + 1) ↔ i < (o.range n).low.toNat + e := by omega
    simp only [turnColour, if_neg hi, hlt]

theorem turnColour_count {e : Nat} (h : (o.range n).count ≤ e) :
    turnColour blended o n e i = tableColour blended o (n + 1) i := by
  unfold ColourRange.count at h
  have hlt : o.covers n i ∧ i < (o.range n).low.toNat + e ↔ o.covers n i := and_iff_left_of_imp fun hin => by omega
  rw [turnColour, tableColour, if_congr hlt rfl rfl]

end

/-! ## The loop (R168, R169) -/

/-- Where the animator is between two of its turns, in memory `m`: what the table has by now. -/
structure TableAt (blended : Bool) (o : Operands) (m : Memory) (p : Prog) : Prop where
  mem      : p.mem = m
  started  : p.cur.started = true
  consumed : p.cur.consumed = 0
  length   : p.cur.table.length = o.nColors
  inRanges : p.cur.rangeIx ≤ o.nRanges
  rest     : p.cur.rangeIx = o.nRanges → p.cur.entryIx = 0
  colours  : ∀ i, i < o.nColors → p.cur.table.getD i 0 = turnColour blended o p.cur.rangeIx p.cur.entryIx i

/-- The table starts as the base colours (R168). -/
theorem tableAt_start {blended : Bool} {o : Operands} (h : o.basePal.length = o.nColors) (m : Memory) :
    TableAt blended o m ⟨m, { startTable o Cursor.fresh with started := true }⟩ :=
  ⟨rfl, rfl, rfl, h, Nat.zero_le _, fun _ => rfl, fun i _ => (turnColour_zero blended o 0 i).symm⟩

/-- A turn puts the next entry in its place, or goes on to the next range. -/
theorem TableAt.turn {blended : Bool} {x : Ctx} {m : Memory} {p q : Prog} (h : TableAt blended x.ops m p)
    (hq : tableTurn blended x p = .more q) : TableAt blended x.ops m q := by
  obtain ⟨hk, hmem, ⟨hi, hcur⟩ | ⟨hi, hcur⟩⟩ := tableTurn_more hq
  · refine ⟨hmem.trans h.mem, ?_, ?_, ?_, ?_, ?_, fun i hlt => ?_⟩ <;> rw [hcur]
    · exact h.started
    · exact h.consumed
    · rw [List.length_set, h.length]
    · exact h.inRanges
    · exact fun hend => absurd hend (Nat.ne_of_lt hk)
    · rw [turnColour_succ blended x.ops p.cur.rangeIx i hi, ← h.colours i hlt]
      simp only [List.getD_eq_getElem?_getD, List.getElem?_set, h.length]
      split
      · rename_i hset
        rw [hset, if_pos hlt]
        rfl
      · rfl
  · refine ⟨hmem.trans h.mem, ?_, ?_, ?_, ?_, ?_, fun i hlt => ?_⟩ <;> rw [hcur]
    · exact h.started
    · exact h.consumed
    · exact h.length
    · exact hk
    · exact fun _ => rfl
    · rw [h.colours i hlt, turnColour_count blended x.ops p.cur.rangeIx i hi, turnColour_zero]

/-- The only ending of the loop: the ranges are used up, and `OUTCOUNT` is `N` (R168). -/
theorem tableTurn_done {blended : Bool} {x : Ctx} {p q : Prog} {e : Ending} (h : tableTurn blended x p = .done q e) :
    x.ops.nRanges ≤ p.cur.rangeIx ∧ e = .success ∧ q = { p with cur := { p.cur with produced := x.ops.nColors } } := by
  unfold tableTurn at h
  by_cases hk : p.cur.rangeIx < x.ops.nRanges
  · rw [if_pos hk] at h
    dsimp only at h
    split at h <;> cases h
  · rw [if_neg hk] at h
    cases h
    exact ⟨Nat.le_of_not_lt hk, rfl, rfl⟩

/-- `T[0..N-1]` when every range has been processed (R168). -/
def animatorTable (blended : Bool) (o : Operands) : List Colour := (List.range o.nColors).map (tableColour blended o o.nRanges)

@[simp] theorem animatorTable_length (blended : Bool) (o : Operands) : (animatorTable blended o).length = o.nColors := by
  simp [animatorTable]

theorem animatorTable_getD (blended : Bool) (o : Operands) {i : Nat} (h : i < o.nColors) :
    (animatorTable blended o).getD i 0 = tableColour blended o o.nRanges i := by
  simp [animatorTable, h]

/-- The loop leaves that table. -/
theorem TableAt.finished {blended : Bool} {o : Operands} {m : Memory} {p : Prog} (h : TableAt blended o m p)
    (hk : o.nRanges ≤ p.cur.rangeIx) : p.cur.table = animatorTable blended o := by
  have hend := Nat.le_antisymm h.inRanges hk
  refine List.ext_getElem (by rw [h.length, animatorTable_length]) fun i hi hi' => ?_
  have hlt := h.length ▸ hi
  rw [← List.getD_eq_getElem (d := 0) _ hi, ← List.getD_eq_getElem (d := 0) _ hi', animatorTable_getD blended o hlt,
    h.colours i hlt, h.rest hend, hend, turnColour_zero]

end Sys2Proof.Machine
end

-- PROOFS, part 25: the statements about the animator commands
section
/-! The statements about `ANIMATE` and `ANIMATE_BLEND` from issue to completion (42_animator.md R161, R162, R165 to R172). One of three
things happens: a check fails, an entry never written is read (R245), or the table is published. -/

namespace Sys2Proof.Machine

/-! ## Both commands as one (R168, R169) -/

/-- The two animator commands, by `blendEnabled`. -/
def animatorOf : Bool → Instr
  | false => .animate
  | true  => .animateBlend

theorem exists_animatorOf {i : Instr} (hi : i = .animate ∨ i = .animateBlend) : ∃ blended, i = animatorOf blended := by
  rcases hi with rfl | rfl
  · exact ⟨false, rfl⟩
  · exact ⟨true, rfl⟩

/-- What an animator issued in `s` latches (R160). -/
abbrev animatorOps (blended : Bool) (s : State) : Operands := latch (commandWord (animatorOf blended)) s

section
variable (blended : Bool)

theorem animatorOf_isAnimator : animatorOf blended = .animate ∨ animatorOf blended = .animateBlend := by
  cases blended
  · exact .inl rfl
  · exact .inr rfl

theorem animatorOf_isCommand : isCommand (animatorOf blended) := by
  cases blended <;> rfl

theorem isAnimator_animatorOf : isAnimator (commandWord (animatorOf blended)) = true := by
  cases blended <;> decide

theorem commandOf_animatorOf :
    commandOf (animatorOf blended) = ⟨animateCheck, startTable, tableTurn blended, tableBound, publishTable⟩ := by
  cases blended <;> rfl

theorem animatorOps_basePal (s : State) :
    (animatorOps blended s).basePal = (List.range (min s.colorCount 256)).map (baseColour s) :=
  if_pos (isAnimator_animatorOf blended)

/-- The latched base colours (R160). -/
theorem animatorOps_getD (s : State) {j : Nat} (hj : j < s.colorCount) (h256 : s.colorCount ≤ 256) :
    (animatorOps blended s).basePal.getD j 0 = baseColour s j := by
  have hmin : j < min s.colorCount 256 := Nat.lt_min.2 ⟨hj, Nat.lt_of_lt_of_le hj h256⟩
  rw [animatorOps_basePal, List.getD_eq_getElem?_getD, List.getElem?_map, List.getElem?_range hmin]
  rfl

end

theorem animatorOps_basePal_length {blended : Bool} {s : State} (hc : animateCheck (animatorOps blended s) = none) :
    (animatorOps blended s).basePal.length = (animatorOps blended s).nColors := by
  obtain ⟨h256, -⟩ := (animateCheck_none_iff _).1 hc
  rw [animatorOps_basePal, List.length_map, List.length_range]
  exact Nat.min_eq_left h256

/-! ## The checks (R161, R162) -/

theorem boundsCheck_iff (o : Operands) :
    (decide (Config.maxColors < o.nColors) || decide (Config.maxRanges < o.nRanges)) = true ↔
      256 < o.nColors ∨ 16 < o.nRanges := by
  rw [Bool.or_eq_true, decide_eq_true_iff, decide_eq_true_iff, Config.maxColors, Config.maxRanges]

theorem animateCheck_arg {o : Operands} (h : 256 < o.nColors ∨ 16 < o.nRanges) : animateCheck o = some .arg :=
  if_pos ((boundsCheck_iff o).2 h)

/-- Where `N` and `R` are in bounds, the ranges are checked. -/
theorem animateCheck_ranges {o : Operands} (hn : o.nColors ≤ 256) (hr : o.nRanges ≤ 16)
    (h : ∃ k, k < o.nRanges ∧ ¬ ((o.range k).low.toNat ≤ (o.range k).high.toNat ∧ (o.range k).high.toNat < o.nColors)) :
    animateCheck o = some .range := by
  obtain ⟨k, hk, hbad⟩ := h
  have hall : ¬ ((List.range o.nRanges).all fun k => rangeFits o (o.range k)) = true := by
    rw [List.all_eq_true]
    intro hfits
    have hfit := hfits k (List.mem_range.2 hk)
    rw [rangeFits, Bool.and_eq_true, decide_eq_true_iff, decide_eq_true_iff] at hfit
    exact hbad hfit
  rw [animateCheck, if_neg (by rw [boundsCheck_iff]; omega), if_neg hall]

/-- The checks depend on `N`, `R` and the first `R` ranges (R172). -/
theorem animateCheck_congr {o o' : Operands} (hn : o.nColors = o'.nColors) (hr : o.nRanges = o'.nRanges)
    (hk : ∀ k, k < o.nRanges → o.range k = o'.range k) : animateCheck o = animateCheck o' := by
  have hfits : ∀ k, k < o.nRanges → rangeFits o (o.range k) = rangeFits o' (o'.range k) := fun k hlt => by
    rw [rangeFits, rangeFits, hn, hk k hlt]
  have hall : ((List.range o.nRanges).all fun k => rangeFits o (o.range k)) =
      (List.range o.nRanges).all fun k => rangeFits o' (o'.range k) := by
    rw [Bool.eq_iff_iff, List.all_eq_true, List.all_eq_true]
    exact forall₂_congr fun k hmem => by rw [hfits k (List.mem_range.1 hmem)]
  rw [animateCheck, animateCheck, hall, hn, hr]

theorem animateCheck_ready {s : State} (h : animateReady s) (blended : Bool) : animateCheck (animatorOps blended s) = none :=
  (animateCheck_none_iff _).2 h.2

/-! ## Everything an animator can do -/

section
variable {blended : Bool} {s : State} (he : s.engine = .idle)
include he

/-- When an animator reads an entry never written: its checks pass, and one of `BASE_PAL[0..N-1]` has not been written (R245). -/
theorem animator_readsUnwritten_iff :
    (accept (commandWord (animatorOf blended)) s).readsUnwritten = true ↔
      animateCheck (animatorOps blended s) = none ∧ ¬ baseWritten s := by
  have hw := isAnimator_animatorOf blended
  rw [accept_idle he]
  simp only [State.readsUnwritten, issue_engine, fresh_word, hw, issue_basePal, Bool.true_and, Bool.and_eq_true,
    Option.isNone_iff_eq_none, List.any_eq_true, List.mem_range, Bool.not_eq_true', baseWritten, not_forall, Bool.not_eq_true,
    exists_prop]
  rfl

theorem exec_animator_runs (h : animateCheck (animatorOps blended s) ≠ none ∨ baseWritten s) :
    exec (animatorOf blended) s = .next ((commandOf (animatorOf blended)).run (commandWord (animatorOf blended)) s) := by
  have hread : ¬ (accept (commandWord (animatorOf blended)) s).readsUnwritten = true := by
    rw [animator_readsUnwritten_iff he]
    exact fun ⟨hc, hw⟩ => h.elim (· hc) hw
  exact exec_command (animatorOf_isCommand blended) s (.inl (Bool.eq_false_of_not_eq_true hread))

/-- A check that fails ends it (R161, R162). -/
theorem exec_animator_fails {e : CheckError} (hc : animateCheck (animatorOps blended s) = some e) :
    exec (animatorOf blended) s =
      .next (finish (.failure e) Cursor.fresh (issue (commandWord (animatorOf blended)) s)) := by
  rw [exec_animator_runs he (.inl (by rw [hc]; exact Option.some_ne_none e)),
    Command.run_fails he (by rw [commandOf_animatorOf]; exact hc)]

/-- A base colour never written stops it (R245). -/
theorem exec_animator_unwritten (hc : animateCheck (animatorOps blended s) = none) (hw : ¬ baseWritten s) :
    exec (animatorOf blended) s = .fault .unwrittenBasePal :=
  exec_unwritten (animatorOf_isAnimator blended) ((animator_readsUnwritten_iff he).2 ⟨hc, hw⟩)

end

/-- A command that passes its checks ends at a turn of its work, before which holds whatever holds once the checks have passed and
every turn keeps. -/
theorem exec_command_last {i : Instr} (hi : isCommand i) {s t : State} (he : s.engine = .idle)
    (hc : (commandOf i).check (latch (commandWord i) s) = none) (h : exec i s = .next t) {inv : Prog → Prop}
    (hstarted : ∀ p, inv p → p.cur.started = true) (hstart : inv (afterChecks i s))
    (hmore : ∀ p q, inv p → (commandOf i).work (issueCtx (commandWord i) s) p = .more q → inv q) :
    ∃ p q e, inv p ∧ (commandOf i).work (issueCtx (commandWord i) s) p = .done q e ∧
      t = settle (commandOf i).onSuccess (Running.fresh (commandWord i) s) (issue (commandWord i) s) (.done q e) := by
  obtain ⟨n, q, e, hq, ht⟩ := exec_command_ends hi he h
  have henter : (commandOf i).unit (issueCtx (commandWord i) s) ⟨s.mem, Cursor.fresh⟩ = .more (afterChecks i s) :=
    Command.unit_enters rfl hc
  cases n with
  | zero => cases hq
  | succ n =>
    obtain ⟨p, hp, hdone⟩ := (iterate_induct inv
      (fun q e => ∃ p, inv p ∧ (commandOf i).work (issueCtx (commandWord i) s) p = .done q e)
      (fun p q hp hu => hmore p q hp ((Command.unit_started (hstarted p hp)).symm.trans hu))
      (fun p q e hp hu => ⟨p, hp, (Command.unit_started (hstarted p hp)).symm.trans hu⟩)
      hstart).2 q e ((iterate_succ_more henter n).symm.trans hq)
    exact ⟨p, q, e, hp, hdone, ht⟩

/-- What a success leaves of the cursors: nothing read from memory, `N` colours, and the table (R168). -/
def animatorEnd (blended : Bool) (s : State) : Cursor :=
  { Cursor.fresh with produced := s.colorCount, table := animatorTable blended (animatorOps blended s) }

/-- What a success leaves (R168). -/
def animated (blended : Bool) (s : State) : State :=
  finish .success (animatorEnd blended s)
    (publishTable (animatorOps blended s) (animatorEnd blended s) (issue (commandWord (animatorOf blended)) s))

/-- An animator that passes its checks and has its base colours written publishes the table. -/
theorem exec_animator_succeeds {blended : Bool} {s : State} (he : s.engine = .idle)
    (hc : animateCheck (animatorOps blended s) = none) (hw : baseWritten s) :
    exec (animatorOf blended) s = .next (animated blended s) := by
  obtain ⟨t, hexec⟩ : ∃ t, exec (animatorOf blended) s = .next t := ⟨_, exec_animator_runs he (.inr hw)⟩
  have hstart : TableAt blended (animatorOps blended s) s.mem (afterChecks (animatorOf blended) s) := by
    rw [afterChecks, commandOf_animatorOf]
    exact tableAt_start (animatorOps_basePal_length hc) s.mem
  obtain ⟨p, q, e, hp, hdone, ht⟩ := exec_command_last (animatorOf_isCommand blended) he
    (by rw [commandOf_animatorOf]; exact hc) hexec (fun _ h => h.started) hstart
    (fun p q h hq => by rw [commandOf_animatorOf] at hq; exact h.turn hq)
  rw [commandOf_animatorOf] at hdone ht
  obtain ⟨hk, rfl, rfl⟩ := tableTurn_done hdone
  rw [hexec, ht, settle_success, hp.mem]
  simp only [animated, animatorEnd, finish, publishTable, hp.consumed, hp.finished hk]
  rfl

/-- An animator that passes its checks and completes has found its base colours written. -/
theorem exec_animator_next {blended : Bool} {s t : State} (he : s.engine = .idle)
    (hc : animateCheck (animatorOps blended s) = none) (h : exec (animatorOf blended) s = .next t) :
    baseWritten s ∧ t = animated blended s := by
  by_cases hw : baseWritten s
  · rw [exec_animator_succeeds he hc hw] at h
    cases h
    exact ⟨hw, rfl⟩
  · rw [exec_animator_unwritten he hc hw] at h
    cases h

/-- Settles O41: each check that fails, for both commands. -/
theorem animatorChecksInOrder : Obligations.AnimatorChecksInOrder := by
  intro s he
  have hfail : ∀ blended e, animateCheck (animatorOps blended s) = some e →
      ∃ t, exec (animatorOf blended) s = .next t ∧ failsAtOnce (commandWord (animatorOf blended)) e.code s t :=
    fun blended e hc => ⟨_, exec_animator_fails he hc, completed_issue _ (.failure e) rfl rfl s s.mem s.params, rfl, rfl,
      fun _ => rfl⟩
  exact ⟨fun h => ⟨hfail false .arg (animateCheck_arg h), hfail true .arg (animateCheck_arg h)⟩, fun hn hr hbad =>
    ⟨hfail false .range (animateCheck_ranges hn hr hbad), hfail true .range (animateCheck_ranges hn hr hbad)⟩⟩

/-! ## What a success shows (R165 to R171) -/

theorem animated_completed (blended : Bool) (s : State) :
    completed (commandWord (animatorOf blended)) 0x00 s.faultAddr 0 s.colorCount s (animated blended s) :=
  ⟨rfl, rfl, rfl, rfl, rfl, rfl, rfl, rfl, rfl, rfl, rfl, rfl, rfl, rfl⟩

/-- `OUT_PAL[0..N-1]` is the table (R168). -/
theorem animated_get (blended : Bool) {s : State} (h256 : s.colorCount ≤ 256) (n : Nat) {i : Nat} (hi : i < s.colorCount) :
    (animated blended s).outPal.get n i = tableColour blended (animatorOps blended s) s.rangeCount i := by
  refine (Palette.get_overlay ..).trans ?_
  rw [animatorEnd, animatorTable_length, if_pos ⟨hi, Nat.lt_of_lt_of_le hi h256⟩]
  exact animatorTable_getD blended (animatorOps blended s) hi

/-- Entries from `N` on are not written (R170). -/
theorem animated_get_beyond (blended : Bool) (s : State) (n : Nat) {i : Nat} (hi : s.colorCount ≤ i) :
    (animated blended s).outPal.get n i = s.outPal.get n i := by
  refine (Palette.get_overlay ..).trans ?_
  rw [animatorEnd, animatorTable_length, if_neg fun h => absurd h.1 (Nat.not_lt.2 hi)]
  rfl

section
variable {s : State} (h : animateReady s)
include h

/-- A base colour inside a range, as it is latched (R160, R162). -/
theorem animatorOps_getD_inside (blended : Bool) {k j : Nat} (hk : k < s.rangeCount) (hj : j ≤ (s.rangeAt k).high.toNat) :
    (animatorOps blended s).basePal.getD j 0 = baseColour s j := by
  obtain ⟨-, h256, -, hfit⟩ := h
  exact animatorOps_getD blended s (Nat.lt_of_le_of_lt hj (hfit k hk).2) h256

/-- An entry outside the ranges (R170). -/
theorem animated_get_uncovered (blended : Bool) (n : Nat) {i : Nat} (hi : i < s.colorCount) (hno : ∀ k, ¬ inRange s k i) :
    (animated blended s).outPal.get n i = baseColour s i := by
  obtain ⟨-, h256, -⟩ := h
  rw [animated_get blended h256 n hi, tableColour_uncovered fun k hk hin => hno k ⟨hk, hin⟩]
  exact animatorOps_getD blended s hi h256

/-- An entry in ranges (R171). -/
theorem animated_get_covered (blended : Bool) (n : Nat) {i k : Nat} (hin : inRange s k i)
    (hlast : ∀ j, k < j → ¬ inRange s j i) :
    (animated blended s).outPal.get n i =
      rangeEntry blended (animatorOps blended s) (s.rangeAt k) (i - (s.rangeAt k).low.toNat) := by
  obtain ⟨-, h256, -, hfit⟩ := h
  obtain ⟨hk, hcov⟩ := hin
  rw [animated_get blended h256 n (Nat.lt_of_le_of_lt hcov.2 (hfit k hk).2)]
  exact tableColour_covered hk hcov fun j hj hjn hcov' => hlast j hj ⟨hjn, hcov'⟩

section
variable {k : Nat} (hk : k < s.rangeCount) (i : Nat)
include hk

/-- The value of entry `low + i` without blending (R165). -/
theorem rangeEntry_rotates :
    rangeEntry false (animatorOps false s) (s.rangeAt k) i =
      baseColour s ((s.rangeAt k).low.toNat + (i + offsetAt s k) % countAt s k) := by
  obtain ⟨-, -, -, hfit⟩ := id h
  have hle := (hfit k hk).1
  rw [offsetAt, countAt, ← ColourRange.count_eq hle]
  exact animatorOps_getD_inside h false hk (cycleIndex_le_high hle _ i)

/-- And with it (R167). -/
theorem rangeEntry_blends :
    rangeEntry true (animatorOps true s) (s.rangeAt k) i =
      blend (baseColour s ((s.rangeAt k).low.toNat + (i + offsetAt s k) % countAt s k))
        (baseColour s ((s.rangeAt k).low.toNat + ((i + offsetAt s k) % countAt s k + countAt s k - 1) % countAt s k))
        (blendWeight (scaledAt s k)) := by
  obtain ⟨-, -, -, hfit⟩ := id h
  have hle := (hfit k hk).1
  rw [offsetAt, countAt, ← ColourRange.count_eq hle]
  exact congrArg₂ (blend · · (blendWeight (scaledAt s k))) (animatorOps_getD_inside h true hk (cycleIndex_le_high hle _ i))
    (animatorOps_getD_inside h true hk (predecessorIndex_le_high hle _ i))

end

end

/-- Settles O39: every entry of what a success leaves is a `tableColour`, which rotates the base colours of its range. -/
theorem animateRotatesTheRanges : Obligations.AnimateRotatesTheRanges := by
  intro s h
  have hc := animateCheck_ready h false
  exact ⟨exec_animator_unwritten h.1 hc, fun hw => ⟨animated false s, exec_animator_succeeds h.1 hc hw,
    animated_completed false s, rfl, rfl, fun n i hi hno => animated_get_uncovered h false n hi hno,
    fun n i k hin hlast => (animated_get_covered h false n hin hlast).trans (rangeEntry_rotates h hin.1 _),
    fun n i hi => animated_get_beyond false s n hi⟩⟩

/-- Settles O40: as O39, with the blend of two base colours of the range. -/
theorem animateBlendMixesNeighbours : Obligations.AnimateBlendMixesNeighbours := by
  intro s h
  have hc := animateCheck_ready h true
  exact ⟨exec_animator_unwritten h.1 hc, fun hw => ⟨animated true s, exec_animator_succeeds h.1 hc hw,
    animated_completed true s, rfl, rfl, fun n i hi hno => animated_get_uncovered h true n hi hno,
    fun n i k hin hlast => (animated_get_covered h true n hin hlast).trans (rangeEntry_blends h hin.1 _),
    fun n i hi => animated_get_beyond true s n hi⟩⟩

/-! ## No state is kept (R172) -/

/-- Two Idle states that agree on the operands of R160 get the same code and the same table. -/
theorem animator_same_operands {blended : Bool} {s₁ s₂ t₁ t₂ : State} (he₁ : s₁.engine = .idle) (he₂ : s₂.engine = .idle)
    (hn : s₁.params.nColors = s₂.params.nColors) (hr : s₁.params.nRanges = s₂.params.nRanges)
    (hel : s₁.params.elapsed = s₂.params.elapsed) (hk : ∀ k, k < s₁.rangeCount → s₁.rangeAt k = s₂.rangeAt k)
    (hb : ∀ j, j < min s₁.colorCount 256 → baseColour s₁ j = baseColour s₂ j)
    (h₁ : exec (animatorOf blended) s₁ = .next t₁) (h₂ : exec (animatorOf blended) s₂ = .next t₂) :
    t₁.errCode = t₂.errCode ∧
    (t₁.errCode = 0 → ∀ n m j, j < s₁.colorCount → t₁.outPal.get n j = t₂.outPal.get m j) := by
  have hcount : s₁.colorCount = s₂.colorCount := congrArg BitVec.toNat hn
  have hranges : s₁.rangeCount = s₂.rangeCount := congrArg BitVec.toNat hr
  have hcheck : animateCheck (animatorOps blended s₁) = animateCheck (animatorOps blended s₂) :=
    animateCheck_congr hcount hranges hk
  cases hc : animateCheck (animatorOps blended s₁) with
  | some e =>
    rw [exec_animator_fails he₁ hc] at h₁
    rw [exec_animator_fails he₂ (hcheck.symm.trans hc)] at h₂
    cases h₁
    cases h₂
    exact ⟨rfl, fun h0 => absurd h0 e.code_ne.1⟩
  | none =>
    obtain ⟨-, rfl⟩ := exec_animator_next he₁ hc h₁
    obtain ⟨-, rfl⟩ := exec_animator_next he₂ (hcheck.symm.trans hc) h₂
    obtain ⟨h256, -, hfit⟩ := (animateCheck_none_iff _).1 hc
    have hpal : (animatorOps blended s₁).basePal = (animatorOps blended s₂).basePal := by
      rw [animatorOps_basePal, animatorOps_basePal, ← hcount]
      exact List.map_congr_left fun j hj => hb j (List.mem_range.1 hj)
    refine ⟨rfl, fun _ n m j hj => ?_⟩
    rw [animated_get blended h256 n hj, animated_get blended (hcount ▸ h256) m (hcount ▸ hj), ← hranges]
    exact tableColour_congr hk (fun k hlt => (hfit k hlt).1) hel hpal

/-- Written base colours are latched the same whatever the number of the draw (log 4). -/
theorem animatorOps_draws (blended : Bool) {s : State} (hw : baseWritten s) (n : Nat) :
    animatorOps blended { s with draws := n } = animatorOps blended s := by
  have hpal : (animatorOps blended { s with draws := n }).basePal = (animatorOps blended s).basePal := by
    rw [animatorOps_basePal, animatorOps_basePal]
    refine List.map_congr_left fun j hj => ?_
    have hwj := hw j (Nat.lt_of_lt_of_le (List.mem_range.1 hj) (Nat.min_le_left ..))
    rw [baseColour, baseColour, Palette.get, Palette.get, if_pos hwj, if_pos hwj]
  exact congrArg (Operands.mk s.params) hpal

/-- No free value shows in what an animator leaves (R245, log 4). -/
theorem animator_any_draw {blended : Bool} {s t u : State} {n : Nat} (he : s.engine = .idle)
    (ht : exec (animatorOf blended) s = .next t) (hu : exec (animatorOf blended) { s with draws := n } = .next u) :
    u = { t with draws := u.draws } := by
  cases hc : animateCheck (animatorOps blended s) with
  | some e =>
    rw [exec_animator_fails he hc] at ht
    rw [exec_animator_fails (s := { s with draws := n }) he hc] at hu
    cases ht
    cases hu
    rfl
  | none =>
    obtain ⟨hw, rfl⟩ := exec_animator_next he hc ht
    obtain ⟨-, rfl⟩ := exec_animator_next (s := { s with draws := n }) he hc hu
    rw [animated, animatorEnd, animatorOps_draws blended hw]
    rfl

/-- No completion writes `AN_ELAPSED` (R172). -/
theorem settle_done_elapsed (i : Instr) (r : Running) (s : State) (p : Prog) (e : Ending) :
    (settle (commandOf i).onSuccess r s (.done p e)).params.elapsed = s.params.elapsed := by
  cases e with
  | success => cases i <;> rfl
  | failure e => rfl
  | busError a => rfl

/-- Settles O42: a success is a function of the latched operands, and those are the same for every draw. -/
theorem animatorKeepsNoState : Obligations.AnimatorKeepsNoState := by
  refine ⟨fun i s₁ s₂ t₁ t₂ hi he₁ he₂ hn hr hel hk hb h₁ h₂ => ?_, fun i s t u n hi he ht hu => ?_, fun i s t hi he h => ?_⟩
  · obtain ⟨blended, rfl⟩ := exists_animatorOf hi
    exact animator_same_operands he₁ he₂ hn hr hel hk (fun j hj => hb j hj _ _) h₁ h₂
  · obtain ⟨blended, rfl⟩ := exists_animatorOf hi
    exact animator_any_draw he ht hu
  · obtain ⟨n, q, e, -, rfl⟩ := exec_command_ends hi he h
    exact settle_done_elapsed i _ _ q e

end Sys2Proof.Machine
end

-- PROOFS, part 26: the statements about the control commands
section
/-! The control commands (43_control.md R180, R181): `NOP`, which has no checks and one empty unit of work, and an illegal word, which
its check stops. -/

namespace Sys2Proof.Machine

/-- `NOP` ends with its first unit of work, no cursor moved (R180). -/
theorem exec_nop_works {s : State} (he : s.engine = .idle) :
    exec .nop s = .next (finish .success { Cursor.fresh with started := true } (issue (commandWord .nop) s)) := by
  show Host.Outcome.next _ = _
  rw [Command.run_works he rfl]
  have hu : nopCommand.unit ((Running.fresh (commandWord .nop) s).ctx (issue (commandWord .nop) s))
      ⟨s.mem, { Cursor.fresh with started := true }⟩ = .done ⟨s.mem, { Cursor.fresh with started := true }⟩ .success :=
    Command.unit_started rfl
  exact congrArg (fun u => Host.Outcome.next (settle _ _ _ u)) (iterate_succ_done hu 0)

/-- An illegal word is written to `CMD` as it is (R28, R181). -/
@[simp] theorem commandWord_illegal (w : Word) : commandWord (.illegal w) = w := by
  rw [commandWord, encode, BitVec.ofNat_toNat, BitVec.setWidth_eq]

/-- Settles O15. -/
theorem nopCompletes : Obligations.NopCompletes := fun s he =>
  ⟨_, exec_nop_works he, completed_issue _ .success rfl rfl s s.mem s.params, rfl, rfl, fun _ => rfl⟩

/-- Settles O16: the check of an illegal word fails, whatever the operands. -/
theorem illegalWordCompletesWithItsCode : Obligations.IllegalWordCompletesWithItsCode := by
  intro s w he
  have hfails := exec_fails_at_once (i := .illegal w) (e := .illegal) rfl ⟨nofun, nofun⟩ he rfl
  rwa [commandWord_illegal] at hfails

end Sys2Proof.Machine
end

-- PROOFS, part 27: what a completion writes, and what issue latches
section
/-! The statements about issue, failures and the registers a completion writes (60_exceptions.md R201 to R204): each follows from how
a command word runs from its issue to the ending of its units. -/

namespace Sys2Proof.Machine

/-! ## Issue (R201) -/

/-- Every word is the word of the command it decodes to (R81, R83). -/
@[simp] theorem commandWord_decodeCommand (w : Word) : commandWord (decodeCommand w) = w := by
  rw [commandWord, (encode_decodeCommand w).2, BitVec.ofNat_toNat, BitVec.setWidth_eq]

/-- `exec` of a command word on an Idle engine is issue and then `exec` on the Busy engine (log 13). -/
theorem exec_issue {i : Instr} (hi : isCommand i) {s : State} (he : s.engine = .idle) :
    exec i (issue (commandWord i) s) = exec i s := by
  have haccept : accept (commandWord i) (issue (commandWord i) s) = accept (commandWord i) s := by
    rw [accept_busy (issue_engine ..), accept_idle he]
  have hrun : (commandOf i).run (commandWord i) (issue (commandWord i) s) = (commandOf i).run (commandWord i) s := by
    rw [Command.run_busy (issue_engine ..), Command.run_idle he]
  by_cases hr : (i = .animate ∨ i = .animateBlend) ∧ (accept (commandWord i) s).readsUnwritten = true
  · obtain ⟨ha, hr⟩ := hr
    rw [exec_unwritten ha hr, exec_unwritten ha (haccept ▸ hr)]
  · have hruns : (accept (commandWord i) s).readsUnwritten = false ∨ (i ≠ .animate ∧ i ≠ .animateBlend) := by
      rw [← Bool.not_eq_true]
      tauto
    rw [exec_command hi s hruns, exec_command hi _ (haccept ▸ hruns), hrun]

/-- A Busy block with `DONE` clear shows `BUSY` and no `DONE` (R26). -/
theorem statusWord_busy_running {s : State} (hb : s.isBusy = true) (hd : s.status.done = false) : statusWord s &&& 3 = 1 := by
  refine BitVec.eq_of_getLsbD_eq fun n hn => ?_
  rw [BitVec.getLsbD_and, statusWord_getLsbD]
  match n with
  | 0 => simp [hb]
  | 1 => simp [hd]
  | 2 => simp
  | 3 => simp
  | n + 4 => simp

/-- Settles O55: an Idle block takes the write by `issue`, a Busy one drops it. -/
theorem issueLatchesTheCommand : Obligations.IssueLatchesTheCommand := by
  intro s addr w hw
  refine ⟨fun he => ?_, fun hb => ?_⟩
  · have hexec : exec (decodeCommand w) (issue w s) = exec (decodeCommand w) s := by
      simpa using exec_issue (decodeCommand_bits w) he
    have hctrl : (issue w s).ieShown = s.ieShown := by
      rw [ieShown_busy (issue_engine ..), ieShown_idle he, fresh_ieBefore]
    refine ⟨issue w s, Running.fresh w s, ?_, rfl, rfl, rfl, rfl, rfl, rfl, rfl, ?_, hexec, fun ha => if_pos ha,
      statusWord_busy_running rfl rfl⟩
    · rw [hostWrite_window hw]
      exact congrArg Host.Outcome.next (writeOffset_idle he .cmd w)
    · rw [readReg, readReg, ctrlWord, ctrlWord, hctrl]
  · refine ⟨_, hostWrite_window hw w, ?_⟩
    rw [writeOffset_busy hb (by decide) (by decide)]
    exact ⟨rfl, rfl⟩

/-! ## Failures (R202, R204) -/

/-- A command that does not succeed changes the registers of R203 and system memory, and nothing else. -/
theorem exec_command_failure {i : Instr} {s t : State} (hi : isCommand i) (he : s.engine = .idle) (h : exec i s = .next t)
    (hne : t.errCode ≠ 0) : ∃ e c m, t = finish e c { issue (commandWord i) s with mem := m } := by
  obtain ⟨n, q, e, -, rfl⟩ := exec_command_ends hi he h
  exact ⟨e, q.cur, q.mem, settle_of_ne_success _ _ _ q fun hs => hne (by rw [hs]; rfl)⟩

/-- Once the checks pass, only the work of a command ends it. -/
theorem Command.unit_done_work {c : Command} {x : Ctx} {p q : Prog} {e : Ending} (hc : c.check x.ops = none)
    (h : c.unit x p = .done q e) : c.work x p = .done q e := by
  cases hs : p.cur.started with
  | true => exact (Command.unit_started hs).symm.trans h
  | false =>
    rw [Command.unit_enters hs hc] at h
    cases h

/-- The checks that a command makes between its accesses: the two of a walk (R118, R119). -/
abbrev FailsInWalk (i : Instr) (c : CheckError) : Prop :=
  (i = .rleDecode ∨ i = .rleSkip) ∧ (c = .overshoot ∨ c = .srcOverrun)

/-- The check of a run finds one of two errors (R118, R119). -/
theorem runCheck_some {o : Operands} {n need : Nat} {k : Cursor} {c : CheckError} (h : runCheck o n need k = some c) :
    c = .overshoot ∨ c = .srcOverrun := by
  rcases runCheck_cases o n need k with ⟨-, hc⟩ | ⟨-, -, hc⟩ | ⟨-, -, hc⟩ <;> rw [hc] at h <;> cases h
  · exact .inl rfl
  · exact .inr rfl

/-- An access of a run that ends the command is a bus error and no failed check (R125). -/
theorem runAccess_no_failure {x : Ctx} {p q : Prog} {c : CheckError} : runAccess x p ≠ .done q (.failure c) := fun h => by
  obtain ⟨-, ⟨-, hb, -⟩ | ⟨-, hb, -⟩⟩ := runAccess_done_cases h <;> cases hb

theorem walkTurn_failure {write : Bool} {x : Ctx} {p q : Prog} {c : CheckError} (h : walkTurn write x p = .done q (.failure c)) :
    c = .overshoot ∨ c = .srcOverrun := by
  by_cases hr : p.cur.run = .none
  · rcases walkTurn_done_cases hr h with ⟨-, -, hs⟩ | ⟨-, -, -, ho⟩ | ⟨-, -, -, -, hb⟩ | ⟨-, -, -, -, c', hc, hcheck⟩
    · cases hs
    · cases ho
      exact .inr rfl
    · cases hb
    · cases hc
      exact runCheck_some hcheck
  · exact absurd ((walkTurn_run hr).symm.trans h) runAccess_no_failure

/-- After the checks before every access, only a walk still fails a check (R202). -/
theorem work_failure {i : Instr} (hi : isCommand i) {x : Ctx} (hc : (commandOf i).check x.ops = none) {p q : Prog}
    {c : CheckError} (h : (commandOf i).work x p = .done q (.failure c)) : FailsInWalk i c := by
  cases i with
  | nop => cases h
  | skip => cases h
  | illegal w => cases hc
  | copy =>
    replace h : copyTurn x p = .done q (.failure c) := h
    unfold copyTurn at h
    split at h
    · cases h
    · exact absurd h runAccess_no_failure
  | rleDecode => exact ⟨.inl rfl, walkTurn_failure h⟩
  | rleSkip => exact ⟨.inr rfl, walkTurn_failure h⟩
  | transposeRow => rcases groupTurn_done_cases h with ⟨-, -, he⟩ | ⟨_, _, _, -, -, -, -, he⟩ | ⟨-, -, -, he⟩ <;> cases he
  | animate => cases (tableTurn_done h).2.1
  | animateBlend => cases (tableTurn_done h).2.1
  | literal c => cases hi
  | noop => cases hi
  | repeatRun c => cases hi

/-- A failed check has left memory as it was, but for the checks in a walk (R202, R204). -/
theorem exec_command_failure_mem {i : Instr} {s t : State} (hi : isCommand i) (he : s.engine = .idle) (h : exec i s = .next t) :
    t.mem = s.mem ∨ t.errCode = 0x00 ∨ t.errCode = 0x08 ∨ ∃ c, t.errCode = c.code ∧ FailsInWalk i c := by
  cases hc : (commandOf i).check (latch (commandWord i) s) with
  | some e =>
    rw [exec_command_next hi h, Command.run_fails he hc]
    exact .inl rfl
  | none =>
    obtain ⟨n, q, e, hq, rfl⟩ := exec_command_ends hi he h
    obtain ⟨p, hdone⟩ := (iterate_induct (fun _ => True)
      (fun q e => ∃ p, (commandOf i).work (issueCtx (commandWord i) s) p = .done q e) (fun _ _ _ _ => trivial)
      (fun p _ _ _ hu => ⟨p, Command.unit_done_work hc hu⟩) trivial).2 q e hq
    cases e with
    | success => exact .inr (.inl rfl)
    | busError a => exact .inr (.inr (.inl rfl))
    | failure c => exact .inr (.inr (.inr ⟨c, rfl, work_failure hi hc hdone⟩))

/-- Settles O44: only a success writes a parameter register or a palette, and the codes of the checks before every access are no
success, no bus error and no check in a walk. -/
theorem failureKeepsTheCursorRegisters : Obligations.FailureKeepsTheCursorRegisters := by
  intro i s t hi he h hne
  obtain ⟨e, c, m, ht⟩ := exec_command_failure hi he h hne
  refine ⟨by rw [ht]; rfl, by rw [ht]; rfl, by rw [ht]; rfl, fun hcode => ?_⟩
  rcases exec_command_failure_mem hi he h with hm | h0 | h8 | ⟨c, hc, hi', rfl | rfl⟩
  · exact hm
  · exact absurd h0 hne
  · simp [h8] at hcode
  · simp [hc, CheckError.code] at hcode
  · rcases hi' with rfl | rfl <;> simp [hc, CheckError.code] at hcode

/-! ## The registers of a completion (R203) -/

/-- Every ending of a command leaves the registers of R203 as they are read afterwards. -/
theorem completed_settle (i : Instr) (s : State) (q : Prog) (e : Ending) {t : State}
    (ht : t = settle (commandOf i).onSuccess (Running.fresh (commandWord i) s) (issue (commandWord i) s) (.done q e)) :
    completed (commandWord i) t.errCode t.faultAddr t.result.toNat t.outCount.toNat s t ∧
      (t.errCode ≠ 0x08 → t.faultAddr = s.faultAddr) := by
  obtain ⟨pa, op, hs⟩ := settle_done_finish i (Running.fresh (commandWord i) s) (issue (commandWord i) s) q e
  rw [hs] at ht
  subst ht
  have hword : ∀ x : Word, x = BitVec.ofNat 32 x.toNat := fun x => by simp
  refine ⟨⟨rfl, rfl, rfl, rfl, hword _, hword _, rfl, rfl, rfl, rfl, rfl, rfl, rfl, rfl⟩, fun hne => ?_⟩
  cases e with
  | success => rfl
  | failure e => rfl
  | busError a => exact absurd rfl hne

/-- An ending writes of the parameter registers only the cursor registers of its command (R124, R147). -/
theorem settle_done_params (i : Instr) (r : Running) (s : State) (q : Prog) (e : Ending) {t : State}
    (ht : t = settle (commandOf i).onSuccess r s (.done q e)) :
    (i = .copy ∨ i = .rleDecode → t.params = { s.params with
      srcAddr := t.params.srcAddr, srcLen := t.params.srcLen, dstAddr := t.params.dstAddr }) ∧
    (i = .skip ∨ i = .rleSkip → t.params = { s.params with srcAddr := t.params.srcAddr, srcLen := t.params.srcLen }) ∧
    (i = .transposeRow → t.params = { s.params with tpDst := t.params.tpDst }) ∧
    (i = .animate ∨ i = .animateBlend ∨ i = .nop ∨ (∃ w, i = .illegal w) → t.params = s.params) := by
  by_cases hs : e = .success
  · subst hs ht
    refine ⟨?_, ?_, ?_, ?_⟩
    · rintro (rfl | rfl) <;> rfl
    · rintro (rfl | rfl) <;> rfl
    · rintro rfl
      rfl
    · rintro (rfl | rfl | rfl | ⟨w, rfl⟩) <;> rfl
  · rw [settle_of_ne_success _ _ _ _ hs] at ht
    subst ht
    exact ⟨fun _ => rfl, fun _ => rfl, fun _ => rfl, fun _ => rfl⟩

/-- Only the animator publishes a table (R168). -/
theorem settle_done_outPal {i : Instr} (ha : i ≠ .animate) (hb : i ≠ .animateBlend) (r : Running) (s : State) (q : Prog)
    (e : Ending) : (settle (commandOf i).onSuccess r s (.done q e)).outPal = s.outPal := by
  by_cases hs : e = .success
  · subst hs
    cases i with
    | animate => exact absurd rfl ha
    | animateBlend => exact absurd rfl hb
    | _ => rfl
  · rw [settle_of_ne_success _ _ _ _ hs]
    rfl

/-- Whatever its ending, the animator leaves the entries from `N` on (R168, R170). -/
theorem exec_animator_get_beyond {blended : Bool} {s t : State} (he : s.engine = .idle)
    (h : exec (animatorOf blended) s = .next t) (n : Nat) {j : Nat} (hj : s.colorCount ≤ j) :
    t.outPal.get n j = s.outPal.get n j := by
  cases hc : animateCheck (animatorOps blended s) with
  | some e =>
    rw [exec_animator_fails he hc] at h
    cases h
    rfl
  | none =>
    obtain ⟨-, rfl⟩ := exec_animator_next he hc h
    exact animated_get_beyond blended s n hj

/-- Settles O46: by what the ending of each command writes. -/
theorem commandsWriteOnlyTheirRegisters : Obligations.CommandsWriteOnlyTheirRegisters := by
  intro i s t hi he h
  obtain ⟨n, q, e, -, ht⟩ := exec_command_ends hi he h
  obtain ⟨hcompleted, hfault⟩ := completed_settle i s q e ht
  obtain ⟨hmove, hskip, hrow, hkeep⟩ := settle_done_params i _ _ q e ht
  have hpal : i ≠ .animate → i ≠ .animateBlend → t.outPal = s.outPal := fun ha hb =>
    ht ▸ settle_done_outPal ha hb _ (issue (commandWord i) s) q e
  refine ⟨hcompleted, hfault, hmove, hskip, hrow, hkeep, hpal, fun n j hj => ?_⟩
  by_cases ha : i = .animate ∨ i = .animateBlend
  · obtain ⟨blended, rfl⟩ := exists_animatorOf ha
    exact exec_animator_get_beyond he h n hj
  · obtain ⟨ha, hb⟩ := not_or.1 ha
    rw [hpal ha hb]

end Sys2Proof.Machine
end

-- PROOFS, part 28: the steps a command takes, and its completion
section
/-! The statements about how a running command comes to its end (70_reset_and_hazards.md R247, R248): parts of the units, one after
another, are the units at once, and the bound of a command is enough for them to end. -/

namespace Sys2Proof.Machine

/-! ## Parts of a command (R64, R247) -/

/-- What an ending leaves depends neither on memory nor on the cursors that an earlier part of the command has left. -/
theorem settle_done_resume (i : Instr) (r : Running) (s : State) (m : Memory) (c : Cursor) (p : Prog) (e : Ending) :
    settle (commandOf i).onSuccess { r with cur := c } { s with mem := m, engine := .busy { r with cur := c } } (.done p e) =
      settle (commandOf i).onSuccess r s (.done p e) := by
  cases e with
  | success => cases i <;> rfl
  | failure e => rfl
  | busError a => rfl

/-- A move that completes a command is the whole of it. -/
theorem move_eq_complete (i : Instr) {n : Nat} {r : Running} {s : State} {p : Prog} {e : Ending}
    (h : iterate ((commandOf i).unit (r.ctx s)) n ⟨s.mem, r.cur⟩ = .done p e) :
    (commandOf i).move n r s = (commandOf i).complete r s := by
  obtain ⟨q, e', hq, hc⟩ := Command.complete_ends i r s
  obtain ⟨rfl, rfl⟩ := iterate_done_unique h hq
  rw [hc, Command.move, h]

/-- A part of a command that leaves more to do, and then the rest, is the whole of it. -/
theorem complete_after_move (i : Instr) {n : Nat} {r : Running} {s : State} {p : Prog}
    (h : iterate ((commandOf i).unit (r.ctx s)) n ⟨s.mem, r.cur⟩ = .more p) :
    (commandOf i).complete { r with cur := p.cur } { s with mem := p.mem, engine := .busy { r with cur := p.cur } } =
      (commandOf i).complete r s := by
  obtain ⟨q, e, hq, hc⟩ := Command.complete_ends i { r with cur := p.cur }
    { s with mem := p.mem, engine := .busy { r with cur := p.cur } }
  have hall : iterate ((commandOf i).unit (r.ctx s)) (n + ((commandOf i).bound r.ops p.cur + 2)) ⟨s.mem, r.cur⟩ = .done q e := by
    rw [iterate_add, h]
    exact hq
  rw [hc, settle_done_resume, ← move_eq_complete i hall, Command.move, hall]

/-- A Busy engine that runs to the end of its command reads no entry never written, and comes to `outcome` (R245). -/
theorem runStep_next {s t : State} {r : Running} (he : s.engine = .busy r) (h : runStep s = .next t) :
    s.readsUnwritten = false ∧ t = outcome s := by
  have hrun : runStep s = unlessUnwritten s (outcome s) := by
    rw [runStep, he]
    exact exec_latched he
  rcases unlessUnwritten_cases s (outcome s) with ⟨-, h'⟩ | ⟨hr, h'⟩ <;> rw [hrun, h'] at h <;> cases h
  exact ⟨hr, rfl⟩

/-- Settles O14: every grant is a number of units, and so many units and then the rest are the units of the whole command. -/
theorem unitsThenTheRestIsTheWholeCommand : Obligations.UnitsThenTheRestIsTheWholeCommand := by
  intro s t u r g he hu ht
  obtain ⟨hwritten, rfl⟩ := runStep_next he ht
  have houtcome : outcome s = (commandOf (decodeCommand r.word)).complete r s := by rw [outcome, he]
  have hmove := engineStep_busy_next he hu
  rcases Command.move_cases (decodeCommand r.word) (grantedUnits g r s) r s with ⟨p, hp, hm⟩ | ⟨p, e, pa, op, hp, hm⟩
  · rw [hm] at hmove
    subst hmove
    refine ⟨nofun, fun _ => ?_⟩
    have hwritten' := (readsUnwritten_congr he (t := { s with mem := p.mem, engine := .busy { r with cur := p.cur } })
      rfl rfl rfl rfl).trans hwritten
    show exec (decodeCommand r.word) _ = _
    rw [exec_latched (r := { r with cur := p.cur }) rfl, unlessUnwritten, hwritten', houtcome, ← complete_after_move _ hp]
    rfl
  · rw [move_eq_complete _ hp, ← houtcome] at hmove
    refine ⟨fun _ => hmove, fun hbusy => absurd ?_ hbusy⟩
    rw [hmove, houtcome, ← move_eq_complete _ hp, hm, finish_engine]

/-! ## Termination (R248) -/

/-- The rest of a running command, and a command from its issue, end with the engine Idle and `DONE` set. -/
theorem Command.run_completes (i : Instr) (w : Word) (s : State) :
    ((commandOf i).run w s).engine = .idle ∧ ((commandOf i).run w s).status.done = true := by
  have hcomplete : ∀ r u, ((commandOf i).complete r u).engine = .idle ∧ ((commandOf i).complete r u).status.done = true :=
    fun r u => by
      obtain ⟨p, e, -, hc⟩ := Command.complete_ends i r u
      rw [hc]
      exact settle_done_idle _ r u p e
  rcases idle_or_busy s with he | ⟨r, he⟩
  · rw [Command.run_idle he]
    exact hcomplete _ _
  · rw [Command.run_busy he]
    exact hcomplete r s

/-- Settles O13: the bound of every command is enough, and only an animator can fault. -/
theorem everyCommandCompletes : Obligations.EveryCommandCompletes := by
  intro i s hi
  split
  · rename_i hfault
    obtain ⟨ha, hr⟩ := hfault
    exact exec_unwritten ha hr
  · rename_i hruns
    refine ⟨_, exec_command hi s ?_, Command.run_completes i (commandWord i) s⟩
    rw [← Bool.not_eq_true]
    tauto

end Sys2Proof.Machine
end

-- PROOFS, part 29: power-on and soft reset
section
/-! The statements about the two resets (70_reset_and_hazards.md R230 to R232): both leave the registers of `State.reset`; the soft
reset keeps `BASE_PAL` and draws what an abandoned command has written. -/

namespace Sys2Proof.Machine

/-! ## The reset column (R22) -/

/-- A state with the registers of `State.reset`, whatever the palettes, memory, the platform and the model's own fields hold. -/
def State.AtReset (t : State) : Prop :=
  t = { State.reset with
    basePal := t.basePal, outPal := t.outPal, mem := t.mem, platform := t.platform, inputs := t.inputs, lastRead := t.lastRead,
    draws := t.draws }

theorem reset_atReset : State.reset.AtReset := rfl

theorem powerOnReset_atReset (s : State) : (powerOnReset s).AtReset := rfl

theorem softReset_atReset (s : State) : (softReset s).AtReset := rfl

/-- Every register but `ID` and the palettes reads 0 after a reset (R22). -/
theorem State.AtReset.readReg_eq_zero {t : State} (h : t.AtReset) {reg : Reg} (hid : reg ≠ .id) (hbase : ∀ i, reg ≠ .basePal i)
    (hout : ∀ i, reg ≠ .outPal i) : readReg t reg = 0 := by
  rw [h]
  cases reg with
  | id => exact absurd rfl hid
  | basePal i => exact absurd rfl (hbase i)
  | outPal i => exact absurd rfl (hout i)
  | status => exact (show statusWord State.reset = 0 by decide)
  | rangeBounds k => simp [readReg, State.reset, Params.reset, boundsWord]
  | rangeRate k => simp [readReg, State.reset, Params.reset]
  | _ => rfl

/-- The engine is Idle and the interrupt output deasserted (R230, R231). -/
theorem State.AtReset.idle_irqLevel {t : State} (h : t.AtReset) : t.engine = .idle ∧ irqLevel t = false := by
  rw [h]
  exact ⟨rfl, rfl⟩

/-- A palette after power-on shows free values (R46, R47, log 3). -/
@[simp] theorem Palette.get_reset (n i : Nat) : Palette.reset.get n i = Config.freeColour n i := by
  rcases Nat.lt_or_ge i 256 with hi | hi
  · simp [Palette.get, Palette.reset, hi]
  · exact Palette.get_outside _ n hi

/-- Settles O8: the engine is Idle, memory empty and the code 0. -/
theorem resetMeetsTheMachineInvariant : Obligations.ResetMeetsTheMachineInvariant :=
  inv_of_idle rfl Memory.wf_reset (Nat.zero_le 8)

/-- Settles O7: both states have the registers of `State.reset` and palettes that nothing has written. -/
theorem resetHoldsTheResetColumn : Obligations.ResetHoldsTheResetColumn := by
  refine ⟨rfl, fun s => ⟨powerOnReset s, rfl, rfl, rfl, rfl⟩, fun t ht => ?_⟩
  have hreset : t.AtReset ∧ t.basePal = Palette.reset ∧ t.outPal = Palette.reset := by
    rcases ht with rfl | ⟨s, hs⟩
    · exact ⟨reset_atReset, rfl, rfl⟩
    · cases hs
      exact ⟨powerOnReset_atReset s, rfl, rfl⟩
  obtain ⟨hat, hbase, hout⟩ := hreset
  obtain ⟨hidle, hirq⟩ := hat.idle_irqLevel
  refine ⟨rfl, fun reg => hat.readReg_eq_zero, hidle, hirq, fun n i => ?_⟩
  rw [hbase, hout]
  exact ⟨Palette.get_reset n i, Palette.get_reset n i⟩

/-! ## The abandoned command (R231) -/

/-- Without a running command there is nothing to abandon. -/
theorem abandoned_idle {s : State} (he : s.engine = .idle) :
    abandonedMem s = s.mem ∧ ∀ n i, (abandonedOutPal s).get n i = s.outPal.get n i := by
  refine ⟨by rw [abandonedMem, he], fun n i => ?_⟩
  rw [abandonedOutPal, outcome_idle he, Palette.get_merge, ite_self]

/-- An entry of `OUT_PAL` is what it was or what the command would have given it. -/
theorem abandonedOutPal_get (s : State) (n i : Nat) :
    (abandonedOutPal s).get n i = s.outPal.get n i ∨ (abandonedOutPal s).get n i = (outcome s).outPal.get n i := by
  rw [abandonedOutPal, Palette.get_merge]
  split
  · exact .inr rfl
  · exact .inl rfl

/-- A mix shows the second memory only at a marked address. -/
theorem Memory.read_mix_cases {m : Memory} (hm : Memory.rising 0 m = true) (n : Memory) (pick : Nat → Bool) (as : List Nat)
    (b : Nat) : Memory.read (Memory.mix m n pick as) b = Memory.read m b ∨
      (pick b = true ∧ Memory.read (Memory.mix m n pick as) b = Memory.read n b) := by
  rw [Memory.read_mix hm]
  split
  · rename_i h
    obtain ⟨-, hpick⟩ := h
    exact .inr ⟨hpick, rfl⟩
  · exact .inl rfl

/-- A byte of an abandoned command's memory is what it is now, or, in a write window, its old value or the one the command would have
given it. -/
theorem abandonedMem_read {s : State} {r : Running} (h : s.Inv) (he : s.engine = .busy r) (a : Nat) :
    Memory.read (abandonedMem s) a = Memory.read s.mem a ∨
      (r.writeWindow a = true ∧ (Memory.read (abandonedMem s) a = Memory.read r.before a ∨
        Memory.read (abandonedMem s) a = Memory.read (outcome s).mem a)) := by
  have hm := Memory.rising_of_wf h.wf
  rw [abandonedMem, he]
  rcases Memory.read_mix_cases (Memory.rising_mix hm _ _ _) r.before (fun b => r.writeWindow b && Config.freeBit s.draws b)
    ((r.before ++ s.mem ++ (outcome s).mem).map Prod.fst) a with hread | ⟨hpick, hread⟩
  · rcases Memory.read_mix_cases hm (outcome s).mem (fun b => r.writeWindow b && !Config.freeBit s.draws b)
      ((r.before ++ s.mem ++ (outcome s).mem).map Prod.fst) a with hread' | ⟨hpick, hread'⟩
    · exact .inl (hread.trans hread')
    · exact .inr ⟨(Bool.and_eq_true_iff.1 hpick).1, .inr (hread.trans hread')⟩
  · exact .inr ⟨(Bool.and_eq_true_iff.1 hpick).1, .inl hread⟩

/-- Settles O56: a write of `SRST` is the soft reset in either phase. -/
theorem softResetAbandonsTheCommand : Obligations.SoftResetAbandonsTheCommand := by
  intro s addr v h hw hsrst
  have hat := softReset_atReset s
  refine ⟨softReset s, ?_, rfl, rfl, rfl, fun reg => hat.readReg_eq_zero, abandoned_idle,
    fun r he => ⟨fun a ha => ?_, fun a => ?_, abandonedOutPal_get s⟩⟩
  · rw [hostWrite_window hw, writeOffset_ctrl, writeCtrl, hsrst]
    rfl
  · rcases abandonedMem_read h he a with hread | ⟨hwindow, -⟩
    · exact hread
    · rw [ha] at hwindow
      cases hwindow
  · rcases abandonedMem_read h he a with hread | ⟨-, hread | hread⟩
    · exact .inr (.inl hread)
    · exact .inl hread
    · exact .inr (.inr hread)

end Sys2Proof.Machine
end

-- PROOFS, part 30: host accesses to system memory, and the races
section
/-! The statement about host accesses to single bytes of system memory (20_memory.md R60, R69; 70_reset_and_hazards.md R240, R241):
first the access that is no race, then each of the three races. -/

namespace Sys2Proof.Machine

/-! ## Reads -/

/-- A host read that is no race shows the byte that memory holds. -/
theorem hostSees_idle {s : State} (he : s.engine = .idle) (a : Nat) : hostSees s a = Memory.read s.mem a := by
  rw [hostSees, he]

theorem hostSees_outside {s : State} {r : Running} (he : s.engine = .busy r) {a : Nat} (hw : r.writeWindow a = false) :
    hostSees s a = Memory.read s.mem a := by
  simp [hostSees, he, hw]

/-- A host read in a write window shows the old value or the one the command would give the byte (R241). -/
theorem hostSees_cases {s : State} {r : Running} (he : s.engine = .busy r) {a : Nat} (hw : r.writeWindow a = true) :
    hostSees s a = Memory.read r.before a ∨ hostSees s a = Memory.read (outcome s).mem a := by
  rw [hostSees, he]
  simp only [hw, if_true]
  split
  · exact .inl rfl
  · exact .inr rfl

/-! ## Writes that are no race -/

/-- A written byte is read back, and every other byte is as it was. -/
theorem read_written {m : Memory} (hm : Memory.wf m = true) (a : Nat) (v : Byte) :
    Memory.read (Memory.write m a v) a = v ∧ ∀ b, b ≠ a → Memory.read (Memory.write m a v) b = Memory.read m b :=
  ⟨by rw [Memory.read_write_wf hm, if_pos rfl], fun b hb => by rw [Memory.read_write_wf hm, if_neg hb]⟩

theorem hostStores_outside {s : State} {r : Running} (he : s.engine = .busy r) {a : Nat} (hr : r.readWindow a = false)
    (hw : r.writeWindow a = false) (v : Byte) : hostStores a v s = { s with mem := Memory.write s.mem a v } := by
  simp [hostStores, he, hr, hw]

/-- The block Idle, or the byte in no window of the running command: no race (R240). -/
def Unraced (s : State) (a : Nat) : Prop :=
  s.engine = .idle ∨ ∃ r, s.engine = .busy r ∧ r.readWindow a = false ∧ r.writeWindow a = false

theorem Unraced.hostSees_eq {s : State} {a : Nat} (h : Unraced s a) : hostSees s a = Memory.read s.mem a := by
  rcases h with he | ⟨r, he, -, hw⟩
  · exact hostSees_idle he a
  · exact hostSees_outside he hw

theorem Unraced.hostStores_eq {s : State} {a : Nat} (h : Unraced s a) (v : Byte) :
    hostStores a v s = { s with mem := Memory.write s.mem a v } := by
  rcases h with he | ⟨r, he, hr, hw⟩
  · exact hostStores_idle he a v
  · exact hostStores_outside he hr hw v

/-- The access that is no race (R60, R69). -/
theorem unraced_access {s : State} {addr : Word} (h : Unraced s addr.toNat) :
    (∃ t, handle (.memRead addr) s = .next t ∧
      t = { s with lastRead := some ((Memory.read s.mem addr.toNat).setWidth 32), draws := t.draws }) ∧
    ∀ v : Byte, Memory.wf s.mem = true →
      ∃ t, handle (.memWrite addr v) s = .next t ∧ t = { s with mem := t.mem } ∧
        Memory.read t.mem addr.toNat = v ∧ ∀ a, a ≠ addr.toNat → Memory.read t.mem a = Memory.read s.mem a := by
  refine ⟨⟨hostMemRead addr s, rfl, by rw [hostMemRead, h.hostSees_eq]⟩, fun v hm => ?_⟩
  exact ⟨_, congrArg Host.Outcome.next (h.hostStores_eq v), rfl, read_written hm addr.toNat v⟩

/-! ## Writes in the read window -/

theorem hostStores_readWindow {s : State} {r : Running} (he : s.engine = .busy r) {a : Nat} (hr : r.readWindow a = true)
    (v : Byte) : hostStores a v s = writeReadWindow r a v s := by
  simp [hostStores, he, hr]

theorem lookup_cell_cons (x : Nat) (w : Byte) (l : List Host.Cell) (b : Nat) :
    List.lookup b ((x, w) :: l) = if b = x then some w else l.lookup b := by
  by_cases h : b = x
  · simp [h]
  · rw [List.lookup_cons, beq_false_of_ne h, if_neg h]

/-- A list without the cells of address `a` answers for every other address as before. -/
theorem lookup_filter_ne (l : List Host.Cell) (a b : Nat) :
    (l.filter fun c => c.1 != a).lookup b = if b = a then none else l.lookup b := by
  induction l with
  | nil => simp
  | cons c l ih =>
    obtain ⟨x, w⟩ := c
    by_cases hxa : x = a
    · rw [List.filter_cons_of_neg (by simp [hxa]), ih, lookup_cell_cons, hxa]
      split
      · rfl
      · rfl
    · rw [List.filter_cons_of_pos (by simp [hxa]), lookup_cell_cons, ih, lookup_cell_cons]
      by_cases hba : b = a
      · subst hba
        simp [Ne.symm hxa]
      · simp [hba]

/-- The running command after a host write in its read window: the byte's old value is the written one, and the draw decides whether
the engine still sees the byte as it did (R241, log 6). -/
def Running.afterReadRace (r : Running) (a : Nat) (v : Byte) (s : State) : Running :=
  { r with
    before := Memory.write r.before a v
    stale :=
      if Config.freeBit s.draws a then (a, (r.ctx s).view.seen s.mem a) :: r.stale.filter fun c => c.1 != a
      else r.stale.filter fun c => c.1 != a }

theorem writeReadWindow_eq (r : Running) (a : Nat) (v : Byte) (s : State) :
    writeReadWindow r a v s =
      { s with mem := Memory.write s.mem a v, engine := .busy (r.afterReadRace a v s), draws := s.draws + 1 } := rfl

/-- The cell it finds there: none but the draw's at the address written, and at every other address the one from before. -/
theorem afterReadRace_lookup (r : Running) (a : Nat) (v : Byte) (s : State) (b : Nat) :
    (r.afterReadRace a v s).stale.lookup b =
      if b = a then (if Config.freeBit s.draws a then some ((r.ctx s).view.seen s.mem a) else none) else r.stale.lookup b := by
  simp only [Running.afterReadRace]
  split
  · rw [lookup_cell_cons, lookup_filter_ne]
    split
    · rfl
    · rfl
  · exact lookup_filter_ne r.stale a b

/-- At the address written the engine then sees the written value or the one it would have seen (R241). -/
theorem afterReadRace_seen_same {s t : State} (hm : Memory.wf s.mem = true) (r : Running) (a : Nat) (v : Byte) :
    ((r.afterReadRace a v s).ctx t).view.seen (Memory.write s.mem a v) a = v ∨
      ((r.afterReadRace a v s).ctx t).view.seen (Memory.write s.mem a v) a = (r.ctx s).view.seen s.mem a := by
  have hlookup := afterReadRace_lookup r a v s a
  rw [if_pos rfl] at hlookup
  simp only [BusView.seen, Running.ctx, hlookup]
  cases Config.freeBit s.draws a
  · exact .inl (read_written hm a v).1
  · exact .inr rfl

/-- At every other address it sees what it saw before. -/
theorem afterReadRace_seen_ne {s t : State} (hm : Memory.wf s.mem = true) (r : Running) {a b : Nat} (hne : b ≠ a) (v : Byte) :
    ((r.afterReadRace a v s).ctx t).view.seen (Memory.write s.mem a v) b = (r.ctx s).view.seen s.mem b := by
  have hlookup := afterReadRace_lookup r a v s b
  rw [if_neg hne] at hlookup
  simp only [BusView.seen, Running.ctx, hlookup, (read_written hm a v).2 b hne]

/-! ## Writes in a write window -/

theorem hostStores_writeWindow {s : State} {r : Running} (he : s.engine = .busy r) {a : Nat} (hr : r.readWindow a = false)
    (hw : r.writeWindow a = true) (v : Byte) : hostStores a v s = writeWriteWindow r a v s := by
  simp [hostStores, he, hr, hw]

/-- The running command after a host write in a write window: the byte's old value is the written one, and where the engine has not
passed the byte the draw decides whether the engine's own write of it is lost (R241, log 6). -/
def Running.afterWriteRace (r : Running) (a : Nat) (v : Byte) (s : State) : Running :=
  { r with
    before := Memory.write r.before a v
    shielded := if !r.passed a && Config.freeBit s.draws a then a :: r.shielded else r.shielded }

/-- System memory after it: where the engine has passed the byte, the draw decides whether the write lands. -/
def Running.memAfterWriteRace (r : Running) (a : Nat) (v : Byte) (s : State) : Memory :=
  if r.passed a && !Config.freeBit s.draws a then s.mem else Memory.write s.mem a v

theorem writeWriteWindow_eq (r : Running) (a : Nat) (v : Byte) (s : State) :
    writeWriteWindow r a v s =
      { s with
        mem := r.memAfterWriteRace a v s
        engine := .busy (r.afterWriteRace a v s)
        draws := s.draws + 1 } := by
  unfold writeWriteWindow Running.memAfterWriteRace Running.afterWriteRace
  cases r.passed a <;> cases Config.freeBit s.draws a <;> rfl

/-- The byte written lands, or may not where the engine has passed it (R241). -/
theorem memAfterWriteRace_same {s : State} (hm : Memory.wf s.mem = true) (r : Running) (a : Nat) (v : Byte) :
    Memory.read (r.memAfterWriteRace a v s) a = v ∨
      (r.passed a = true ∧ Memory.read (r.memAfterWriteRace a v s) a = Memory.read s.mem a) := by
  unfold Running.memAfterWriteRace
  split
  · rename_i hdraw
    exact .inr ⟨(Bool.and_eq_true_iff.1 hdraw).1, rfl⟩
  · exact .inl (read_written hm a v).1

/-- Every other byte of memory is as it was. -/
theorem memAfterWriteRace_ne {s : State} (hm : Memory.wf s.mem = true) (r : Running) {a b : Nat} (hne : b ≠ a) (v : Byte) :
    Memory.read (r.memAfterWriteRace a v s) b = Memory.read s.mem b := by
  unfold Running.memAfterWriteRace
  split
  · rfl
  · exact (read_written hm a v).2 b hne

/-- The engine's write of a byte, given whether its address is shielded (R241). -/
theorem BusView.write_congr {v w : BusView} {a : Nat} (hp : v.platform = w.platform)
    (hs : v.shielded.contains a = w.shielded.contains a) (m : Memory) (b : Byte) : v.write m a b = w.write m a b := by
  simp only [BusView.write, hp, hs]

/-- The engine's own writes after it: as before at every other address (R241). -/
theorem afterWriteRace_write_ne {s t : State} (hp : t.platform = s.platform) (r : Running) {a b : Nat} (hne : b ≠ a) (v : Byte)
    (m : Memory) (w : Byte) :
    ((r.afterWriteRace a v s).ctx t).view.write m b w = (r.ctx s).view.write m b w := by
  refine BusView.write_congr hp ?_ m w
  simp only [Running.ctx, Running.afterWriteRace]
  split
  · simp [hne]
  · rfl

/-- And at the address written: as before, or lost where the engine has not passed the byte. -/
theorem afterWriteRace_write_same {s t : State} (hp : t.platform = s.platform) (r : Running) (a : Nat) (v : Byte) (m : Memory)
    (w : Byte) :
    ((r.afterWriteRace a v s).ctx t).view.write m a w = (r.ctx s).view.write m a w ∨
      (r.passed a = false ∧ ((r.afterWriteRace a v s).ctx t).view.write m a w =
        if busError s.platform .write a then none else some m) := by
  by_cases hdraw : (!r.passed a && Config.freeBit s.draws a) = true
  · refine .inr ⟨by simpa using (Bool.and_eq_true_iff.1 hdraw).1, ?_⟩
    simp [Running.afterWriteRace, Running.ctx, BusView.write, hdraw, hp]
  · refine .inl (BusView.write_congr hp ?_ m w)
    simp only [Running.ctx, Running.afterWriteRace, if_neg hdraw]

/-! ## The statement -/

/-- Settles O59: the access that is no race, the read of a byte of a write window, and the writes in the two kinds of window. -/
theorem racedBytesAreOldOrNew : Obligations.RacedBytesAreOldOrNew := by
  refine ⟨fun s addr => unraced_access, fun s r addr he => ⟨fun t ht => ?_, fun v hm hr => ?_, fun v hm hb hr hw => ?_⟩⟩
  · cases ht
    refine ⟨rfl, fun hw => ?_, fun hw => ?_⟩
    · rw [hostMemRead, hostSees_outside he hw]
    · rcases hostSees_cases he hw with hs | hs <;> rw [hostMemRead, hs]
      · exact .inl rfl
      · exact .inr rfl
  · obtain ⟨hmem, hmem'⟩ := read_written hm addr.toNat v
    exact ⟨_, r.afterReadRace addr.toNat v s, congrArg Host.Outcome.next (hostStores_readWindow he hr v), rfl, rfl, hmem,
      fun hb => (read_written hb addr.toNat v).1, afterReadRace_seen_same hm r addr.toNat v,
      fun a ha => ⟨hmem' a ha, afterReadRace_seen_ne hm r ha v⟩⟩
  · obtain ⟨hbefore, hbefore'⟩ := read_written hb addr.toNat v
    exact ⟨_, r.afterWriteRace addr.toNat v s,
      congrArg Host.Outcome.next ((hostStores_writeWindow he hr hw v).trans (writeWriteWindow_eq r addr.toNat v s)), rfl, rfl,
      hbefore, memAfterWriteRace_same hm r addr.toNat v, afterWriteRace_write_same rfl r addr.toNat v,
      fun a ha => ⟨memAfterWriteRace_ne hm r ha v, hbefore' a ha, afterWriteRace_write_ne rfl r ha v⟩⟩

end Sys2Proof.Machine
end
